-- ==== Sys2Proof/Word.lean ====
section
/-! DEFINITION. The word types of PMGC (spec/00_scope.md R6, R10) and the access to an array of registers. -/

namespace Sys2Proof

/-- A 32-bit register or port value (R6: `W = 32`). -/
abbrev Word := BitVec 32

/-- A 64-bit command descriptor `C` (30_encoding.md R100). -/
abbrev Descriptor := BitVec 64

/-- A pin index, `0..31` (R6: `NPIN = 32`). -/
abbrev Pin := BitVec 5

/-- One bit per interrupt line. The encoding names at most 1024 lines (R8, R103). -/
abbrev LineSet := BitVec 1024

/-- Register `n` of an array of registers. Every array holds as many registers as the spec gives it
(`State.shapeOk`), so the value beyond its end is never used. -/
def regAtIndex (l : List Word) (n : Nat) : Word := l.getD n 0

end Sys2Proof
end

