-- ==== Sys2Proof/Syntax.lean ====
section
/-! DEFINITION. The commands of PMGC (spec/30_encoding.md R102, R103, R106): one constructor per row of
`opcode_table.json`, with the fields of its format. -/

namespace Sys2Proof

/-- A command with its operand fields, as the descriptor carries them (R103). -/
inductive Instr where
  /-- `CFGF p, f`: `configure_function(pin, function)`. -/
  | cfgf (p : Pin) (f : BitVec 3)
  /-- `CFGP p, c`: `configure_pull(pin, pull_state)`. -/
  | cfgp (p : Pin) (c : BitVec 2)
  /-- `ENR p`: `enable_rising_edge_detect(pin)`. -/
  | enr (p : Pin)
  /-- `ENF p`: `enable_falling_edge_detect(pin)`. -/
  | enf (p : Pin)
  /-- `SET p`: `set(pin)`. -/
  | set (p : Pin)
  /-- `CLR p`: `clear(pin)`. -/
  | clr (p : Pin)
  /-- `SETG p`: the guarded set. -/
  | setg (p : Pin)
  /-- `PRI0 first, last`: `reset_priorities(line_range)`. -/
  | pri0 (first last : BitVec 10)
  /-- `TGT first, last, mask`: `set_targets(line_range, cpu_mask)`. -/
  | tgt (first last : BitVec 10) (mask : BitVec 8)
  /-- `SNS rfirst, rlast, pattern`: `set_sense_config(register_range, bit_pattern)`. -/
  | sns (rfirst rlast : BitVec 6) (pattern : Word)
  /-- `ENL l`: `enable_line(line)`. -/
  | enl (l : BitVec 10)
  /-- `FWD`: `set_group_forwarding(privilege_level)`. -/
  | fwd
deriving DecidableEq, Repr

/-- What decoding answers (R106): a command, or that the descriptor matches no row (R108). -/
inductive Decoded where
  | ok (i : Instr)
  | illegalCommand
deriving DecidableEq, Repr

end Sys2Proof
end

