-- ==== Sys2Proof/Decode.lean ====
section
/-! DEFINITION. Decoding and encoding of command descriptors (spec/30_encoding.md R100 to R107). Decoding is
total on all 2^64 descriptors and decides on bits alone; the operand values are checked at acceptance
(R104, `Machine/Commands.lean`). -/

namespace Sys2Proof

/-! ### The opcode map (R106) -/

/-- The `match` and `mask` of each mnemonic, row by row of R106. -/
def opcodeRows : List (String × Descriptor × Descriptor) :=
  [("CFGF", 0x0000000010000000, 0xFFFFFFFFFFFFFF00),
   ("CFGP", 0x0000000020000000, 0xFFFFFFFFFFFFFF80),
   ("ENR",  0x0000000030000000, 0xFFFFFFFFFFFFFFE0),
   ("ENF",  0x0000000040000000, 0xFFFFFFFFFFFFFFE0),
   ("SET",  0x0000000050000000, 0xFFFFFFFFFFFFFFE0),
   ("CLR",  0x0000000060000000, 0xFFFFFFFFFFFFFFE0),
   ("SETG", 0x0000000070000000, 0xFFFFFFFFFFFFFFE0),
   ("PRI0", 0x0000000080000000, 0xFFFFFFFFFFF00000),
   ("TGT",  0x0000000090000000, 0xFFFFFFFFF0000000),
   ("SNS",  0x00000000A0000000, 0x00000000FFFFF000),
   ("ENL",  0x00000000B0000000, 0xFFFFFFFFFFFFFC00),
   ("FWD",  0x00000000C0000000, 0xFFFFFFFFFFFFFFFF)]

/-- The descriptor matches a row: `(C & mask) = match`. -/
def rowMatches (C pat mask : Descriptor) : Bool := C &&& mask == pat

/-! ### Fields (R102, R103) -/

/-- `pin = ctl[4:0]`. -/
def fieldPin (C : Descriptor) : Pin := C.extractLsb' 0 5
/-- `arg = ctl[7:5]`, the function code of `CFGF`. -/
def fieldFunction (C : Descriptor) : BitVec 3 := C.extractLsb' 5 3
/-- `arg[1:0] = ctl[6:5]`, the pull code of `CFGP`. -/
def fieldPull (C : Descriptor) : BitVec 2 := C.extractLsb' 5 2
/-- `first = ctl[9:0]`; also `line` of format N. -/
def fieldFirst (C : Descriptor) : BitVec 10 := C.extractLsb' 0 10
/-- `last = ctl[19:10]`. -/
def fieldLast (C : Descriptor) : BitVec 10 := C.extractLsb' 10 10
/-- `val = ctl[27:20]`. -/
def fieldVal (C : Descriptor) : BitVec 8 := C.extractLsb' 20 8
/-- `rfirst = ctl[5:0]`. -/
def fieldRFirst (C : Descriptor) : BitVec 6 := C.extractLsb' 0 6
/-- `rlast = ctl[11:6]`. -/
def fieldRLast (C : Descriptor) : BitVec 6 := C.extractLsb' 6 6
/-- `pattern = imm = C[63:32]`. -/
def fieldPattern (C : Descriptor) : Word := C.extractLsb' 32 32

/-- Decode of a descriptor (R106, R107): the row it matches with its fields, or `illegalCommand`. -/
def decode (C : Descriptor) : Decoded :=
  if rowMatches C 0x0000000010000000 0xFFFFFFFFFFFFFF00 then .ok (.cfgf (fieldPin C) (fieldFunction C))
  else if rowMatches C 0x0000000020000000 0xFFFFFFFFFFFFFF80 then .ok (.cfgp (fieldPin C) (fieldPull C))
  else if rowMatches C 0x0000000030000000 0xFFFFFFFFFFFFFFE0 then .ok (.enr (fieldPin C))
  else if rowMatches C 0x0000000040000000 0xFFFFFFFFFFFFFFE0 then .ok (.enf (fieldPin C))
  else if rowMatches C 0x0000000050000000 0xFFFFFFFFFFFFFFE0 then .ok (.set (fieldPin C))
  else if rowMatches C 0x0000000060000000 0xFFFFFFFFFFFFFFE0 then .ok (.clr (fieldPin C))
  else if rowMatches C 0x0000000070000000 0xFFFFFFFFFFFFFFE0 then .ok (.setg (fieldPin C))
  else if rowMatches C 0x0000000080000000 0xFFFFFFFFFFF00000 then .ok (.pri0 (fieldFirst C) (fieldLast C))
  else if rowMatches C 0x0000000090000000 0xFFFFFFFFF0000000 then
    .ok (.tgt (fieldFirst C) (fieldLast C) (fieldVal C))
  else if rowMatches C 0x00000000A0000000 0x00000000FFFFF000 then
    .ok (.sns (fieldRFirst C) (fieldRLast C) (fieldPattern C))
  else if rowMatches C 0x00000000B0000000 0xFFFFFFFFFFFFFC00 then .ok (.enl (fieldFirst C))
  else if rowMatches C 0x00000000C0000000 0xFFFFFFFFFFFFFFFF then .ok .fwd
  else .illegalCommand

/-! ### Encoding, from the format tables of R102 -/

/-- Format P: `imm = 0`, `ctl = {op, 0 (20 bits), arg (3 bits), pin (5 bits)}`. -/
def encodeP (op : BitVec 4) (arg : BitVec 3) (pin : Pin) : Descriptor :=
  (0#32 ++ op ++ 0#20 ++ arg ++ pin : BitVec 64)

/-- Format L: `imm = 0`, `ctl = {op, val (8 bits), last (10 bits), first (10 bits)}`. -/
def encodeL (op : BitVec 4) (val : BitVec 8) (last first : BitVec 10) : Descriptor :=
  (0#32 ++ op ++ val ++ last ++ first : BitVec 64)

/-- Format R: `imm = pattern`, `ctl = {op, 0 (16 bits), rlast (6 bits), rfirst (6 bits)}`. -/
def encodeR (op : BitVec 4) (pattern : Word) (rlast rfirst : BitVec 6) : Descriptor :=
  (pattern ++ op ++ 0#16 ++ rlast ++ rfirst : BitVec 64)

/-- Format N: `imm = 0`, `ctl = {op, 0 (18 bits), line (10 bits)}`. -/
def encodeN (op : BitVec 4) (line : BitVec 10) : Descriptor :=
  (0#32 ++ op ++ 0#18 ++ line : BitVec 64)

/-- Format Z: `imm = 0`, `ctl = {op, 0 (28 bits)}`. -/
def encodeZ (op : BitVec 4) : Descriptor := (0#32 ++ op ++ 0#28 : BitVec 64)

/-- The descriptor of a command (R102, R103, opcodes of R106). -/
def encode : Instr → Descriptor
  | .cfgf p f => encodeP 0x1 f p
  | .cfgp p c => encodeP 0x2 (0#1 ++ c) p
  | .enr p => encodeP 0x3 0 p
  | .enf p => encodeP 0x4 0 p
  | .set p => encodeP 0x5 0 p
  | .clr p => encodeP 0x6 0 p
  | .setg p => encodeP 0x7 0 p
  | .pri0 first last => encodeL 0x8 0 last first
  | .tgt first last mask => encodeL 0x9 mask last first
  | .sns rfirst rlast pattern => encodeR 0xA pattern rlast rfirst
  | .enl l => encodeN 0xB l
  | .fwd => encodeZ 0xC

/-- The command this decoder reads from a table word: `w` holds the bits `nbits-1..0` of a descriptor,
numbered as R100 numbers them, and the bits above are 0. A descriptor has 64 bits, so a set bit beyond
them belongs to no command. -/
def decodeTableWord (nbits w : Nat) : Option Instr :=
  if w % 2 ^ nbits < 2 ^ 64 then
    match decode (BitVec.ofNat 64 (w % 2 ^ nbits)) with
    | .ok i => some i
    | .illegalCommand => none
  else none

end Sys2Proof
end

