-- ==== Sys2Proof/Config.lean ====
section
/-! DEFINITION. The configuration record `CFG` (spec/00_scope.md R8), its constraints, and the free values
the spec leaves open. -/

namespace Sys2Proof

/-- The address map `MAP` (20_memory.md R80): the byte address of each register or array of registers. -/
structure AddrMap where
  fsel0 : Nat
  gpset : Nat
  gpclr : Nat
  ren : Nat
  fen : Nat
  pull0 : Nat
  ctrl : Nat
  isen0 : Nat
  pri : Nat
  tgt : Nat
  sense0 : Nat
deriving DecidableEq, Repr

/-- `FSEL_CODE` (10_state.md R27): the 3-bit code of each of the eight pin functions. -/
structure FselCode where
  input : BitVec 3
  output : BitVec 3
  alt0 : BitVec 3
  alt1 : BitVec 3
  alt2 : BitVec 3
  alt3 : BitVec 3
  alt4 : BitVec 3
  alt5 : BitVec 3
deriving DecidableEq, Repr

/-- `PULL_CODE` (10_state.md R29): the 2-bit codes of none, up and down; the fourth value is reserved. -/
structure PullCode where
  none : BitVec 2
  up : BitVec 2
  down : BitVec 2
deriving DecidableEq, Repr

/-- The configuration record `CFG`, fixed for a whole run (R8). -/
structure Config where
  /-- `AW`, the width of a port address in bits. -/
  aw : Nat
  /-- `MAP`. -/
  map : AddrMap
  /-- `NLINE`, the number of interrupt lines. -/
  nline : Nat
  /-- `SETTLE`, the value loaded into the settle timer. -/
  settle : Nat
  fselCode : FselCode
  pullCode : PullCode
  /-- `GRP0_EN`. -/
  grp0En : Word
  /-- `GRP1_EN`. -/
  grp1En : Word
  /-- `EL_MAX`, the highest implemented privilege level. -/
  elMax : BitVec 2
  /-- `IPIN_A`, the first interrupt-source pin of the system. -/
  ipinA : Pin
  /-- `IPIN_B`, the second. -/
  ipinB : Pin
  /-- `GPIN`, the output pin that needs the guarded set. -/
  gpin : Pin
  /-- `SELF_EDGE`, one bit per pin. -/
  selfEdge : Word
  /-- `GPIO_LINE`, the line the GPIO bank raises. -/
  gpioLine : Nat
  /-- `LINE_GROUP`, bit `l` is the interrupt group of line `l`. -/
  lineGroup : LineSet
deriving DecidableEq, Repr

/-- `SETTLE_MIN = 150` core cycles (R6). -/
def Config.settleMin : Nat := 150

/-- The eleven register groups behind the port as (base address, number of 32-bit registers)
(20_memory.md R80). -/
def Config.groups (c : Config) : List (Nat × Nat) :=
  [(c.map.fsel0, 4), (c.map.gpset, 1), (c.map.gpclr, 1), (c.map.ren, 1), (c.map.fen, 1),
   (c.map.pull0, 2), (c.map.ctrl, 1), (c.map.isen0, c.nline / 32), (c.map.pri, c.nline / 4),
   (c.map.tgt, c.nline / 4), (c.map.sense0, c.nline / 16)]

/-- Two register groups share no address. -/
def Config.apart (g h : Nat × Nat) : Bool :=
  decide (g.1 + 4 * g.2 ≤ h.1 ∨ h.1 + 4 * h.2 ≤ g.1)

/-- The constraints of R80 on the map: word-aligned, pairwise disjoint, below `2^AW`. -/
def Config.mapOk (c : Config) : Bool :=
  c.groups.all (fun g => decide (g.1 % 4 = 0) && decide (g.1 + 4 * g.2 ≤ 2 ^ c.aw)) &&
    decide (c.groups.Pairwise (fun g h => Config.apart g h = true))

/-- The eight function codes in the order input, output, alternate-0 to alternate-5. -/
def FselCode.codes (f : FselCode) : List (BitVec 3) :=
  [f.input, f.output, f.alt0, f.alt1, f.alt2, f.alt3, f.alt4, f.alt5]

/-- The three legal pull codes in the order none, up, down. -/
def PullCode.codes (p : PullCode) : List (BitVec 2) := [p.none, p.up, p.down]

/-- The mask has exactly one bit set (R8, of `GRP0_EN` and `GRP1_EN`). -/
def Config.singleBit (w : Word) : Bool := (List.range 32).any (fun i => w == 1#32 <<< i)

/-- The system's three output pins (R6). -/
def Config.outputPins : List Pin := [4, 12, 16]

/-- The constraints that R8 and R80 put on a configuration. -/
def Config.wf (c : Config) : Bool :=
  decide (12 ≤ c.aw) && c.mapOk &&
  decide (c.nline % 32 = 0) && decide (32 ≤ c.nline) && decide (c.nline ≤ 1024) &&
  decide (Config.settleMin ≤ c.settle) &&
  decide c.fselCode.codes.Nodup && decide c.pullCode.codes.Nodup &&
  Config.singleBit c.grp0En && Config.singleBit c.grp1En && decide (c.grp0En ≠ c.grp1En) &&
  decide (c.ipinA ≠ c.ipinB) && decide (c.ipinA ∉ Config.outputPins) &&
  decide (c.ipinB ∉ Config.outputPins) && decide (c.gpin ∈ Config.outputPins) &&
  c.selfEdge.getLsbD c.gpin.toNat && decide (c.gpioLine < c.nline)

/-! ### Free values

Nothing constrains any of these: no proof can see their value. -/

/-- The level of each pin whose function is an alternate function, at the `n`-th step of the run
(10_state.md R43: "the level is not described and is a draw at every step"; log 7). -/
opaque Config.freeAltLevel : Nat → Word

/-- What the `n`-th read of `GPSET` or `GPCLR` returns (R32, R33, 20_memory.md R72; log 8). -/
opaque Config.freeSetClrRead : Nat → Word

/-- Which of pins 4, 12, 16 is `GPIN` in the reset configuration (R8: OPEN, no default; log 2). -/
opaque Config.openGpin : Fin 3

/-- Which of the 29 pins outside 4, 12, 16 is `IPIN_A` in the reset configuration (OPEN; log 2). -/
opaque Config.openIpinA : Fin 29

/-- How far beyond `IPIN_A`, in the cyclic order of those pins, `IPIN_B` lies (OPEN; log 2). -/
opaque Config.openIpinB : Fin 28

/-- `SELF_EDGE` of the pins other than `GPIN` in the reset configuration (OPEN, a draw; log 9). -/
opaque Config.openSelfEdge : Word

/-- `GPIO_LINE` in the reset configuration (OPEN; log 2). -/
opaque Config.openGpioLine : Fin 256

/-- `LINE_GROUP` in the reset configuration (OPEN; log 2). -/
opaque Config.openLineGroup : LineSet

end Sys2Proof
end

