-- ==== Sys2Proof/Machine/Operands.lean ====
section
/-! DEFINITION. Operand forms: the position of each packed field, the address computation
(spec/20_memory.md R82), the words formed from operands (30_encoding.md R105) and the operand value checks
(30_encoding.md R104). -/

namespace Sys2Proof.Machine

/-! ### Addresses (20_memory.md R80, R82) -/

/-- `A_FSEL(n) = A_FSEL0 + 4n`. -/
def aFsel (c : Config) (n : Nat) : Nat := c.map.fsel0 + 4 * n

/-- `A_PULL(n) = A_PULL0 + 4n`. -/
def aPull (c : Config) (n : Nat) : Nat := c.map.pull0 + 4 * n

/-- `A_ISEN(n) = A_ISEN0 + 4n`. -/
def aIsen (c : Config) (n : Nat) : Nat := c.map.isen0 + 4 * n

/-- `A_PRIW(w) = A_PRI + 4w`. -/
def aPriw (c : Config) (w : Nat) : Nat := c.map.pri + 4 * w

/-- `A_TGTW(w) = A_TGT + 4w`. -/
def aTgtw (c : Config) (w : Nat) : Nat := c.map.tgt + 4 * w

/-- `A_SENSE(r) = A_SENSE0 + 4r`. -/
def aSense (c : Config) (r : Nat) : Nat := c.map.sense0 + 4 * r

/-! ### Field positions (10_state.md R25, R26, R28, R36 to R39) -/

/-- The function-select register that owns pin `p`: `p div 10`. -/
def fselIndex (p : Nat) : Nat := p / 10

/-- The lowest bit of pin `p`'s function field: `3k`, `k = p mod 10`. -/
def fselShift (p : Nat) : Nat := 3 * (p % 10)

/-- The pull-control register that owns pin `p`: `p div 16`. -/
def pullIndex (p : Nat) : Nat := p / 16

/-- The lowest bit of pin `p`'s pull field: `2j`, `j = p mod 16`. -/
def pullShift (p : Nat) : Nat := 2 * (p % 16)

/-- `1 << p`. -/
def pinBit (p : Nat) : Word := 1#32 <<< p

/-- `1 << (l mod 32)`. -/
def lineBit (l : Nat) : Word := 1#32 <<< (l % 32)

/-- Byte lane `b` of a word: bits `[8b+7:8b]` (20_memory.md R75). -/
def byteLane (w : Word) (b : Nat) : BitVec 8 := w.extractLsb' (8 * b) 8

/-- `rep4(b) = {b, b, b, b}` (00_scope.md R11). -/
def rep4 (b : BitVec 8) : Word := b ++ b ++ b ++ b

/-- The lane mask of word `w` for the lines `first..last` (41_gic_distributor.md R162):
lane `b` is all ones iff `first <= 4w+b <= last`. -/
def laneMask (first last w : Nat) : Word :=
  let lane (b : Nat) : Word := if first ≤ 4 * w + b ∧ 4 * w + b ≤ last then 0xFF#32 <<< (8 * b) else 0
  lane 0 ||| lane 1 ||| lane 2 ||| lane 3

/-- The set of the lines `lo..hi`. -/
def lineSpan (lo hi : Nat) : LineSet :=
  (BitVec.allOnes 1024 <<< lo) &&& (BitVec.allOnes 1024 >>> (1023 - hi))

/-! ### Operand value checks (30_encoding.md R104) -/

/-- The pull code is one of none, up, down: it is not the reserved fourth code (10_state.md R29). -/
def pullCodeOk (c : Config) (code : BitVec 2) : Bool := c.pullCode.codes.contains code

/-- `first <= last` and `last < NLINE`. -/
def lineRangeOk (c : Config) (first last : Nat) : Bool :=
  decide (first ≤ last) && decide (last < c.nline)

/-- `rfirst <= rlast` and `rlast < NLINE/16`. -/
def senseRangeOk (c : Config) (rfirst rlast : Nat) : Bool :=
  decide (rfirst ≤ rlast) && decide (rlast < c.nline / 16)

/-- `line < NLINE`. -/
def lineOk (c : Config) (l : Nat) : Bool := decide (l < c.nline)

end Sys2Proof.Machine
end

