-- ==== Sys2Proof/Machine/Cfg0.lean ====
section
/-! DEFINITION. The default configuration `CFG0` (spec/00_scope.md R8) with the default map `MAP0`
(20_memory.md R81) and the default codes (10_state.md R27, R29, R40). -/

namespace Sys2Proof.Machine

/-- `MAP0` (R81). -/
def map0 : AddrMap where
  fsel0 := 0xFE200000
  gpset := 0xFE20001C
  gpclr := 0xFE200028
  ren := 0xFE20004C
  fen := 0xFE200058
  pull0 := 0xFE2000E4
  ctrl := 0xFF841000
  isen0 := 0xFF841100
  pri := 0xFF841400
  tgt := 0xFF841800
  sense0 := 0xFF841C00

/-- The default `FSEL_CODE` (10_state.md R27). -/
def fselCode0 : FselCode where
  input := 0b000
  output := 0b001
  alt0 := 0b100
  alt1 := 0b101
  alt2 := 0b110
  alt3 := 0b111
  alt4 := 0b011
  alt5 := 0b010

/-- The default `PULL_CODE` (10_state.md R29). -/
def pullCode0 : PullCode where
  none := 0b00
  up := 0b01
  down := 0b10

/-- The 29 pins that are not system output pins (R8: `IPIN_A`, `IPIN_B` are neither of 4, 12, 16). -/
def sourcePins : List Pin :=
  [0, 1, 2, 3, 5, 6, 7, 8, 9, 10, 11, 13, 14, 15, 17, 18, 19, 20, 21, 22, 23, 24, 25, 26, 27, 28,
   29, 30, 31]

/-- `GPIN` of the reset configuration: one of 4, 12, 16, which one is open (log 2). -/
def gpin0 : Pin := Config.outputPins.getD Config.openGpin.val 4

/-- `CFG0`: the defaults of R8. The parameters to which R8 gives no default are open constants
(log 2, log 9), of which only the constraints of R8 are known. -/
def cfg0 : Config where
  aw := 32
  map := map0
  nline := 256
  settle := 150
  fselCode := fselCode0
  pullCode := pullCode0
  grp0En := 0x1
  grp1En := 0x2
  elMax := 3
  ipinA := sourcePins.getD Config.openIpinA.val 0
  ipinB := sourcePins.getD ((Config.openIpinA.val + 1 + Config.openIpinB.val) % 29) 0
  gpin := gpin0
  selfEdge := Config.openSelfEdge ||| (1#32 <<< gpin0.toNat)
  gpioLine := Config.openGpioLine.val
  lineGroup := Config.openLineGroup

end Sys2Proof.Machine
end

