-- ==== Sys2Proof/Machine/State.lean ====
section
/-! DEFINITION. The state of PMGC (spec/10_state.md), the agents' moves, the model faults
(60_exceptions.md R191) and the state after reset (R53, R220). -/

namespace Sys2Proof.Machine

/-- `mode` (R21). -/
inductive Mode where
  | idle
  | busy
deriving DecidableEq, Repr

/-- One port event of the access history (R52, 00_scope.md R12). -/
inductive Event where
  | rd (addr : Nat) (value : Word)
  | wr (addr : Nat) (value : Word)
deriving DecidableEq, Repr

/-- The values that the registers whose reset value is unspecified take at a reset (R53: "some 32-bit
value (or bit vector), chosen freely at reset, that then stays put until written"). -/
structure ResetDraw where
  fsel : List Word
  pull : List Word
  ren : Word
  fen : Word
  out : Word
  eds : Word
  priw : List Word
  tgtw : List Word
  sense : List Word
  tReg : Word
  cur : Descriptor
  ustep : Nat
deriving DecidableEq, Repr

/-- One step of one agent (R22), or of an input. `State.moves` lists the steps to come (log 5, log 6). -/
inductive Move where
  /-- The clock: one core-clock cycle (R46). -/
  | clock
  /-- The pad agent: the pad inputs become `v` (R49). -/
  | pad (v : Word)
  /-- The core's privilege level becomes `v` (R48). -/
  | elIn (v : BitVec 2)
  /-- The pending inputs of the other lines become `v` (60_exceptions.md R195). -/
  | lines (v : LineSet)
  /-- The host presents a descriptor (30_encoding.md R101). -/
  | present (C : Descriptor)
  /-- The sequencer: one micro-operation (00_scope.md R13). -/
  | seq
  /-- The host reads a target register by its own path (70_reset_and_hazards.md R232). -/
  | hostRead (addr : Nat)
  /-- `rst` is asserted; `u` are the values of the unspecified registers (R220, R222). -/
  | rst (u : ResetDraw)
deriving DecidableEq, Repr

/-- The state of the machine. Names as in spec/10_state.md; INVENTORY.md lists each with its rule. -/
@[ext]
structure State where
  /-- The configuration record `CFG` (00_scope.md R8); no step changes it. -/
  cfg : Config
  /-- `FSEL[0..3]` (R25). -/
  fsel : List Word
  /-- `PULL[0..1]` (R28). -/
  pull : List Word
  /-- `REN` (R30). -/
  ren : Word
  /-- `FEN` (R31). -/
  fen : Word
  /-- `PRIW[w]` (R36). -/
  priw : List Word
  /-- `TGTW[w]` (R37). -/
  tgtw : List Word
  /-- `SENSE[r]` (R38). -/
  sense : List Word
  /-- `ISEN[n]` (R39). -/
  isen : List Word
  /-- `CTRL` (R40). -/
  ctrl : Word
  /-- `OUT`, the hidden output latch (R34). -/
  out : Word
  /-- `EDS`, the hidden edge-detect latch (R42). -/
  eds : Word
  /-- `T`, the sequencer's temporary register (R20). -/
  tReg : Word
  /-- `mode` (R21). -/
  mode : Mode
  /-- `cur`, the command latch (R20, R21). -/
  cur : Descriptor
  /-- `ustep`, the index of the next micro-operation (R21). -/
  ustep : Nat
  /-- `settle`, the settle timer (R46). -/
  settle : Nat
  /-- The output `done` (30_encoding.md R101, R113). -/
  done : Bool
  /-- `fdone[p]` (R50). -/
  fdone : Word
  /-- `pdone[p]` (R50). -/
  pdone : Word
  /-- `lp[l]` (R51). -/
  lp : LineSet
  /-- `lt[l]` (R51). -/
  lt : LineSet
  /-- `ls[l]` (R51). -/
  ls : LineSet
  /-- `hist`, the access history, oldest first (R52). -/
  hist : List Event
  /-- `el_in` (R48), an input. -/
  elIn : BitVec 2
  /-- `pad_in` (R49), an input. -/
  padIn : Word
  /-- `pending(l)` of the lines other peripherals raise (60_exceptions.md R195), an input. -/
  extPending : LineSet
  /-- Model's own: the descriptors the host still has to present, in order (70_reset_and_hazards.md R233). -/
  cmds : List Descriptor
  /-- Model's own: the agents' steps to come, in order (log 5, log 6). -/
  moves : List Move
  /-- Model's own: what the host's own read path returned last (log 13). -/
  hostRd : Word
  /-- Model's own: selects the free value of `Config.freeAltLevel` (log 7). -/
  levelDraws : Nat
  /-- Model's own: selects the free value of `Config.freeSetClrRead` (log 8). -/
  readDraws : Nat
deriving DecidableEq, Repr

/-- The model faults. The first five are those of 60_exceptions.md R191, each with the offending descriptor
`cur` and the state in which the run stopped (log 11). The hardware signals none of them (R190). -/
inductive Fault where
  /-- Id 1: the descriptor matches no row of the opcode table (30_encoding.md R108). Raised at acceptance by
  decode, before any micro-operation. Safe: the run stops where the document gives no behaviour. -/
  | illegalCommand (cur : Descriptor) (stopped : State)
  /-- Id 2: an operand value check of R104 fails (30_encoding.md R109). Raised at acceptance of `CFGP`, `PRI0`,
  `TGT`, `SNS`, `ENL`, before any micro-operation. Safe, for the same reason. -/
  | illegalOperand (cur : Descriptor) (stopped : State)
  /-- Id 3: `fdone[p] = 0` or `pdone[p] = 0` (40_gpio_pinmux.md R135, R136, R139). Raised at acceptance of `ENR`,
  `ENF`, `SETG`, before any access. Safe: "hardware-undefined behavior". -/
  | pinNotConfigured (cur : Descriptor) (stopped : State)
  /-- Id 4: `lp[l]`, `lt[l]` or `ls[l]` is 0 (41_gic_distributor.md R168). Raised at acceptance of `ENL`, before
  any access. Safe: "hardware-undefined behavior". -/
  | lineNotConfigured (cur : Descriptor) (stopped : State)
  /-- Id 5: the word `SETG` read from `REN` has bit `p` clear (40_gpio_pinmux.md R139). Raised after that one read
  and before any write. Safe. -/
  | guardedSetNotArmed (cur : Descriptor) (stopped : State)
  /-- A port access to an address that holds no register (20_memory.md R79). Raised by the port; no command that
  passes R104 reaches it under a map that meets R80 (log 12). Safe. -/
  | invalidAddress (addr : Nat) (stopped : State)
deriving DecidableEq, Repr

/-- The number of a model fault in the table of R191; `invalidAddress` has none. -/
def Fault.id : Fault → Option Nat
  | .illegalCommand _ _ => some 1
  | .illegalOperand _ _ => some 2
  | .pinNotConfigured _ _ => some 3
  | .lineNotConfigured _ _ => some 4
  | .guardedSetNotArmed _ _ => some 5
  | .invalidAddress _ _ => none

/-- Why the model gives a step no meaning. -/
inductive Refusal where
  /-- Raised by `exec` for a command that has no meaning yet. Safe. -/
  | notModelled (mnemonic : String)
  /-- Raised when a descriptor is presented while `mode = Busy`: a host duty of 70_reset_and_hazards.md R232 (3)
  (93 U18: refuse; log 18). Safe. -/
  | commandPortBusy
  /-- Raised when the host reads, by its own path, an address that holds no register (93 U7: refuse; log 18).
  Safe. -/
  | foreignAccess (addr : Nat)
deriving DecidableEq, Repr

/-! ### Reset -/

/-- The first `n` registers of a draw, short draws filled up with 0. -/
def fitTo (n : Nat) (l : List Word) : List Word := (l ++ List.replicate n 0).take n

/-- All unspecified registers 0: the value that the model names for `State.reset` (log 3). -/
def ResetDraw.zero : ResetDraw where
  fsel := []
  pull := []
  ren := 0
  fen := 0
  out := 0
  eds := 0
  priw := []
  tgtw := []
  sense := []
  tReg := 0
  cur := 0
  ustep := 0

/-- The reset state of R53 and R220 under configuration `c`, the unspecified registers at `u`. The inputs and
the model's own fields are at 0 and empty. -/
def State.resetWith (c : Config) (u : ResetDraw) : State where
  cfg := c
  fsel := fitTo 4 u.fsel
  pull := fitTo 2 u.pull
  ren := u.ren
  fen := u.fen
  priw := fitTo (c.nline / 4) u.priw
  tgtw := fitTo (c.nline / 4) u.tgtw
  sense := fitTo (c.nline / 16) u.sense
  isen := List.replicate (c.nline / 32) 0
  ctrl := 0
  out := u.out
  eds := u.eds
  tReg := u.tReg
  mode := .idle
  cur := u.cur
  ustep := u.ustep
  settle := 0
  done := false
  fdone := 0
  pdone := 0
  lp := 0
  lt := 0
  ls := 0
  hist := []
  elIn := 0
  padIn := 0
  extPending := 0
  cmds := []
  moves := []
  hostRd := 0
  levelDraws := 0
  readDraws := 0

/-- The machine right after reset: configuration `CFG0`, every register to which the spec gives no reset value
at 0 (log 3). -/
def State.reset : State := State.resetWith cfg0 ResetDraw.zero

end Sys2Proof.Machine
end

