-- ==== Sys2Proof/Machine/Flags.lean ====
section
/-! DEFINITION. The tracking flags: PMGC's only flag-like state (spec/10_state.md R23, R50, R51). There are no
condition codes. -/

namespace Sys2Proof.Machine

/-- An effect attached to a micro-operation (30_encoding.md R112): `LoadSettle` or `mark X[i]` (00_scope.md R12). -/
inductive After where
  | loadSettle
  | markFdone (p : Nat)
  | markPdone (p : Nat)
  /-- `lp[l]` for `lo <= l <= hi`. -/
  | markLp (lo hi : Nat)
  /-- `lt[l]` for `lo <= l <= hi`. -/
  | markLt (lo hi : Nat)
  /-- `ls[l]` for `lo <= l <= hi`. -/
  | markLs (lo hi : Nat)
deriving DecidableEq, Repr

/-- Perform an attached effect. -/
def applyAfter (s : State) : After → State
  | .loadSettle => { s with settle := s.cfg.settle }
  | .markFdone p => { s with fdone := s.fdone ||| pinBit p }
  | .markPdone p => { s with pdone := s.pdone ||| pinBit p }
  | .markLp lo hi => { s with lp := s.lp ||| lineSpan lo hi }
  | .markLt lo hi => { s with lt := s.lt ||| lineSpan lo hi }
  | .markLs lo hi => { s with ls := s.ls ||| lineSpan lo hi }

/-- Perform a list of attached effects, in order. -/
def applyAfters (s : State) (as : List After) : State := as.foldl applyAfter s

/-- `fdone[p] = 1` and `pdone[p] = 1`: the precondition of `ENR`, `ENF`, `SETG` (40_gpio_pinmux.md R135). -/
def pinReady (s : State) (p : Nat) : Bool := s.fdone.getLsbD p && s.pdone.getLsbD p

/-- `lp[l] = lt[l] = ls[l] = 1`: the precondition of `ENL` (41_gic_distributor.md R168). -/
def lineReady (s : State) (l : Nat) : Bool := s.lp.getLsbD l && s.lt.getLsbD l && s.ls.getLsbD l

end Sys2Proof.Machine
end

