-- ==== Sys2Proof/Machine/Ops.lean ====
section
/-! DEFINITION. The shared operations: the register port (spec/20_memory.md), pin levels and the edge step
(10_state.md R43, R44), the clock (R46), raising an `Undefined` (60_exceptions.md R191), acceptance
(30_encoding.md R101), micro-operations (00_scope.md R13) and running a command (30_encoding.md R112, R113).

PMGC takes no exception and returns from none (60_exceptions.md R190, R198, R199): it has no vector, no saved
state and no mode of its own. What other machines do by taking an exception is here `raiseUndefined`. -/

namespace Sys2Proof.Machine

/-- What one step answers. -/
abbrev Result := Host.Outcome State Fault Refusal

/-! ### Pins (10_state.md R26, R43, R44) -/

/-- The function-select field of pin `p` (R26). -/
def fnCode (s : State) (p : Nat) : BitVec 3 :=
  (regAtIndex s.fsel (fselIndex p)).extractLsb' (fselShift p) 3

/-- `level(p)` (R43): the output latch when the function is output, the pad when it is input, a free value at
every step for an alternate function (log 7). -/
def level (s : State) (p : Nat) : Bool :=
  if fnCode s p = s.cfg.fselCode.output then s.out.getLsbD p
  else if fnCode s p = s.cfg.fselCode.input then s.padIn.getLsbD p
  else (Config.freeAltLevel s.levelDraws).getLsbD p

/-- The change of pin `p` from `s` to `s'` comes from the pin's own output latch: its function is output and
`OUT[p]` changed, which only a `GPSET` or `GPCLR` write does (R34, R44). -/
def ownLatchChange (s s' : State) (p : Nat) : Bool :=
  (fnCode s p == s.cfg.fselCode.output) && (s.out.getLsbD p != s'.out.getLsbD p)

/-- R44: the step from `s` to `s'` latches an edge on pin `p`. The detector enables are those held as the step
begins (log 10). -/
def latchesEdge (s s' : State) (p : Nat) : Bool :=
  ((s.ren.getLsbD p && (!level s p && level s' p)) || (s.fen.getLsbD p && (level s p && !level s' p))) &&
    (!ownLatchChange s s' p || s.cfg.selfEdge.getLsbD p)

/-- The word whose bit `p < n` is `f p`. -/
def wordOfBits (f : Nat → Bool) : Nat → Word
  | 0 => 0
  | n + 1 => wordOfBits f n ||| (if f n then 1#32 <<< n else 0)

/-- Complete one agent step that took `s` to `s'`: alternate-function levels are drawn anew (R43) and every pin
whose level changed is given to the edge detector (R44). -/
def commit (s s' : State) : State :=
  { s' with
    levelDraws := s.levelDraws + 1
    eds := s'.eds ||| wordOfBits (latchesEdge s { s' with levelDraws := s.levelDraws + 1 }) 32 }

/-! ### The register port (20_memory.md R70 to R80) -/

/-- A register behind the port (10_state.md R24). -/
inductive Reg where
  | fsel (n : Nat)
  | gpset
  | gpclr
  | ren
  | fen
  | pull (n : Nat)
  | ctrl
  | isen (n : Nat)
  | priw (w : Nat)
  | tgtw (w : Nat)
  | sense (r : Nat)
deriving DecidableEq, Repr

/-- The index of address `a` in an array of `count` words at `base`. -/
def inArray (base count a : Nat) : Option Nat :=
  if base ≤ a ∧ a < base + 4 * count ∧ (a - base) % 4 = 0 then some ((a - base) / 4) else none

/-- The register at address `a` (R80); none where the map has no register or `a` is not word-aligned. -/
def regAt (c : Config) (a : Nat) : Option Reg :=
  match inArray c.map.fsel0 4 a with
  | some n => some (.fsel n)
  | none =>
  match inArray c.map.gpset 1 a with
  | some _ => some .gpset
  | none =>
  match inArray c.map.gpclr 1 a with
  | some _ => some .gpclr
  | none =>
  match inArray c.map.ren 1 a with
  | some _ => some .ren
  | none =>
  match inArray c.map.fen 1 a with
  | some _ => some .fen
  | none =>
  match inArray c.map.pull0 2 a with
  | some n => some (.pull n)
  | none =>
  match inArray c.map.ctrl 1 a with
  | some _ => some .ctrl
  | none =>
  match inArray c.map.isen0 (c.nline / 32) a with
  | some n => some (.isen n)
  | none =>
  match inArray c.map.pri (c.nline / 4) a with
  | some w => some (.priw w)
  | none =>
  match inArray c.map.tgt (c.nline / 4) a with
  | some w => some (.tgtw w)
  | none =>
  match inArray c.map.sense0 (c.nline / 16) a with
  | some r => some (.sense r)
  | none => none

/-- The word a register stores; `GPSET` and `GPCLR` store none (10_state.md R32, R33). -/
def stored (s : State) : Reg → Option Word
  | .fsel n => some (regAtIndex s.fsel n)
  | .gpset => none
  | .gpclr => none
  | .ren => some s.ren
  | .fen => some s.fen
  | .pull n => some (regAtIndex s.pull n)
  | .ctrl => some s.ctrl
  | .isen n => some (regAtIndex s.isen n)
  | .priw w => some (regAtIndex s.priw w)
  | .tgtw w => some (regAtIndex s.tgtw w)
  | .sense r => some (regAtIndex s.sense r)

/-- What a read of register `r` returns (R72): the stored word, or a free value for `GPSET` and `GPCLR` (log 8). -/
def regRead (s : State) (r : Reg) : Word := (stored s r).getD (Config.freeSetClrRead s.readDraws)

/-- The number of free values a read of register `r` uses up. -/
def drawsOf (s : State) (r : Reg) : Nat := if (stored s r).isNone then 1 else 0

/-- The effect of writing `v` to register `r` (R73): plain storage takes the whole word, `ISEN` and `GPSET` OR it
in, `GPCLR` clears. -/
def regWrite (s : State) (v : Word) : Reg → State
  | .fsel n => { s with fsel := s.fsel.set n v }
  | .gpset => { s with out := s.out ||| v }
  | .gpclr => { s with out := s.out &&& ~~~v }
  | .ren => { s with ren := v }
  | .fen => { s with fen := v }
  | .pull n => { s with pull := s.pull.set n v }
  | .ctrl => { s with ctrl := v }
  | .isen n => { s with isen := s.isen.set n (regAtIndex s.isen n ||| v) }
  | .priw w => { s with priw := s.priw.set w v }
  | .tgtw w => { s with tgtw := s.tgtw.set w v }
  | .sense r => { s with sense := s.sense.set r v }

/-- `T <- MemRead(a, 4)` (00_scope.md R12, R72): the value goes to `T` and the event to the history. -/
def memRead (a : Nat) (s : State) : Result :=
  match regAt s.cfg a with
  | some r => .next { s with
      tReg := regRead s r
      hist := s.hist ++ [.rd a (regRead s r)]
      readDraws := s.readDraws + drawsOf s r }
  | none => .fault (.invalidAddress a s)

/-- `MemWrite(a, 4, v)` (00_scope.md R12, R73): the register effect, and the event to the history. -/
def memWrite (a : Nat) (v : Word) (s : State) : Result :=
  match regAt s.cfg a with
  | some r => .next { regWrite s v r with hist := s.hist ++ [.wr a v] }
  | none => .fault (.invalidAddress a s)

/-- The byte of the register space at byte address `a`, in the lanes of R75; none where no register stores one. -/
def byteAt (s : State) (a : Nat) : Option (BitVec 8) :=
  ((regAt s.cfg (4 * (a / 4))).bind (stored s)).map fun w => byteLane w (a % 4)

/-! ### The clock (10_state.md R22, R46) -/

/-- One core-clock cycle: the settle timer counts down and stops at 0; a `done` pulse ends (log 15). -/
def tick (s : State) : State := commit s { s with settle := s.settle - 1, done := false }

/-- `n` core-clock cycles. -/
def ticks : Nat → State → State
  | 0, s => s
  | n + 1, s => ticks n (tick s)

/-! ### Undefined situations (60_exceptions.md R191, R192) -/

/-- The kinds of `raise Undefined(kind)`, R191. -/
inductive UndefinedKind where
  | illegalCommand
  | illegalOperand
  | pinNotConfigured
  | lineNotConfigured
  | guardedSetNotArmed
deriving DecidableEq, Repr

/-- `raise Undefined(kind)`: the run stops in a faulted state; the fault records the offending descriptor, and the
state as it then is. -/
def raiseUndefined (kind : UndefinedKind) (cur : Descriptor) (s : State) : Result :=
  match kind with
  | .illegalCommand => .fault (.illegalCommand cur s)
  | .illegalOperand => .fault (.illegalOperand cur s)
  | .pinNotConfigured => .fault (.pinNotConfigured cur s)
  | .lineNotConfigured => .fault (.lineNotConfigured cur s)
  | .guardedSetNotArmed => .fault (.guardedSetNotArmed cur s)

/-! ### Micro-operations (00_scope.md R13, 30_encoding.md R112) -/

/-- The value a `MemWrite` writes: a constant of the command, or `(T & ~clear) | put` of a read-modify-write. -/
inductive WriteValue where
  | const (v : Word)
  | modify (clear put : Word)
deriving DecidableEq, Repr

/-- The value to write when `T` holds `t`. -/
def WriteValue.eval (t : Word) : WriteValue → Word
  | .const v => v
  | .modify clear put => (t &&& ~~~clear) ||| put

/-- What a micro-operation does: one of `WaitSettle`, `MemRead`, `MemWrite` (R13). -/
inductive Action where
  | waitSettle
  | read (a : Nat)
  | write (a : Nat) (v : WriteValue)
deriving DecidableEq, Repr

/-- A micro-operation with what is attached to it (R112): the check of the word just read that `SETG` makes
(40_gpio_pinmux.md R139 u1) and the effects on timer and tracking flags. -/
structure Uop where
  action : Action
  needBit : Option Nat := none
  after : List After := []
deriving DecidableEq, Repr

/-- Perform the access of a micro-operation. `WaitSettle` itself does nothing once it is enabled. -/
def perform (act : Action) (s : State) : Result :=
  match act with
  | .waitSettle => .next s
  | .read a => memRead a s
  | .write a v => memWrite a (v.eval s.tReg) s

/-- The check attached to a read: `if T[p] = 0 then raise Undefined(GuardedSetNotArmed)`. -/
def needOk (need : Option Nat) (s : State) : Bool :=
  match need with
  | none => true
  | some p => s.tReg.getLsbD p

/-- The end of a micro-operation: `ustep <- ustep + 1`; after the last one `mode <- Idle` and `done` pulses (R113). -/
def advance (last : Bool) (s : State) : State :=
  { s with ustep := s.ustep + 1, mode := if last then .idle else s.mode, done := last }

/-- One enabled micro-operation as one sequencer step: access, attached check, attached effects, `ustep`. -/
def uopStep (last : Bool) (u : Uop) (s : State) : Result :=
  match perform u.action s with
  | .next s1 =>
    if needOk u.needBit s1 then .next (commit s (advance last (applyAfters s1 u.after)))
    else raiseUndefined .guardedSetNotArmed s.cur s1
  | .fault f => .fault f
  | .refused r => .refused r

/-- The micro-operation can be performed: `WaitSettle` only when `settle = 0` (10_state.md R46). -/
def uopEnabled (u : Uop) (s : State) : Bool :=
  match u.action with
  | .waitSettle => s.settle == 0
  | .read _ => true
  | .write _ _ => true

/-! ### Commands -/

/-- What a command's rule gives: the outcome of the operand value checks (R104), the preconditions checked at
acceptance, and the expansion into micro-operations (R112). -/
structure Command where
  operandsOk : Bool
  needPin : Option Nat := none
  needLine : Option Nat := none
  uops : List Uop
deriving DecidableEq, Repr

/-- The precondition on a pin's tracking flags, if there is one. -/
def Command.pinOk (k : Command) (s : State) : Bool :=
  match k.needPin with
  | none => true
  | some p => pinReady s p

/-- The precondition on a line's tracking flags, if there is one. -/
def Command.lineOk (k : Command) (s : State) : Bool :=
  match k.needLine with
  | none => true
  | some l => lineReady s l

/-- Acceptance of descriptor `C`, which stands for command `k` (30_encoding.md R101, checks in the order of
60_exceptions.md R192): `cur <- C`, `ustep <- 0`, `mode <- Busy` in one step. A descriptor is not accepted while
`Busy` (log 18). -/
def accept (C : Descriptor) (k : Command) (s : State) : Result :=
  match s.mode with
  | .busy => .refused .commandPortBusy
  | .idle =>
    if !k.operandsOk then raiseUndefined .illegalOperand C s
    else if !k.pinOk s then raiseUndefined .pinNotConfigured C s
    else if !k.lineOk s then raiseUndefined .lineNotConfigured C s
    else .next (commit s { s with cur := C, ustep := 0, mode := .busy, done := false })

/-- The clock cycles that lift a hold: none unless `u` is a `WaitSettle`, else as many as `settle` counts (R46). -/
def liftHold (u : Uop) (s : State) : State :=
  match u.action with
  | .waitSettle => ticks s.settle s
  | .read _ => s
  | .write _ _ => s

/-- Perform micro-operations one after another to the end of the expansion, no other agent moving but the clock
that lifts each hold (log 5). -/
def runUops : List Uop → State → Result
  | [], s => .next s
  | u :: us, s =>
    match uopStep us.isEmpty u (liftHold u s) with
    | .next s1 => runUops us s1
    | .fault f => .fault f
    | .refused r => .refused r

/-- A whole command: acceptance of its descriptor, then its expansion to completion (R101, R112, R113). -/
def runCommand (C : Descriptor) (k : Command) (s : State) : Result :=
  match accept C k s with
  | .next s1 => runUops k.uops s1
  | .fault f => .fault f
  | .refused r => .refused r

end Sys2Proof.Machine
end

