-- ==== Sys2Proof/Machine/Distributor.lean ====
section
/-! DEFINITION. The interrupt-distributor commands (spec/41_gic_distributor.md): for each its rule's expansion and
preconditions, and its meaning. -/

namespace Sys2Proof.Machine

/-! ### RangeWrite (R162) -/

/-- The micro-operations of `RangeWrite` for word `w` of a byte array at `base`: a word wholly inside the range is
written blind, any other is read and the lanes inside the range replaced. `mark` gets the lines of this word. -/
def rangeWord (base first last : Nat) (v : Word) (mark : Nat → Nat → After) (w : Nat) : List Uop :=
  let m := laneMask first last w
  let marks := [mark (max first (4 * w)) (min last (4 * w + 3))]
  if m = BitVec.allOnes 32 then
    [{ action := .write (base + 4 * w) (.const v), after := marks }]
  else
    [{ action := .read (base + 4 * w) },
     { action := .write (base + 4 * w) (.modify m (v &&& m)), after := marks }]

/-- `RangeWrite(base, first, last, v)`: the words `first div 4` to `last div 4`, ascending. -/
def rangeWrite (base first last : Nat) (v : Word) (mark : Nat → Nat → After) : List Uop :=
  (List.range' (first / 4) (last / 4 + 1 - first / 4)).flatMap (rangeWord base first last v mark)

/-! ### PRI0 (R161), TGT (R163) -/

/-- R161: `RangeWrite(A_PRI, first, last, 0)`, each line marked `lp` in the step of the write that covers it. -/
def pri0Command (c : Config) (first last : BitVec 10) : Command where
  operandsOk := lineRangeOk c first.toNat last.toNat
  uops := rangeWrite c.map.pri first.toNat last.toNat 0 .markLp

/-- `PRI0 first, last`. -/
def execPri0 (first last : BitVec 10) (s : State) : Result :=
  runCommand (encode (.pri0 first last)) (pri0Command s.cfg first last) s

/-- R163: `RangeWrite(A_TGT, first, last, rep4(mask))`, each line marked `lt`. -/
def tgtCommand (c : Config) (first last : BitVec 10) (mask : BitVec 8) : Command where
  operandsOk := lineRangeOk c first.toNat last.toNat
  uops := rangeWrite c.map.tgt first.toNat last.toNat (rep4 mask) .markLt

/-- `TGT first, last, mask`. -/
def execTgt (first last : BitVec 10) (mask : BitVec 8) (s : State) : Result :=
  runCommand (encode (.tgt first last mask)) (tgtCommand s.cfg first last mask) s

/-! ### SNS (R166) -/

/-- R166: one blind write of the pattern per register, ascending, each marking `ls` of its 16 lines. -/
def snsCommand (c : Config) (rfirst rlast : BitVec 6) (pattern : Word) : Command where
  operandsOk := senseRangeOk c rfirst.toNat rlast.toNat
  uops := (List.range' rfirst.toNat (rlast.toNat + 1 - rfirst.toNat)).map fun r =>
    { action := .write (aSense c r) (.const pattern), after := [.markLs (16 * r) (16 * r + 15)] }

/-- `SNS rfirst, rlast, pattern`. -/
def execSns (rfirst rlast : BitVec 6) (pattern : Word) (s : State) : Result :=
  runCommand (encode (.sns rfirst rlast pattern)) (snsCommand s.cfg rfirst rlast pattern) s

/-! ### ENL (R168) -/

/-- R168: read `ISEN[l div 32]`, write it with bit `l mod 32` set; `lp[l]`, `lt[l]`, `ls[l]` must be set. -/
def enlCommand (c : Config) (l : BitVec 10) : Command where
  operandsOk := lineOk c l.toNat
  needLine := some l.toNat
  uops :=
    [{ action := .read (aIsen c (l.toNat / 32)) },
     { action := .write (aIsen c (l.toNat / 32)) (.modify 0 (lineBit l.toNat)) }]

/-- `ENL l`. -/
def execEnl (l : BitVec 10) (s : State) : Result := runCommand (encode (.enl l)) (enlCommand s.cfg l) s

/-! ### FWD (R170) -/

/-- The value `FWD` writes: both group enables at the highest level, group 1 only at any other (R170). -/
def forwardValue (c : Config) (el : BitVec 2) : Word :=
  if el = c.elMax then c.grp0En ||| c.grp1En else c.grp1En

/-- R170: one blind write of `CTRL`; `el` is the level `el_in` sampled in the step of that write. -/
def fwdCommand (c : Config) (el : BitVec 2) : Command where
  operandsOk := true
  uops := [{ action := .write c.map.ctrl (.const (forwardValue c el)) }]

/-- `FWD`. -/
def execFwd (s : State) : Result := runCommand (encode .fwd) (fwdCommand s.cfg s.elIn) s

end Sys2Proof.Machine
end

