-- ==== Sys2Proof/Machine/Gpio.lean ====
section
/-! DEFINITION. The GPIO pin-multiplexer commands (spec/40_gpio_pinmux.md): for each its rule's expansion and
preconditions, and its meaning. -/

namespace Sys2Proof.Machine

/-! ### CFGF (R131) -/

/-- R131: `u0` reads the owning function-select register, `u1` writes it with the field replaced, loads the settle
timer and marks `fdone[p]`. No precondition. -/
def cfgfCommand (c : Config) (p : Pin) (f : BitVec 3) : Command where
  operandsOk := true
  uops :=
    [{ action := .read (aFsel c (fselIndex p.toNat)) },
     { action := .write (aFsel c (fselIndex p.toNat))
         (.modify (0b111#32 <<< fselShift p.toNat) (f.zeroExtend 32 <<< fselShift p.toNat)),
       after := [.loadSettle, .markFdone p.toNat] }]

/-- `CFGF p, f`. -/
def execCfgf (p : Pin) (f : BitVec 3) (s : State) : Result :=
  runCommand (encode (.cfgf p f)) (cfgfCommand s.cfg p f) s

/-! ### CFGP (R133) -/

/-- R133: wait, read the owning pull-control register, write it with the field replaced and load the timer, wait
again and mark `pdone[p]`. The reserved pull code is an illegal operand. -/
def cfgpCommand (c : Config) (p : Pin) (code : BitVec 2) : Command where
  operandsOk := pullCodeOk c code
  uops :=
    [{ action := .waitSettle },
     { action := .read (aPull c (pullIndex p.toNat)) },
     { action := .write (aPull c (pullIndex p.toNat))
         (.modify (0b11#32 <<< pullShift p.toNat) (code.zeroExtend 32 <<< pullShift p.toNat)),
       after := [.loadSettle] },
     { action := .waitSettle, after := [.markPdone p.toNat] }]

/-- `CFGP p, c`. -/
def execCfgp (p : Pin) (code : BitVec 2) (s : State) : Result :=
  runCommand (encode (.cfgp p code)) (cfgpCommand s.cfg p code) s

/-! ### ENR, ENF (R135, R136) -/

/-- R135: wait, read `REN`, write it with bit `p` set; `fdone[p]` and `pdone[p]` must be set. -/
def enrCommand (c : Config) (p : Pin) : Command where
  operandsOk := true
  needPin := some p.toNat
  uops :=
    [{ action := .waitSettle },
     { action := .read c.map.ren },
     { action := .write c.map.ren (.modify 0 (pinBit p.toNat)) }]

/-- `ENR p`. -/
def execEnr (p : Pin) (s : State) : Result := runCommand (encode (.enr p)) (enrCommand s.cfg p) s

/-- R136: the same with `FEN`. -/
def enfCommand (c : Config) (p : Pin) : Command where
  operandsOk := true
  needPin := some p.toNat
  uops :=
    [{ action := .waitSettle },
     { action := .read c.map.fen },
     { action := .write c.map.fen (.modify 0 (pinBit p.toNat)) }]

/-- `ENF p`. -/
def execEnf (p : Pin) (s : State) : Result := runCommand (encode (.enf p)) (enfCommand s.cfg p) s

/-! ### SET, CLR (R137, R138) -/

/-- R137: one write of the pin's bit to `GPSET`. -/
def setCommand (c : Config) (p : Pin) : Command where
  operandsOk := true
  uops := [{ action := .write c.map.gpset (.const (pinBit p.toNat)) }]

/-- `SET p`. -/
def execSet (p : Pin) (s : State) : Result := runCommand (encode (.set p)) (setCommand s.cfg p) s

/-- R138: one write of the pin's bit to `GPCLR`. -/
def clrCommand (c : Config) (p : Pin) : Command where
  operandsOk := true
  uops := [{ action := .write c.map.gpclr (.const (pinBit p.toNat)) }]

/-- `CLR p`. -/
def execClr (p : Pin) (s : State) : Result := runCommand (encode (.clr p)) (clrCommand s.cfg p) s

/-! ### SETG (R139) -/

/-- R139, `u0` to `u5`: wait; read `REN` and check that bit `p` is set; disable the detector; set the output;
read `REN`; enable the detector. -/
def setgCommand (c : Config) (p : Pin) : Command where
  operandsOk := true
  needPin := some p.toNat
  uops :=
    [{ action := .waitSettle },
     { action := .read c.map.ren, needBit := some p.toNat },
     { action := .write c.map.ren (.modify (pinBit p.toNat) 0) },
     { action := .write c.map.gpset (.const (pinBit p.toNat)) },
     { action := .read c.map.ren },
     { action := .write c.map.ren (.modify 0 (pinBit p.toNat)) }]

/-- `SETG p`. -/
def execSetg (p : Pin) (s : State) : Result := runCommand (encode (.setg p)) (setgCommand s.cfg p) s

end Sys2Proof.Machine
end

