-- ==== Sys2Proof/Machine/Commands.lean ====
section
/-! DEFINITION. The command a decoded descriptor stands for, and the single steps of host and sequencer on it
(spec/30_encoding.md R101, R112, R113; spec/10_state.md R21). -/

namespace Sys2Proof.Machine

/-- The command of `i` under configuration `c` and privilege level `el`: the expansion depends on nothing else
(R112). -/
def commandOf (c : Config) (el : BitVec 2) : Instr → Command
  | .cfgf p f => cfgfCommand c p f
  | .cfgp p code => cfgpCommand c p code
  | .enr p => enrCommand c p
  | .enf p => enfCommand c p
  | .set p => setCommand c p
  | .clr p => clrCommand c p
  | .setg p => setgCommand c p
  | .pri0 first last => pri0Command c first last
  | .tgt first last mask => tgtCommand c first last mask
  | .sns rfirst rlast pattern => snsCommand c rfirst rlast pattern
  | .enl l => enlCommand c l
  | .fwd => fwdCommand c el

/-- `uops(M, o)` (R112). -/
def uopsOf (c : Config) (el : BitVec 2) (i : Instr) : List Uop := (commandOf c el i).uops

/-- The host presents descriptor `C` (R101): refused while `Busy`, an illegal command faults (R108), any other is
accepted or faults by its checks. No micro-operation is performed in this step. -/
def presentStep (C : Descriptor) (s : State) : Result :=
  match s.mode with
  | .busy => .refused .commandPortBusy
  | .idle =>
    match decode C with
    | .illegalCommand => raiseUndefined .illegalCommand C s
    | .ok i => accept C (commandOf s.cfg s.elIn i) s

/-- The micro-operation the sequencer performs next: number `ustep` of the expansion of `cur` (R21), and whether
it is the last. -/
def nextUop (s : State) : Option (Uop × Bool) :=
  match decode s.cur with
  | .illegalCommand => none
  | .ok i =>
    let us := uopsOf s.cfg s.elIn i
    us[s.ustep]?.map fun u => (u, decide (s.ustep + 1 = us.length))

/-- The sequencer has an enabled step: it is `Busy`, and not held by a `WaitSettle` (R46). -/
def seqEnabled (s : State) : Bool :=
  match s.mode with
  | .idle => false
  | .busy =>
    match nextUop s with
    | none => true
    | some (u, _) => uopEnabled u s

/-- One turn of the sequencer: micro-operation number `ustep` of `cur` if it is enabled. Without an enabled step
the state stays as it is (log 21). When `ustep` is at the end of the expansion the command is complete (R21). -/
def seqStep (s : State) : Result :=
  match s.mode with
  | .idle => .next s
  | .busy =>
    match nextUop s with
    | none => .next { s with mode := .idle, done := true }
    | some (u, last) => if uopEnabled u s then uopStep last u s else .next s

end Sys2Proof.Machine
end

