-- ==== Sys2Proof/Machine/Dispatch.lean ====
section
/-! DEFINITION. Dispatch: one arm per command, each one direct call of that command's meaning. -/

namespace Sys2Proof.Machine

/-- The meaning of a command: it is accepted in the state `s` and carried out to completion. -/
def exec (i : Instr) (s : State) : Host.Outcome State Fault Refusal :=
  match i with
  | .cfgf p f => Sys2Proof.Machine.execCfgf p f s
  | .cfgp p c => Sys2Proof.Machine.execCfgp p c s
  | .enr p => Sys2Proof.Machine.execEnr p s
  | .enf p => Sys2Proof.Machine.execEnf p s
  | .set p => Sys2Proof.Machine.execSet p s
  | .clr p => Sys2Proof.Machine.execClr p s
  | .setg p => Sys2Proof.Machine.execSetg p s
  | .pri0 first last => Sys2Proof.Machine.execPri0 first last s
  | .tgt first last mask => Sys2Proof.Machine.execTgt first last mask s
  | .sns rfirst rlast pattern => Sys2Proof.Machine.execSns rfirst rlast pattern s
  | .enl l => Sys2Proof.Machine.execEnl l s
  | .fwd => Sys2Proof.Machine.execFwd s

end Sys2Proof.Machine
end

