-- ==== Sys2Proof/Machine/Agents.lean ====
section
/-! DEFINITION. The steps of the agents (spec/10_state.md R22) and which agent steps next. -/

namespace Sys2Proof.Machine

/-- The host reads the register at `a` by its own path (60_exceptions.md R206, 70_reset_and_hazards.md R232): the
value goes to the host and nothing of PMGC changes. An address without a register is refused (log 18). -/
def hostReadStep (a : Nat) (s : State) : Result :=
  match regAt s.cfg a with
  | some r => .next { s with hostRd := regRead s r, readDraws := s.readDraws + drawsOf s r }
  | none => .refused (.foreignAccess a)

/-- `rst` (70_reset_and_hazards.md R220, R222): the reset state, the unspecified registers at `u`. A command under
way is abandoned. The configuration, the inputs and what the host will do stay (log 4, log 20). -/
def resetStep (u : ResetDraw) (s : State) : State :=
  { State.resetWith s.cfg u with
    elIn := s.elIn
    padIn := s.padIn
    extPending := s.extPending
    cmds := s.cmds
    moves := s.moves
    hostRd := s.hostRd
    levelDraws := s.levelDraws + 1
    readDraws := s.readDraws }

/-- One step of one agent. The host may change `el_in` at any time, while `FWD` is `Busy` before its write too:
70_reset_and_hazards.md R232 lists that as a liberty and 93_implementation_defined.md U18 would refuse it; the
model follows R232 (log 23). -/
def agentStep (m : Move) (s : State) : Result :=
  match m with
  | .clock => .next (tick s)
  | .pad v => .next (commit s { s with padIn := v })
  | .elIn v => .next (commit s { s with elIn := v })
  | .lines v => .next (commit s { s with extPending := v })
  | .present C => presentStep C s
  | .seq => seqStep s
  | .hostRead a => hostReadStep a s
  | .rst u => .next (resetStep u s)

/-- The host's next descriptor is presented while `Idle` and the command is carried out to completion with no
other agent moving in between (log 5). -/
def commandStep (C : Descriptor) (s : State) : Result :=
  match decode C with
  | .illegalCommand => raiseUndefined .illegalCommand C s
  | .ok i => exec i s

/-- The step when no agent's move is scheduled: a `Busy` sequencer takes its turn, or the clock ticks while it is
held (70_reset_and_hazards.md R235); in `Idle` the host's next descriptor is carried out, and without one PMGC
waits and the clock ticks (R220). -/
def freeStep (s : State) : Result :=
  match s.mode with
  | .busy => if seqEnabled s then seqStep s else .next (tick s)
  | .idle =>
    match s.cmds with
    | [] => .next (tick s)
    | C :: rest => commandStep C { s with cmds := rest }

/-- The step of the machine: the first scheduled move, or the free step. -/
def machineStep (s : State) : Result :=
  match s.moves with
  | [] => freeStep s
  | m :: rest => agentStep m { s with moves := rest }

/-- The move presents a descriptor. -/
def Move.presents (m : Move) : Bool :=
  match m with
  | .present _ => true
  | .clock => false
  | .pad _ => false
  | .elIn _ => false
  | .lines _ => false
  | .seq => false
  | .hostRead _ => false
  | .rst _ => false

/-- The run is over: no descriptor is left to present, on the host's list or among the scheduled moves, and PMGC is
`Idle` (70_reset_and_hazards.md R233). A run that raised `Undefined` has no further state, so it is never over. -/
def runOver (s : State) : Bool := s.mode == .idle && s.cmds.isEmpty && !s.moves.any Move.presents

/-- The state in which the host presents the descriptor whose low `nbits` bits are those of `w` (all others 0)
next, and PMGC takes it up: `Idle`, with no other agent's move scheduled before it. -/
def placeCommand (s : State) (nbits w : Nat) : State :=
  { s with mode := .idle, moves := [], cmds := BitVec.ofNat 64 (w % 2 ^ nbits) :: s.cmds }

end Sys2Proof.Machine
end

