-- ==== Sys2Proof/Machine/Asm.lean ====
section
/-! DEFINITION. The assembler syntax, the pseudo-instructions and the listing form (spec/30_encoding.md R118, R119,
R120), and the bring-up sequence of 70_reset_and_hazards.md R223. None of it is hardware: it writes programs down. -/

namespace Sys2Proof.Machine

/-! ### Pseudo-instructions (R119) -/

/-- `PINCFG p, fn, pull`: `CFGF p, fn` then `CFGP p, pull`. -/
def pincfg (p : Pin) (fn : BitVec 3) (pull : BitVec 2) : List Instr := [.cfgf p fn, .cfgp p pull]

/-- `ARMR p, pull`: `CFGF p, IN`; `CFGP p, pull`; `ENR p`. -/
def armr (c : Config) (p : Pin) (pull : BitVec 2) : List Instr :=
  [.cfgf p c.fselCode.input, .cfgp p pull, .enr p]

/-- `ARMF p, pull`: `CFGF p, IN`; `CFGP p, pull`; `ENF p`. -/
def armf (c : Config) (p : Pin) (pull : BitVec 2) : List Instr :=
  [.cfgf p c.fselCode.input, .cfgp p pull, .enf p]

/-- `LED a, b, c`: `SET a`; `CLR b`; `CLR c`. -/
def led (a b c : Pin) : List Instr := [.set a, .clr b, .clr c]

/-- `LINECFG l, #mask, #pattern`: `PRI0 l, l`; `TGT l, l, #mask`; `SNS (l div 16), (l div 16), #pattern`;
`ENL l`. -/
def linecfg (l : BitVec 10) (mask : BitVec 8) (pattern : Word) : List Instr :=
  let r := BitVec.ofNat 6 (l.toNat / 16)
  [.pri0 l l, .tgt l l mask, .sns r r pattern, .enl l]

/-! ### Bring-up (70_reset_and_hazards.md R223) -/

/-- The edge a source pin uses: `R` or `F`. -/
inductive Edge where
  | rising
  | falling
deriving DecidableEq, Repr

/-- What R223 leaves to the system (91_not_in_source.md N3, N5, N7): the edge of each source pin, the pull state of
each of the five pins, the ranges, the mask, the pattern, the line. -/
structure BringUp where
  edgeA : Edge
  edgeB : Edge
  pullA : BitVec 2
  pullB : BitVec 2
  pull4 : BitVec 2
  pull12 : BitVec 2
  pull16 : BitVec 2
  priFirst : BitVec 10
  priLast : BitVec 10
  tgtFirst : BitVec 10
  tgtLast : BitVec 10
  mask : BitVec 8
  rfirst : BitVec 6
  rlast : BitVec 6
  pattern : Word
  line : BitVec 10
deriving DecidableEq, Repr

/-- `ARMR` or `ARMF`. -/
def armPin (c : Config) (e : Edge) (p : Pin) (pull : BitVec 2) : List Instr :=
  match e with
  | .rising => armr c p pull
  | .falling => armf c p pull

/-- Steps 2, 3 and 5 of R223: the source pins, the output pins with `GPIN` armed, the distributor. -/
def bringUp (c : Config) (b : BringUp) : List Instr :=
  armPin c b.edgeA c.ipinA b.pullA ++ armPin c b.edgeB c.ipinB b.pullB ++
  pincfg 4 c.fselCode.output b.pull4 ++ pincfg 12 c.fselCode.output b.pull12 ++
  pincfg 16 c.fselCode.output b.pull16 ++ [.enr c.gpin] ++
  [.pri0 b.priFirst b.priLast, .tgt b.tgtFirst b.tgtLast b.mask, .sns b.rfirst b.rlast b.pattern, .enl b.line, .fwd]

/-! ### Text (R118) -/

/-- Blanks between tokens (log 19). -/
def isBlank (ch : Char) : Bool := ch == ' ' || ch == '\t'

/-- Without leading and trailing blanks. -/
def trimBlanks (l : List Char) : List Char :=
  ((l.dropWhile isBlank).reverse.dropWhile isBlank).reverse

/-- The pieces between separators. -/
def splitOn (sep : Char) : List Char → List (List Char)
  | [] => [[]]
  | ch :: rest =>
    match splitOn sep rest with
    | [] => [[ch]]
    | piece :: more => if ch == sep then [] :: piece :: more else (ch :: piece) :: more

/-- The value of a digit; hexadecimal digits in either case. -/
def digitValue (ch : Char) : Option Nat :=
  if '0' ≤ ch ∧ ch ≤ '9' then some (ch.toNat - '0'.toNat)
  else if 'a' ≤ ch ∧ ch ≤ 'f' then some (ch.toNat - 'a'.toNat + 10)
  else if 'A' ≤ ch ∧ ch ≤ 'F' then some (ch.toNat - 'A'.toNat + 10)
  else none

/-- A nonempty sequence of digits in base `base`, with the value read so far. -/
def readDigits (base : Nat) : Nat → List Char → Option Nat
  | _, [] => none
  | acc, ch :: rest =>
    match digitValue ch with
    | none => none
    | some d =>
      if d < base then (if rest.isEmpty then some (base * acc + d) else readDigits base (base * acc + d) rest)
      else none

/-- A number: decimal, or `0x` hexadecimal. -/
def readNumber : List Char → Option Nat
  | '0' :: 'x' :: digits => readDigits 16 0 digits
  | digits => readDigits 10 0 digits

/-- An operand as written. -/
inductive Operand where
  /-- A plain number. -/
  | num (n : Nat)
  /-- `#n`. -/
  | imm (n : Nat)
  /-- A name. -/
  | name (text : String)
deriving DecidableEq, Repr

/-- Read one operand. -/
def readOperand (text : List Char) : Option Operand :=
  match text with
  | [] => none
  | '#' :: digits => (readNumber digits).map .imm
  | ch :: rest => if (digitValue ch).isSome && ch.isDigit then (readNumber (ch :: rest)).map .num
    else some (.name (String.ofList (ch :: rest)))

/-- A pin operand: a number `0..31`. -/
def asPin : Operand → Option Pin
  | .num n => if n < 32 then some (BitVec.ofNat 5 n) else none
  | _ => none

/-- A line operand: a number `0..NLINE-1`. -/
def asLine (c : Config) : Operand → Option (BitVec 10)
  | .num n => if n < c.nline then some (BitVec.ofNat 10 n) else none
  | _ => none

/-- A sense-register index, as wide as its field. -/
def asSenseReg : Operand → Option (BitVec 6)
  | .num n => if n < 64 then some (BitVec.ofNat 6 n) else none
  | _ => none

/-- A function operand: a name (assembled to its `FSEL_CODE`), or `#n` with a raw 3-bit code. -/
def asFunction (c : Config) : Operand → Option (BitVec 3)
  | .name t =>
    if t = "IN" then some c.fselCode.input
    else if t = "OUT" then some c.fselCode.output
    else if t = "ALT0" then some c.fselCode.alt0
    else if t = "ALT1" then some c.fselCode.alt1
    else if t = "ALT2" then some c.fselCode.alt2
    else if t = "ALT3" then some c.fselCode.alt3
    else if t = "ALT4" then some c.fselCode.alt4
    else if t = "ALT5" then some c.fselCode.alt5
    else none
  | .imm n => if n < 8 then some (BitVec.ofNat 3 n) else none
  | .num _ => none

/-- A pull operand: `NONE`, `UP` or `DOWN` (assembled to its `PULL_CODE`), or `#n` with a raw 2-bit code. -/
def asPull (c : Config) : Operand → Option (BitVec 2)
  | .name t =>
    if t = "NONE" then some c.pullCode.none
    else if t = "UP" then some c.pullCode.up
    else if t = "DOWN" then some c.pullCode.down
    else none
  | .imm n => if n < 4 then some (BitVec.ofNat 2 n) else none
  | .num _ => none

/-- An immediate of `w` bits. -/
def asImm (w : Nat) : Operand → Option (BitVec w)
  | .imm n => if n < 2 ^ w then some (BitVec.ofNat w n) else none
  | _ => none

/-- The commands of a mnemonic or pseudo-instruction with its operands; none where the form is not one of R118
and R119. -/
def assemble (c : Config) (mnemonic : String) (ops : List Operand) : Option (List Instr) :=
  match mnemonic, ops with
  | "CFGF", [p, fn] => do return [.cfgf (← asPin p) (← asFunction c fn)]
  | "CFGP", [p, pull] => do return [.cfgp (← asPin p) (← asPull c pull)]
  | "ENR", [p] => do return [.enr (← asPin p)]
  | "ENF", [p] => do return [.enf (← asPin p)]
  | "SET", [p] => do return [.set (← asPin p)]
  | "CLR", [p] => do return [.clr (← asPin p)]
  | "SETG", [p] => do return [.setg (← asPin p)]
  | "PRI0", [first, last] => do return [.pri0 (← asLine c first) (← asLine c last)]
  | "TGT", [first, last, mask] => do return [.tgt (← asLine c first) (← asLine c last) (← asImm 8 mask)]
  | "SNS", [rfirst, rlast, pattern] => do
    return [.sns (← asSenseReg rfirst) (← asSenseReg rlast) (← asImm 32 pattern)]
  | "ENL", [l] => do return [.enl (← asLine c l)]
  | "FWD", [] => some [.fwd]
  | "PINCFG", [p, fn, pull] => do return pincfg (← asPin p) (← asFunction c fn) (← asPull c pull)
  | "ARMR", [p, pull] => do return armr c (← asPin p) (← asPull c pull)
  | "ARMF", [p, pull] => do return armf c (← asPin p) (← asPull c pull)
  | "LED", [a, b, d] => do return led (← asPin a) (← asPin b) (← asPin d)
  | "LINECFG", [l, mask, pattern] => do
    return linecfg (← asLine c l) (← asImm 8 mask) (← asImm 32 pattern)
  | _, _ => none

/-- One line of source: an optional command and an optional comment from `;` on. An empty line has no command. -/
def assembleLine (c : Config) (line : String) : Option (List Instr) :=
  let text := trimBlanks (line.toList.takeWhile (· != ';'))
  if text.isEmpty then some []
  else do
    let mnemonic := text.takeWhile (!isBlank ·)
    let operands := trimBlanks (text.dropWhile (!isBlank ·))
    let ops ← if operands.isEmpty then some [] else (splitOn ',' operands).mapM fun o => readOperand (trimBlanks o)
    assemble c (String.ofList mnemonic) ops

/-- The hexadecimal digit of a 4-bit value. -/
def hexDigit (v : BitVec 4) : Char := ("0123456789ABCDEF".toList).getD v.toNat '0'

/-- The listing form of a descriptor: 16 hexadecimal digits, `imm` first. -/
def listing (C : Descriptor) : List Char :=
  (List.range 16).map fun k => hexDigit (C.extractLsb' (4 * (15 - k)) 4)

end Sys2Proof.Machine
end

