-- ==== Sys2Proof/Machine/Signals.lean ====
section
/-! DEFINITION. What the registers mean per line, the outputs of PMGC and the distributor's state predicates
(spec/10_state.md R36 to R41, R45; 30_encoding.md R101; 60_exceptions.md R193, R195). -/

namespace Sys2Proof.Machine

/-- `PRI[l]`, the priority byte of line `l` (R36). -/
def priOf (s : State) (l : Nat) : BitVec 8 := byteLane (regAtIndex s.priw (l / 4)) (l % 4)

/-- `TGT[l]`, the target byte of line `l` (R37). -/
def tgtOf (s : State) (l : Nat) : BitVec 8 := byteLane (regAtIndex s.tgtw (l / 4)) (l % 4)

/-- The sense field of line `l` (R38). -/
def senseOf (s : State) (l : Nat) : BitVec 2 := (regAtIndex s.sense (l / 16)).extractLsb' (2 * (l % 16)) 2

/-- `EN[l]`, the enable bit of line `l` (R39). -/
def lineEnabled (s : State) (l : Nat) : Bool := (regAtIndex s.isen (l / 32)).getLsbD (l % 32)

/-- The pull field of pin `p` (R28). -/
def pullCode (s : State) (p : Nat) : BitVec 2 :=
  (regAtIndex s.pull (pullIndex p)).extractLsb' (pullShift p) 2

/-- `cmd_ready = (mode = Idle)` (R101). -/
def cmdReady (s : State) : Bool := s.mode == .idle

/-- `busy = (mode = Busy)` (R23, R101). -/
def busyOut (s : State) : Bool := s.mode == .busy

/-- `gpio_irq = (EDS != 0)` (R45). -/
def gpioIrq (s : State) : Bool := s.eds != 0

/-- `pending(l)` (60_exceptions.md R195): `gpio_irq` for `GPIO_LINE`, a free input for every other line. -/
def pending (s : State) (l : Nat) : Bool :=
  if l = s.cfg.gpioLine then gpioIrq s else s.extPending.getLsbD l

/-- `GRPEN(LINE_GROUP(l))` (60_exceptions.md R195). -/
def groupEnable (c : Config) (l : Nat) : Word := if c.lineGroup.getLsbD l then c.grp1En else c.grp0En

/-- The distributor forwards line `l` to the core: pending, enabled, its group forwarded, targeted at core 0. -/
def lineSignals (s : State) (l : Nat) : Bool :=
  pending s l && lineEnabled s l && (s.ctrl &&& groupEnable s.cfg l != 0) && (tgtOf s l).getLsbD 0

/-- `irq_out` (60_exceptions.md R195). -/
def irqOut (s : State) : Bool := (List.range s.cfg.nline).any (lineSignals s)

/-- The distributor is Disabled (R41): control register zero and no line enabled. -/
def disabled (s : State) : Bool := s.ctrl == 0 && s.isen.all (· == 0)

/-- The distributor is Configured (R41): control register nonzero, some line enabled, and every enabled line's
priority, target and sense written. -/
def configured (s : State) : Bool :=
  s.ctrl != 0 && (List.range s.cfg.nline).any (lineEnabled s) &&
    (List.range s.cfg.nline).all (fun l => !lineEnabled s l || lineReady s l)

end Sys2Proof.Machine
end

