-- ==== Sys2Proof/WellFormed.lean ====
section
/-! DEFINITION. Well-formed commands: the operand value checks of spec/30_encoding.md R104. The fields of
`Instr` have exactly the widths of R103, so every other bound holds by type. -/

namespace Sys2Proof

/-- The command passes the operand checks of R104 under the configuration `c`. -/
def Instr.wf (c : Config) : Instr → Bool
  | .cfgf _ _ => true
  | .cfgp _ code => Machine.pullCodeOk c code
  | .enr _ => true
  | .enf _ => true
  | .set _ => true
  | .clr _ => true
  | .setg _ => true
  | .pri0 first last => Machine.lineRangeOk c first.toNat last.toNat
  | .tgt first last _ => Machine.lineRangeOk c first.toNat last.toNat
  | .sns rfirst rlast _ => Machine.senseRangeOk c rfirst.toNat rlast.toNat
  | .enl l => Machine.lineOk c l.toNat
  | .fwd => true

end Sys2Proof
end

