-- ==== Sys2Proof/Safety.lean ====
section
/-! DEFINITION. What the statements speak of: the shape of the register space, the invariant of the machine, and
the terms in which commands' effects are stated. -/

namespace Sys2Proof.Machine

/-- Every array of registers holds as many registers as the spec gives it (10_state.md R24). This is the canonical
form of the register space: equal contents are equal data (log 16). -/
def State.shapeOk (s : State) : Bool :=
  s.fsel.length == 4 && s.pull.length == 2 && s.priw.length == s.cfg.nline / 4 &&
    s.tgtw.length == s.cfg.nline / 4 && s.sense.length == s.cfg.nline / 16 &&
    s.isen.length == s.cfg.nline / 32

/-- The level of pin `p` is described: its function is output or input (10_state.md R43). -/
def levelKnown (s : State) (p : Nat) : Bool :=
  fnCode s p == s.cfg.fselCode.output || fnCode s p == s.cfg.fselCode.input

/-- The step from `s` answers `t`, up to the draw counter and the edge latch, and the latch of every pin of described
level is as it was. -/
def stepsQuietlyTo (s t : State) : Prop :=
  ∃ e d, step s = .next { t with eds := e, levelDraws := d } ∧
    ∀ q < 32, levelKnown s q = true → e.getLsbD q = s.eds.getLsbD q

/-- No line flag is set beyond the last line. -/
def State.flagsInRange (s : State) : Prop :=
  ∀ l, s.cfg.nline ≤ l → s.lp.getLsbD l = false ∧ s.lt.getLsbD l = false ∧ s.ls.getLsbD l = false

/-- What holds of the latched command while `Busy`: it is a command that passed its checks, `ustep` is inside its
expansion, and between its two accesses `ENL` holds in `T` the register it read. -/
def State.latchOk (s : State) : Prop :=
  ∃ i, decode s.cur = .ok i ∧ i.wf s.cfg = true ∧ s.ustep < (uopsOf s.cfg s.elIn i).length ∧
    (commandOf s.cfg s.elIn i).pinOk s = true ∧ (commandOf s.cfg s.elIn i).lineOk s = true ∧
    ∀ l, i = .enl l → s.ustep = 1 → s.tReg = regAtIndex s.isen (l.toNat / 32)

/-- Every enabled line has had its priority, target and sense written (41_gic_distributor.md R168,
70_reset_and_hazards.md R228). -/
def State.enabledLinesReady (s : State) : Prop :=
  ∀ l, l < s.cfg.nline → lineEnabled s l = true → lineReady s l = true

/-- The invariant of the machine. -/
structure State.Inv (s : State) : Prop where
  cfgOk : s.cfg.wf = true
  shape : s.shapeOk = true
  settleLe : s.settle ≤ s.cfg.settle
  flags : s.flagsInRange
  latch : s.mode = .busy → s.latchOk
  ready : s.enabledLinesReady

/-- The micro-operations before `k` of the latched command include a `WaitSettle` that was passed and no timer load
since: the settle timer is 0 (10_state.md R46, 70_reset_and_hazards.md R226). -/
def State.heldAccessesSettled (s : State) : Prop :=
  s.mode = .busy → ∀ i, decode s.cur = .ok i →
    (∀ p code, i = .cfgp p code → s.ustep = 1 ∨ s.ustep = 2 → s.settle = 0) ∧
    (∀ p, i = .enr p ∨ i = .enf p ∨ i = .setg p → 1 ≤ s.ustep → s.settle = 0)

/-- What `rst` resets: the state without the inputs and the model's own fields (R53, R55). -/
def State.machinePart (s : State) : State :=
  { s with
    elIn := 0
    padIn := 0
    extPending := 0
    cmds := []
    moves := []
    hostRd := 0
    levelDraws := 0
    readDraws := 0 }

/-- The command the next step may work on: the one latched while `Busy`, or the one the host presents next while
`Idle`. -/
def commandAtWork (s : State) (i : Instr) : Prop :=
  (s.mode = .busy ∧ decode s.cur = .ok i) ∨
    (s.mode = .idle ∧ ∃ C rest, s.cmds = C :: rest ∧ decode C = .ok i)

/-- The next step is not a reset. -/
def State.noReset (s : State) : Prop := ∀ u rest, s.moves ≠ .rst u :: rest

/-- The mnemonic of a command, as `opcode_table.json` spells it. -/
def mnemonicOf : Instr → String
  | .cfgf _ _ => "CFGF"
  | .cfgp _ _ => "CFGP"
  | .enr _ => "ENR"
  | .enf _ => "ENF"
  | .set _ => "SET"
  | .clr _ => "CLR"
  | .setg _ => "SETG"
  | .pri0 _ _ => "PRI0"
  | .tgt _ _ _ => "TGT"
  | .sns _ _ _ => "SNS"
  | .enl _ => "ENL"
  | .fwd => "FWD"

/-- A command of the distributor family (41_gic_distributor.md). -/
def distributorFamily : Instr → Bool
  | .pri0 _ _ => true
  | .tgt _ _ _ => true
  | .sns _ _ _ => true
  | .enl _ => true
  | .fwd => true
  | .cfgf _ _ => false
  | .cfgp _ _ => false
  | .enr _ => false
  | .enf _ => false
  | .set _ => false
  | .clr _ => false
  | .setg _ => false

/-- Address `a` lies in a word that a micro-operation of the command writes. -/
def writesByte (c : Config) (el : BitVec 2) (i : Instr) (a : Nat) : Prop :=
  ∃ u ∈ uopsOf c el i, ∃ A v, u.action = .write A v ∧ A ≤ a ∧ a < A + 4

/-- The kind of a micro-operation: `WaitSettle`, `MemRead` or `MemWrite` (00_scope.md R13). -/
inductive ActionKind where
  | wait
  | read
  | write
deriving DecidableEq, Repr

/-- The kind of a micro-operation. -/
def kindOf (u : Uop) : ActionKind :=
  match u.action with
  | .waitSettle => .wait
  | .read _ => .read
  | .write _ _ => .write

end Sys2Proof.Machine
end

