-- ==== Sys2Proof/Certificates/Slice0/Obligations.lean ====
section
/-! DEFINITION. The statements for the provers. Each docstring names the rule of spec/ it formalises, and the log
entries it rests on where a clause is the model's choice.

In the statements about one command, `e` and `d` stand for the edge latch and the draw counter afterwards: the
level of a pin with an alternate function is a free value at every step (10_state.md R43, log 7), so its latch bit
is not determined; of every pin whose function is input or output the statement says what its latch bit becomes. -/

open Sys2Proof Sys2Proof.Machine

/-! ### Reset -/

/-- R53, R220: after reset, whatever the unspecified registers draw. That the draw comes with the `rst` move is the
model's reading (log 4). -/
def Obligations.ResetGivesTheStatedValuesAndLeavesTheRestFree : Prop :=
  ∀ (c : Config) (u : ResetDraw),
    let s := State.resetWith c u
    s.mode = .idle ∧ s.settle = 0 ∧ s.hist = [] ∧
    s.fdone = 0 ∧ s.pdone = 0 ∧ s.lp = 0 ∧ s.lt = 0 ∧ s.ls = 0 ∧
    s.ctrl = 0 ∧ s.isen.length = c.nline / 32 ∧ (∀ n, regAtIndex s.isen n = 0) ∧
    s.ren = u.ren ∧ s.fen = u.fen ∧ s.out = u.out ∧ s.eds = u.eds ∧
    s.tReg = u.tReg ∧ s.cur = u.cur ∧ s.ustep = u.ustep ∧
    (u.fsel.length = 4 → s.fsel = u.fsel) ∧ (u.pull.length = 2 → s.pull = u.pull) ∧
    (u.priw.length = c.nline / 4 → s.priw = u.priw) ∧ (u.tgtw.length = c.nline / 4 → s.tgtw = u.tgtw) ∧
    (u.sense.length = c.nline / 16 → s.sense = u.sense)

/-- R221, R41: after reset the distributor is Disabled and signals nothing, whatever the unspecified registers and
the other lines' pending inputs are. -/
def Obligations.ResetDistributorSignalsNothing : Prop :=
  ∀ (c : Config) (u : ResetDraw) (v : LineSet),
    disabled (State.resetWith c u) = true ∧ irqOut { State.resetWith c u with extPending := v } = false

/-- R222: `rst` gives the reset state from any state, in the middle of a command too. (That the inputs and the
host's list stay is the model's choice, log 20, and not stated.) -/
def Obligations.ResetAbandonsACommandUnderWay : Prop :=
  ∀ (s : State) (u : ResetDraw) (rest : List Move), s.moves = .rst u :: rest →
    ∃ t, step s = .next t ∧ t.machinePart = State.resetWith s.cfg u

/-! ### Encoding -/

/-- R120: the worked encodings, decoded and listed. -/
def Obligations.WorkedEncodingsDecode : Prop :=
  decode 0x0000000010000024 = .ok (.cfgf 4 cfg0.fselCode.output) ∧
  decode 0x0000000020000031 = .ok (.cfgp 17 cfg0.pullCode.up) ∧
  decode 0x000000007000000C = .ok (.setg 12) ∧
  decode 0x000000008000FC20 = .ok (.pri0 32 63) ∧
  decode 0x000000009010FC20 = .ok (.tgt 32 63 0x01) ∧
  decode 0x55555555A00000C2 = .ok (.sns 2 3 0x55555555) ∧
  decode 0x00000000B0000031 = .ok (.enl 49) ∧
  decode 0x00000000C0000000 = .ok .fwd

/-- R102, R103, R106: no bit of an operand is lost between encoding and decoding, for every command and every
operand value. -/
def Obligations.DecodeOfEncodeIsTheCommand : Prop := ∀ i : Instr, decode (encode i) = .ok i

/-- R106, R107: a descriptor has one meaning; every bit outside the fields is fixed. -/
def Obligations.EncodeOfDecodeIsTheDescriptor : Prop :=
  ∀ (C : Descriptor) (i : Instr), decode C = .ok i → encode i = C

/-- R106: a descriptor decodes to `M` iff it matches `M`'s row; the rows exclude each other; one that matches no row
is illegal. -/
def Obligations.DecodeFollowsTheOpcodeMap : Prop :=
  (∀ (C : Descriptor) (m : String) (pat mask : Descriptor), (m, pat, mask) ∈ opcodeRows →
    (C &&& mask = pat ↔ ∃ i, decode C = .ok i ∧ mnemonicOf i = m)) ∧
  (∀ C : Descriptor, (∀ row ∈ opcodeRows, C &&& row.2.2 ≠ row.2.1) → decode C = .illegalCommand) ∧
  opcodeRows.Pairwise (fun r q => ∀ C : Descriptor, ¬ (C &&& r.2.2 = r.2.1 ∧ C &&& q.2.2 = q.2.1))

/-- R108: the reserved opcodes 0x0, 0xD, 0xE, 0xF, whatever the other bits. -/
def Obligations.ReservedOpcodesAreIllegalCommands : Prop :=
  ∀ C : Descriptor, C.extractLsb' 28 4 = 0x0#4 ∨ C.extractLsb' 28 4 = 0xD#4 ∨ C.extractLsb' 28 4 = 0xE#4 ∨
    C.extractLsb' 28 4 = 0xF#4 → decode C = .illegalCommand

/-- R118, R119: the pseudo-instructions' expansions, for every operand. -/
def Obligations.PseudoInstructionsExpandAsListed : Prop :=
  ∀ (c : Config) (p a b d : Pin) (fn : BitVec 3) (pull : BitVec 2) (l : BitVec 10) (mask : BitVec 8)
    (pattern : Word),
    pincfg p fn pull = [.cfgf p fn, .cfgp p pull] ∧
    armr c p pull = [.cfgf p c.fselCode.input, .cfgp p pull, .enr p] ∧
    armf c p pull = [.cfgf p c.fselCode.input, .cfgp p pull, .enf p] ∧
    led a b d = [.set a, .clr b, .clr d] ∧
    linecfg l mask pattern =
      [.pri0 l l, .tgt l l mask,
       .sns (BitVec.ofNat 6 (l.toNat / 16)) (BitVec.ofNat 6 (l.toNat / 16)) pattern, .enl l]

/-! ### Faults -/

/-- R101, R108, R109, R191, R192: what presenting a descriptor does, in the order of the checks. Nothing changes
before a fault: the state in which the run stops is the state before, less the move. That acceptance ends a `done`
pulse (`done := false`) is the model's choice (log 15). -/
def Obligations.AcceptanceChecksComeInOrder : Prop :=
  ∀ (s : State) (C : Descriptor) (rest : List Move), s.mode = .idle → s.moves = .present C :: rest →
    (decode C = .illegalCommand → step s = .fault (.illegalCommand C { s with moves := rest })) ∧
    ∀ i, decode C = .ok i →
      (i.wf s.cfg = false → step s = .fault (.illegalOperand C { s with moves := rest })) ∧
      (i.wf s.cfg = true → ∀ p, (i = .enr p ∨ i = .enf p ∨ i = .setg p) →
        ¬ (s.fdone.getLsbD p.toNat = true ∧ s.pdone.getLsbD p.toNat = true) →
        step s = .fault (.pinNotConfigured C { s with moves := rest })) ∧
      (i.wf s.cfg = true → ∀ l, i = .enl l →
        ¬ (s.lp.getLsbD l.toNat = true ∧ s.lt.getLsbD l.toNat = true ∧ s.ls.getLsbD l.toNat = true) →
        step s = .fault (.lineNotConfigured C { s with moves := rest })) ∧
      (i.wf s.cfg = true →
        (∀ p, i = .enr p ∨ i = .enf p ∨ i = .setg p →
          s.fdone.getLsbD p.toNat = true ∧ s.pdone.getLsbD p.toNat = true) →
        (∀ l, i = .enl l →
          s.lp.getLsbD l.toNat = true ∧ s.lt.getLsbD l.toNat = true ∧ s.ls.getLsbD l.toNat = true) →
        ∃ e d, step s = .next { s with
            moves := rest, cur := C, ustep := 0, mode := .busy, done := false, eds := e, levelDraws := d } ∧
          ∀ q < 32, levelKnown s q = true → e.getLsbD q = s.eds.getLsbD q)

/-- R104, R109: exactly these operand values are refused, before any access. -/
def Obligations.OperandChecksAreThoseOfTheSpec : Prop :=
  ∀ s : State, s.mode = .idle →
    (∀ p code, code ≠ s.cfg.pullCode.none → code ≠ s.cfg.pullCode.up → code ≠ s.cfg.pullCode.down →
      exec (.cfgp p code) s = .fault (.illegalOperand (encode (.cfgp p code)) s)) ∧
    (∀ first last, ¬ (first.toNat ≤ last.toNat ∧ last.toNat < s.cfg.nline) →
      exec (.pri0 first last) s = .fault (.illegalOperand (encode (.pri0 first last)) s) ∧
      ∀ mask, exec (.tgt first last mask) s = .fault (.illegalOperand (encode (.tgt first last mask)) s)) ∧
    (∀ rfirst rlast pattern, ¬ (rfirst.toNat ≤ rlast.toNat ∧ rlast.toNat < s.cfg.nline / 16) →
      exec (.sns rfirst rlast pattern) s = .fault (.illegalOperand (encode (.sns rfirst rlast pattern)) s)) ∧
    (∀ l, ¬ l.toNat < s.cfg.nline → exec (.enl l) s = .fault (.illegalOperand (encode (.enl l)) s)) ∧
    ∀ (i : Instr) (C : Descriptor) (t : State), exec i s = .fault (.illegalOperand C t) → i.wf s.cfg = false

/-- R101, R232 (3), 93 U18: a command is never taken up while another is under way. -/
def Obligations.BusyPortRefusesEveryCommand : Prop :=
  ∀ (s : State), s.mode = .busy →
    (∀ i, exec i s = .refused .commandPortBusy) ∧
    ∀ C rest, s.moves = .present C :: rest → step s = .refused .commandPortBusy

/-- R232: the only refusals are of what the host must not do; no command is ever refused otherwise. -/
def Obligations.OnlyHostDutiesAreRefused : Prop :=
  ∀ (s : State) (r : Refusal), step s = .refused r →
    (r = .commandPortBusy ∧ s.mode = .busy ∧ ∃ C rest, s.moves = .present C :: rest) ∨
    (∃ a rest, r = .foreignAccess a ∧ s.moves = .hostRead a :: rest ∧ regAt s.cfg a = none)

/-- R79: no step from a state of the invariant accesses an address without a register. -/
def Obligations.NoStepAccessesAnInvalidAddress : Prop :=
  ∀ s : State, s.Inv → ∀ a t, step s ≠ .fault (.invalidAddress a t)

/-! ### The GPIO commands -/

/-- R131: `CFGF p, f`, whole: encoding, expansion, every effect and the frame (nothing else of the state changes). -/
def Obligations.CfgfReplacesTheFunctionField : Prop :=
  ∀ (s : State) (p : Pin) (f : BitVec 3), s.cfg.wf = true → s.shapeOk = true → s.mode = .idle →
    let x := regAtIndex s.fsel (p.toNat / 10)
    let k := p.toNat % 10
    let y := (x &&& ~~~(0b111#32 <<< (3 * k))) ||| (f.zeroExtend 32 <<< (3 * k))
    let a := s.cfg.map.fsel0 + 4 * (p.toNat / 10)
    (uopsOf s.cfg s.elIn (.cfgf p f)).map kindOf = [.read, .write] ∧
    ∃ e d, exec (.cfgf p f) s = .next { s with
        fsel := s.fsel.set (p.toNat / 10) y
        tReg := x
        settle := s.cfg.settle
        fdone := s.fdone ||| 1#32 <<< p.toNat
        hist := s.hist ++ [.rd a x, .wr a y]
        cur := (0#32 ++ 0x1#4 ++ 0#20 ++ f ++ p : BitVec 64)
        ustep := 2
        done := true
        eds := e
        levelDraws := d } ∧
      (∀ q < 32, q ≠ p.toNat → levelKnown s q = true → e.getLsbD q = s.eds.getLsbD q) ∧
      (levelKnown s p.toNat = true → f = s.cfg.fselCode.output ∨ f = s.cfg.fselCode.input →
        let before := level s p.toNat
        let after := if f = s.cfg.fselCode.output then s.out.getLsbD p.toNat else s.padIn.getLsbD p.toNat
        e.getLsbD p.toNat = (s.eds.getLsbD p.toNat || (s.ren.getLsbD p.toNat && !before && after) ||
          (s.fen.getLsbD p.toNat && before && !after)))

/-- R132 (the document's test): only bits `[3k+2:3k]` of the owning register change. -/
def Obligations.CfgfChangesOnlyThePinsField : Prop :=
  ∀ (s : State) (p : Pin) (f : BitVec 3), s.cfg.wf = true → s.shapeOk = true → s.mode = .idle →
    ∃ t x y, exec (.cfgf p f) s = .next t ∧
      t.hist = s.hist ++ [.rd (s.cfg.map.fsel0 + 4 * (p.toNat / 10)) x,
        .wr (s.cfg.map.fsel0 + 4 * (p.toNat / 10)) y] ∧
      (∀ r, r ≠ .fsel (p.toNat / 10) → stored t r = stored s r) ∧
      (∀ b < 32, b < 3 * (p.toNat % 10) ∨ 3 * (p.toNat % 10) + 2 < b →
        (regAtIndex t.fsel (p.toNat / 10)).getLsbD b = (regAtIndex s.fsel (p.toNat / 10)).getLsbD b) ∧
      (regAtIndex t.fsel (p.toNat / 10)).extractLsb' (3 * (p.toNat % 10)) 3 = f

/-- R133: `CFGP p, c`, whole. Both waits are over at the end, so `settle = 0`. -/
def Obligations.CfgpReplacesThePullFieldAndSettles : Prop :=
  ∀ (s : State) (p : Pin) (code : BitVec 2), s.cfg.wf = true → s.shapeOk = true → s.mode = .idle →
    let x := regAtIndex s.pull (p.toNat / 16)
    let j := p.toNat % 16
    let y := (x &&& ~~~(0b11#32 <<< (2 * j))) ||| (code.zeroExtend 32 <<< (2 * j))
    let a := s.cfg.map.pull0 + 4 * (p.toNat / 16)
    let C := (0#32 ++ 0x2#4 ++ 0#21 ++ code ++ p : BitVec 64)
    (uopsOf s.cfg s.elIn (.cfgp p code)).map kindOf = [.wait, .read, .write, .wait] ∧
    ((code = s.cfg.pullCode.none ∨ code = s.cfg.pullCode.up ∨ code = s.cfg.pullCode.down) →
      ∃ e d, exec (.cfgp p code) s = .next { s with
          pull := s.pull.set (p.toNat / 16) y
          tReg := x
          settle := 0
          pdone := s.pdone ||| 1#32 <<< p.toNat
          hist := s.hist ++ [.rd a x, .wr a y]
          cur := C
          ustep := 4
          done := true
          eds := e
          levelDraws := d } ∧
        ∀ q < 32, levelKnown s q = true → e.getLsbD q = s.eds.getLsbD q) ∧
    (¬ (code = s.cfg.pullCode.none ∨ code = s.cfg.pullCode.up ∨ code = s.cfg.pullCode.down) →
      exec (.cfgp p code) s = .fault (.illegalOperand C s))

/-- R134 (the document's test): the pull field reads back as the code, whatever the register held before, and no
other bit of any target register differs. -/
def Obligations.CfgpPullCodeRoundTrip : Prop :=
  ∀ (s : State) (p : Pin) (code : BitVec 2), s.cfg.wf = true → s.shapeOk = true → s.mode = .idle →
    code ∈ s.cfg.pullCode.codes →
    ∃ t, exec (.cfgp p code) s = .next t ∧
      (regAtIndex t.pull (p.toNat / 16)).extractLsb' (2 * (p.toNat % 16)) 2 = code ∧
      (∀ r, r ≠ .pull (p.toNat / 16) → stored t r = stored s r) ∧
      (∀ b < 32, b < 2 * (p.toNat % 16) ∨ 2 * (p.toNat % 16) + 1 < b →
        (regAtIndex t.pull (p.toNat / 16)).getLsbD b = (regAtIndex s.pull (p.toNat / 16)).getLsbD b)

/-- R133, R226: the four steps of `CFGP p, c`. The write loads the timer and leaves `pdone`; the second wait holds
until the timer is 0 again and marks `pdone[p]`, in the step that completes the command. (That a held turn leaves
everything as it is is the model's, log 21.) -/
def Obligations.CfgpStepsLoadTheTimerAndMarkAfterTheWait : Prop :=
  ∀ (s : State) (p : Pin) (code : BitVec 2) (rest : List Move), s.cfg.wf = true → s.mode = .busy →
    s.cur = (0#32 ++ 0x2#4 ++ 0#21 ++ code ++ p : BitVec 64) → s.moves = .seq :: rest →
    let a := s.cfg.map.pull0 + 4 * (p.toNat / 16)
    let x := regAtIndex s.pull (p.toNat / 16)
    let j := p.toNat % 16
    let y := (s.tReg &&& ~~~(0b11#32 <<< (2 * j))) ||| (code.zeroExtend 32 <<< (2 * j))
    (s.ustep = 0 ∨ s.ustep = 3 → s.settle ≠ 0 → step s = .next { s with moves := rest }) ∧
    (s.ustep = 0 → s.settle = 0 → stepsQuietlyTo s { s with moves := rest, ustep := 1, done := false }) ∧
    (s.ustep = 1 → stepsQuietlyTo s { s with
      moves := rest, tReg := x, hist := s.hist ++ [.rd a x], ustep := 2, done := false }) ∧
    (s.ustep = 2 → stepsQuietlyTo s { s with
      moves := rest
      pull := s.pull.set (p.toNat / 16) y
      settle := s.cfg.settle
      hist := s.hist ++ [.wr a y]
      ustep := 3
      done := false }) ∧
    (s.ustep = 3 → s.settle = 0 → stepsQuietlyTo s { s with
      moves := rest, pdone := s.pdone ||| 1#32 <<< p.toNat, ustep := 4, mode := .idle, done := true })

/-- R135, R229: `ENR p`, whole. -/
def Obligations.EnrArmsTheRisingDetector : Prop :=
  ∀ (s : State) (p : Pin), s.cfg.wf = true → s.mode = .idle →
    let C := (0#32 ++ 0x3#4 ++ 0#23 ++ p : BitVec 64)
    (uopsOf s.cfg s.elIn (.enr p)).map kindOf = [.wait, .read, .write] ∧
    (s.fdone.getLsbD p.toNat = true → s.pdone.getLsbD p.toNat = true →
      ∃ e d, exec (.enr p) s = .next { s with
          ren := s.ren ||| 1#32 <<< p.toNat
          tReg := s.ren
          settle := 0
          hist := s.hist ++ [.rd s.cfg.map.ren s.ren, .wr s.cfg.map.ren (s.ren ||| 1#32 <<< p.toNat)]
          cur := C
          ustep := 3
          done := true
          eds := e
          levelDraws := d } ∧
        ∀ q < 32, levelKnown s q = true → e.getLsbD q = s.eds.getLsbD q) ∧
    (s.fdone.getLsbD p.toNat = false ∨ s.pdone.getLsbD p.toNat = false →
      exec (.enr p) s = .fault (.pinNotConfigured C s))

/-- R136, R229: `ENF p`, whole. -/
def Obligations.EnfArmsTheFallingDetector : Prop :=
  ∀ (s : State) (p : Pin), s.cfg.wf = true → s.mode = .idle →
    let C := (0#32 ++ 0x4#4 ++ 0#23 ++ p : BitVec 64)
    (uopsOf s.cfg s.elIn (.enf p)).map kindOf = [.wait, .read, .write] ∧
    (s.fdone.getLsbD p.toNat = true → s.pdone.getLsbD p.toNat = true →
      ∃ e d, exec (.enf p) s = .next { s with
          fen := s.fen ||| 1#32 <<< p.toNat
          tReg := s.fen
          settle := 0
          hist := s.hist ++ [.rd s.cfg.map.fen s.fen, .wr s.cfg.map.fen (s.fen ||| 1#32 <<< p.toNat)]
          cur := C
          ustep := 3
          done := true
          eds := e
          levelDraws := d } ∧
        ∀ q < 32, levelKnown s q = true → e.getLsbD q = s.eds.getLsbD q) ∧
    (s.fdone.getLsbD p.toNat = false ∨ s.pdone.getLsbD p.toNat = false →
      exec (.enf p) s = .fault (.pinNotConfigured C s))

/-- R137: `SET p`, whole: one write, no read, `T` and the timer untouched; the pin's own edge is latched when it is
an output, was 0, is armed and feeds its own detector. A second `SET p` is recorded and changes nothing more. -/
def Obligations.SetRaisesTheOutputBit : Prop :=
  ∀ (s : State) (p : Pin), s.cfg.wf = true → s.mode = .idle →
    (uopsOf s.cfg s.elIn (.set p)).map kindOf = [.write] ∧
    ∃ e d e' d',
      let t := { s with
        out := s.out ||| 1#32 <<< p.toNat
        hist := s.hist ++ [.wr s.cfg.map.gpset (1#32 <<< p.toNat)]
        cur := (0#32 ++ 0x5#4 ++ 0#23 ++ p : BitVec 64)
        ustep := 1
        done := true
        eds := e
        levelDraws := d }
      exec (.set p) s = .next t ∧
      exec (.set p) t = .next { t with
        hist := t.hist ++ [.wr s.cfg.map.gpset (1#32 <<< p.toNat)], eds := e', levelDraws := d' } ∧
      ∀ q < 32, levelKnown s q = true → e.getLsbD q = (s.eds.getLsbD q ||
        (decide (q = p.toNat) && decide (fnCode s q = s.cfg.fselCode.output) && !s.out.getLsbD q &&
          s.ren.getLsbD q && s.cfg.selfEdge.getLsbD q)) ∧ e'.getLsbD q = e.getLsbD q

/-- R138: `CLR p`, whole. -/
def Obligations.ClrLowersTheOutputBit : Prop :=
  ∀ (s : State) (p : Pin), s.cfg.wf = true → s.mode = .idle →
    (uopsOf s.cfg s.elIn (.clr p)).map kindOf = [.write] ∧
    ∃ e d, exec (.clr p) s = .next { s with
        out := s.out &&& ~~~(1#32 <<< p.toNat)
        hist := s.hist ++ [.wr s.cfg.map.gpclr (1#32 <<< p.toNat)]
        cur := (0#32 ++ 0x6#4 ++ 0#23 ++ p : BitVec 64)
        ustep := 1
        done := true
        eds := e
        levelDraws := d } ∧
      ∀ q < 32, levelKnown s q = true → e.getLsbD q = (s.eds.getLsbD q ||
        (decide (q = p.toNat) && decide (fnCode s q = s.cfg.fselCode.output) && s.out.getLsbD q &&
          s.fen.getLsbD q && s.cfg.selfEdge.getLsbD q))

/-- R139: `SETG p`, whole: the five accesses in order, `REN` as before at the end, no edge latched; without the
tracking flags or with the detector not armed it faults, in the latter case after exactly one read and with no edge
latched (that the pulse `done` is over by then is the model's, log 15). -/
def Obligations.SetgSetsTheOutputWithoutAnEdge : Prop :=
  ∀ (s : State) (p : Pin), s.cfg.wf = true → s.mode = .idle →
    let C := (0#32 ++ 0x7#4 ++ 0#23 ++ p : BitVec 64)
    let b := 1#32 <<< p.toNat
    let a := s.cfg.map.ren
    (uopsOf s.cfg s.elIn (.setg p)).map kindOf = [.wait, .read, .write, .write, .read, .write] ∧
    (s.fdone.getLsbD p.toNat = false ∨ s.pdone.getLsbD p.toNat = false →
      exec (.setg p) s = .fault (.pinNotConfigured C s)) ∧
    (s.fdone.getLsbD p.toNat = true → s.pdone.getLsbD p.toNat = true →
      (s.ren.getLsbD p.toNat = true →
        ∃ e d, exec (.setg p) s = .next { s with
            out := s.out ||| b
            tReg := s.ren &&& ~~~b
            settle := 0
            hist := s.hist ++ [.rd a s.ren, .wr a (s.ren &&& ~~~b), .wr s.cfg.map.gpset b,
              .rd a (s.ren &&& ~~~b), .wr a s.ren]
            cur := C
            ustep := 6
            done := true
            eds := e
            levelDraws := d } ∧
          ∀ q < 32, levelKnown s q = true → e.getLsbD q = s.eds.getLsbD q) ∧
      (s.ren.getLsbD p.toNat = false →
        ∃ e d, exec (.setg p) s = .fault (.guardedSetNotArmed C { s with
          tReg := s.ren
          settle := 0
          hist := s.hist ++ [.rd a s.ren]
          cur := C
          ustep := 1
          mode := .busy
          done := false
          eds := e
          levelDraws := d }) ∧
          ∀ q < 32, levelKnown s q = true → e.getLsbD q = s.eds.getLsbD q))

/-- R140 (the document's scenario): after `CFGF 4, OUT`, the commands `SET 4` and `CLR 4` append exactly two writes. -/
def Obligations.SetThenClearRecordsTwoWrites : Prop :=
  ∀ s t : State, s.cfg.wf = true → s.shapeOk = true → s.mode = .idle →
    exec (.cfgf 4 s.cfg.fselCode.output) s = .next t →
    ∃ t1 t2, exec (.set 4) t = .next t1 ∧ exec (.clr 4) t1 = .next t2 ∧
      t2.hist = t.hist ++ [.wr t.cfg.map.gpset 0x00000010, .wr t.cfg.map.gpclr 0x00000010]

/-- R78: the writes to `GPSET` and `GPCLR` are idempotent on `OUT`, and each is recorded all the same. -/
def Obligations.SetAndClrAreIdempotentOnOut : Prop :=
  ∀ (s : State) (p : Pin), s.cfg.wf = true → s.mode = .idle →
    (∃ t1 t2, exec (.set p) s = .next t1 ∧ exec (.set p) t1 = .next t2 ∧ t2.out = t1.out ∧
      t2.hist = t1.hist ++ [.wr s.cfg.map.gpset (1#32 <<< p.toNat)]) ∧
    (∃ t1 t2, exec (.clr p) s = .next t1 ∧ exec (.clr p) t1 = .next t2 ∧ t2.out = t1.out ∧
      t2.hist = t1.hist ++ [.wr s.cfg.map.gpclr (1#32 <<< p.toNat)])

/-! ### The distributor commands -/

/-- R161, R162: `PRI0 first, last`, whole: which accesses, the bytes in range 0 and all others as before, the flags,
the frame; out of range it faults. -/
def Obligations.Pri0ClearsTheRangesPriorities : Prop :=
  ∀ (s : State) (first last : BitVec 10), s.cfg.wf = true → s.shapeOk = true → s.mode = .idle →
    let f := first.toNat
    let l := last.toNat
    let C := (0#32 ++ 0x8#4 ++ 0#8 ++ last ++ first : BitVec 64)
    (¬ (f ≤ l ∧ l < s.cfg.nline) → exec (.pri0 first last) s = .fault (.illegalOperand C s)) ∧
    (f ≤ l → l < s.cfg.nline →
      ∃ pw tr h fl n e d, exec (.pri0 first last) s = .next { s with
          priw := pw
          tReg := tr
          hist := s.hist ++ h
          lp := fl
          cur := C
          ustep := n
          done := true
          eds := e
          levelDraws := d } ∧
        pw.length = s.priw.length ∧
        (∀ m < s.cfg.nline, byteLane (regAtIndex pw (m / 4)) (m % 4) =
          if f ≤ m ∧ m ≤ l then 0 else byteLane (regAtIndex s.priw (m / 4)) (m % 4)) ∧
        (∀ m < 1024, fl.getLsbD m = (s.lp.getLsbD m || (decide (f ≤ m) && decide (m ≤ l)))) ∧
        h = (List.range' (f / 4) (l / 4 + 1 - f / 4)).flatMap (fun w =>
          let a := s.cfg.map.pri + 4 * w
          if f ≤ 4 * w ∧ 4 * w + 3 ≤ l then [.wr a (regAtIndex pw w)]
          else [.rd a (regAtIndex s.priw w), .wr a (regAtIndex pw w)]) ∧
        tr = (if l % 4 ≠ 3 then regAtIndex s.priw (l / 4) else if f % 4 ≠ 0 then regAtIndex s.priw (f / 4)
          else s.tReg) ∧ n = h.length ∧
        ∀ q < 32, levelKnown s q = true → e.getLsbD q = s.eds.getLsbD q)

/-- R163, R162: `TGT first, last, mask`, whole. -/
def Obligations.TgtWritesTheRangesTargets : Prop :=
  ∀ (s : State) (first last : BitVec 10) (mask : BitVec 8), s.cfg.wf = true → s.shapeOk = true →
    s.mode = .idle →
    let f := first.toNat
    let l := last.toNat
    let C := (0#32 ++ 0x9#4 ++ mask ++ last ++ first : BitVec 64)
    (¬ (f ≤ l ∧ l < s.cfg.nline) → exec (.tgt first last mask) s = .fault (.illegalOperand C s)) ∧
    (f ≤ l → l < s.cfg.nline →
      ∃ tw tr h fl n e d, exec (.tgt first last mask) s = .next { s with
          tgtw := tw
          tReg := tr
          hist := s.hist ++ h
          lt := fl
          cur := C
          ustep := n
          done := true
          eds := e
          levelDraws := d } ∧
        tw.length = s.tgtw.length ∧
        (∀ m < s.cfg.nline, byteLane (regAtIndex tw (m / 4)) (m % 4) =
          if f ≤ m ∧ m ≤ l then mask else byteLane (regAtIndex s.tgtw (m / 4)) (m % 4)) ∧
        (∀ m < 1024, fl.getLsbD m = (s.lt.getLsbD m || (decide (f ≤ m) && decide (m ≤ l)))) ∧
        h = (List.range' (f / 4) (l / 4 + 1 - f / 4)).flatMap (fun w =>
          let a := s.cfg.map.tgt + 4 * w
          if f ≤ 4 * w ∧ 4 * w + 3 ≤ l then [.wr a (regAtIndex tw w)]
          else [.rd a (regAtIndex s.tgtw w), .wr a (regAtIndex tw w)]) ∧
        tr = (if l % 4 ≠ 3 then regAtIndex s.tgtw (l / 4) else if f % 4 ≠ 0 then regAtIndex s.tgtw (f / 4)
          else s.tReg) ∧ n = h.length ∧
        ∀ q < 32, levelKnown s q = true → e.getLsbD q = s.eds.getLsbD q)

/-- R164 (the document's test and its analogue for `TGT`): in range the value, outside it the old value, and no
register of another array. -/
def Obligations.RangeCommandsLeaveOtherLinesAlone : Prop :=
  ∀ (s : State) (first last : BitVec 10) (mask : BitVec 8), s.cfg.wf = true → s.shapeOk = true →
    s.mode = .idle → first.toNat ≤ last.toNat → last.toNat < s.cfg.nline →
    (∃ t, exec (.pri0 first last) s = .next t ∧
      (∀ l < s.cfg.nline, priOf t l = if first.toNat ≤ l ∧ l ≤ last.toNat then 0 else priOf s l) ∧
      ∀ r, (∀ w, r ≠ .priw w) → stored t r = stored s r) ∧
    (∃ t, exec (.tgt first last mask) s = .next t ∧
      (∀ l < s.cfg.nline, tgtOf t l = if first.toNat ≤ l ∧ l ≤ last.toNat then mask else tgtOf s l) ∧
      ∀ r, (∀ w, r ≠ .tgtw w) → stored t r = stored s r)

/-- R166: `SNS rfirst, rlast, pattern`, whole. -/
def Obligations.SnsWritesThePatternToTheRange : Prop :=
  ∀ (s : State) (rfirst rlast : BitVec 6) (pattern : Word), s.cfg.wf = true → s.shapeOk = true →
    s.mode = .idle →
    let f := rfirst.toNat
    let l := rlast.toNat
    let C := (pattern ++ 0xA#4 ++ 0#16 ++ rlast ++ rfirst : BitVec 64)
    (¬ (f ≤ l ∧ l < s.cfg.nline / 16) →
      exec (.sns rfirst rlast pattern) s = .fault (.illegalOperand C s)) ∧
    (f ≤ l → l < s.cfg.nline / 16 →
      (uopsOf s.cfg s.elIn (.sns rfirst rlast pattern)).map kindOf = List.replicate (l - f + 1) .write ∧
      ∃ sw fl e d, exec (.sns rfirst rlast pattern) s = .next { s with
          sense := sw
          hist := s.hist ++ (List.range' f (l - f + 1)).map (fun r => .wr (s.cfg.map.sense0 + 4 * r) pattern)
          ls := fl
          cur := C
          ustep := l - f + 1
          done := true
          eds := e
          levelDraws := d } ∧
        sw.length = s.sense.length ∧
        (∀ r < s.cfg.nline / 16, regAtIndex sw r = if f ≤ r ∧ r ≤ l then pattern else regAtIndex s.sense r) ∧
        (∀ m < 1024, fl.getLsbD m =
          (s.ls.getLsbD m || (decide (16 * f ≤ m) && decide (m ≤ 16 * l + 15)))) ∧
        ∀ q < 32, levelKnown s q = true → e.getLsbD q = s.eds.getLsbD q)

/-- R168, R228: `ENL l`, whole. -/
def Obligations.EnlEnablesAConfiguredLine : Prop :=
  ∀ (s : State) (l : BitVec 10), s.cfg.wf = true → s.shapeOk = true → s.mode = .idle →
    let n := l.toNat / 32
    let x := regAtIndex s.isen n
    let a := s.cfg.map.isen0 + 4 * n
    let y := x ||| 1#32 <<< (l.toNat % 32)
    let C := (0#32 ++ 0xB#4 ++ 0#18 ++ l : BitVec 64)
    let ready := s.lp.getLsbD l.toNat = true ∧ s.lt.getLsbD l.toNat = true ∧ s.ls.getLsbD l.toNat = true
    (uopsOf s.cfg s.elIn (.enl l)).map kindOf = [.read, .write] ∧
    (¬ l.toNat < s.cfg.nline → exec (.enl l) s = .fault (.illegalOperand C s)) ∧
    (l.toNat < s.cfg.nline → ¬ ready → exec (.enl l) s = .fault (.lineNotConfigured C s)) ∧
    (l.toNat < s.cfg.nline → ready →
      ∃ e d, exec (.enl l) s = .next { s with
          isen := s.isen.set n y
          tReg := x
          hist := s.hist ++ [.rd a x, .wr a y]
          cur := C
          ustep := 2
          done := true
          eds := e
          levelDraws := d } ∧
        ∀ q < 32, levelKnown s q = true → e.getLsbD q = s.eds.getLsbD q)

/-- R169 (the document's test): exactly one bit, and idempotent. -/
def Obligations.EnlSetsExactlyOneBitIdempotently : Prop :=
  ∀ (s : State) (l : BitVec 10), s.cfg.wf = true → s.shapeOk = true → s.mode = .idle →
    l.toNat < s.cfg.nline → lineReady s l.toNat = true →
    ∃ t1 t2, exec (.enl l) s = .next t1 ∧ exec (.enl l) t1 = .next t2 ∧
      (∀ n b, b < 32 → (regAtIndex t1.isen n).getLsbD b =
        ((regAtIndex s.isen n).getLsbD b || (decide (n = l.toNat / 32) && decide (b = l.toNat % 32)))) ∧
      (∀ r, stored t2 r = stored t1 r)

/-- R170, R171: `FWD`, whole: a blind write of all 32 bits, decided by equality of `el_in` with `EL_MAX`, where `el_in`
is the level in the step that performs the write, not the one at acceptance. -/
def Obligations.FwdWritesTheGroupEnablesOfTheLevel : Prop :=
  ∀ s : State, s.cfg.wf = true →
    let v := if s.elIn = s.cfg.elMax then s.cfg.grp0En ||| s.cfg.grp1En else s.cfg.grp1En
    (uopsOf s.cfg s.elIn .fwd).map kindOf = [.write] ∧
    (s.mode = .idle →
      ∃ e d, exec .fwd s = .next { s with
          ctrl := v
          hist := s.hist ++ [.wr s.cfg.map.ctrl v]
          cur := (0#32 ++ 0xC#4 ++ 0#28 : BitVec 64)
          ustep := 1
          done := true
          eds := e
          levelDraws := d } ∧
        ∀ q < 32, levelKnown s q = true → e.getLsbD q = s.eds.getLsbD q) ∧
    (∀ rest, s.mode = .busy → s.cur = (0#32 ++ 0xC#4 ++ 0#28 : BitVec 64) → s.ustep = 0 → s.moves = .seq :: rest →
      ∃ e d, step s = .next { s with
          moves := rest
          ctrl := v
          hist := s.hist ++ [.wr s.cfg.map.ctrl v]
          ustep := 1
          mode := .idle
          done := true
          eds := e
          levelDraws := d } ∧
        ∀ q < 32, levelKnown s q = true → e.getLsbD q = s.eds.getLsbD q)

/-! ### Frames and whole-machine rules -/

/-- R73, R82: a command changes no byte of the register space outside the words it writes, whose addresses are
those of its expansion. -/
def Obligations.CommandsChangeOnlyTheBytesTheyWrite : Prop :=
  ∀ (i : Instr) (s t : State) (a : Nat), exec i s = .next t → ¬ writesByte s.cfg s.elIn i a →
    byteAt t a = byteAt s a

/-- R160: a distributor command does not wait, and touches no GPIO register, `OUT`, or the latch of a pin whose level
is described. -/
def Obligations.DistributorCommandsLeaveTheGpioBankAlone : Prop :=
  ∀ (i : Instr) (s t : State), s.cfg.wf = true → distributorFamily i = true → exec i s = .next t →
    t.fsel = s.fsel ∧ t.pull = s.pull ∧ t.ren = s.ren ∧ t.fen = s.fen ∧ t.out = s.out ∧
    t.settle = s.settle ∧ t.fdone = s.fdone ∧ t.pdone = s.pdone ∧
    ∀ q < 32, levelKnown s q = true → t.eds.getLsbD q = s.eds.getLsbD q

/-- R30, R31, R34: only `ENR` and `SETG` write `REN`, only `ENF` writes `FEN`, only `SET`, `CLR` and `SETG` change
`OUT`, over every step of every agent but reset. -/
def Obligations.OnlyTheNamedCommandsWriteRenFenOut : Prop :=
  ∀ s t : State, s.Inv → s.noReset → step s = .next t →
    (t.ren ≠ s.ren → ∃ i p, commandAtWork s i ∧ (i = .enr p ∨ i = .setg p)) ∧
    (t.fen ≠ s.fen → ∃ i p, commandAtWork s i ∧ i = .enf p) ∧
    (t.out ≠ s.out → ∃ i p, commandAtWork s i ∧ (i = .set p ∨ i = .clr p ∨ i = .setg p))

/-- R50, R51: no step but reset clears a tracking flag. -/
def Obligations.TrackingFlagsAreClearedOnlyByReset : Prop :=
  ∀ s t : State, s.noReset → step s = .next t →
    s.fdone &&& t.fdone = s.fdone ∧ s.pdone &&& t.pdone = s.pdone ∧
    s.lp &&& t.lp = s.lp ∧ s.lt &&& t.lt = s.lt ∧ s.ls &&& t.ls = s.ls

/-- R42, R196: nothing but reset clears a latched edge, so `gpio_irq` stays 1. -/
def Obligations.LatchedEdgesStayUntilReset : Prop :=
  ∀ s t : State, s.noReset → step s = .next t →
    s.eds &&& t.eds = s.eds ∧ (gpioIrq s = true → gpioIrq t = true)

/-- R39, R172: no step but reset clears an enable bit, and none makes `CTRL` zero again. -/
def Obligations.EnableBitsAndForwardingAreOneWay : Prop :=
  ∀ s t : State, s.noReset → step s = .next t →
    (∀ l, lineEnabled s l = true → lineEnabled t l = true) ∧
    (s.Inv → s.ctrl ≠ 0 → t.ctrl ≠ 0)

/-- R41, R172: a Configured distributor stays Configured until reset. -/
def Obligations.ConfiguredStaysConfiguredUntilReset : Prop :=
  ∀ s t : State, s.Inv → s.noReset → configured s = true → step s = .next t → configured t = true

/-- R195, R225: with no line enabled nothing is signalled to the core; a signalled line is enabled, targeted at core
0, and its group forwarded. R195 says of the formula that it "is the spec's reading", so this is no claim about
delivery: by 92_eei_decisions.md D29 the direction in which a line does signal errs toward proving on a chip that
gates on priority or sense as well. -/
def Obligations.OnlyEnabledForwardedTargetedLinesSignal : Prop :=
  ∀ s : State,
    (irqOut s = true ↔ ∃ l < s.cfg.nline, pending s l = true ∧ lineEnabled s l = true ∧
      (s.ctrl &&& (if s.cfg.lineGroup.getLsbD l then s.cfg.grp1En else s.cfg.grp0En)) ≠ 0 ∧
      (tgtOf s l).getLsbD 0 = true) ∧
    (disabled s = true → irqOut s = false)

/-! ### The agents' steps -/

/-- R21, R112, R113: one sequencer step performs micro-operation `ustep`, its access, the check and the effects
attached to it, and counts it; after the last one the command is complete, in the same step. Nothing else changes
but the edge latch, bit for bit as R44 says (by the enables at the step's beginning, log 10), and the draw counter.
With no move scheduled the sequencer takes the same step (log 5). -/
def Obligations.SequencerStepAdvancesAndCompletes : Prop :=
  ∀ (s : State) (i : Instr) (u : Uop) (rest : List Move), s.mode = .busy →
    (s.moves = .seq :: rest ∨ (s.moves = [] ∧ rest = [])) →
    decode s.cur = .ok i → (uopsOf s.cfg s.elIn i)[s.ustep]? = some u → uopEnabled u s = true →
    let last := decide (s.ustep + 1 = (uopsOf s.cfg s.elIn i).length)
    let stepsTo := fun (x : State) => ∃ e d,
      let t := { applyAfters x u.after with
        ustep := s.ustep + 1, mode := if last then .idle else .busy, done := last, eds := e, levelDraws := d }
      step s = .next t ∧ ∀ q < 32, e.getLsbD q = (s.eds.getLsbD q || latchesEdge s t q)
    (u.action = .waitSettle → stepsTo { s with moves := rest }) ∧
    (∀ a r, u.action = .read a → regAt s.cfg a = some r →
      let x := { s with
        moves := rest
        tReg := regRead s r
        hist := s.hist ++ [.rd a (regRead s r)]
        readDraws := s.readDraws + drawsOf s r }
      (needOk u.needBit x = true → stepsTo x) ∧
      (needOk u.needBit x = false → step s = .fault (.guardedSetNotArmed s.cur x))) ∧
    (∀ a v r, u.action = .write a v → regAt s.cfg a = some r →
      stepsTo { regWrite s (v.eval s.tReg) r with moves := rest, hist := s.hist ++ [.wr a (v.eval s.tReg)] })

/-- R46: a `WaitSettle` holds the sequencer until `settle = 0`; a turn taken before leaves everything as it is
(log 21), and when no move is scheduled the model's default order (log 5) gives the step to the clock, which R235
says ticks for ever. -/
def Obligations.WaitSettleHoldsTheSequencer : Prop :=
  ∀ (s : State) (i : Instr) (u : Uop), s.mode = .busy → decode s.cur = .ok i →
    (uopsOf s.cfg s.elIn i)[s.ustep]? = some u → u.action = .waitSettle → s.settle ≠ 0 →
    (∀ rest, s.moves = .seq :: rest → step s = .next { s with moves := rest }) ∧
    (s.moves = [] → step s = .next (tick s))

/-- R46, R226: whenever a held access is next, the timer is 0: an invariant of every step. -/
def Obligations.HeldAccessesFindTheTimerAtZero : Prop :=
  ∀ s t : State, s.heldAccessesSettled → step s = .next t → t.heldAccessesSettled

/-- R22, R46: the clock counts `settle` down, stops at 0, and changes nothing else but the latch of a pin whose level
is not described (log 7) and the end of the `done` pulse (log 15). -/
def Obligations.ClockCountsTheSettleTimerDown : Prop :=
  ∀ (s : State) (rest : List Move), s.moves = .clock :: rest →
    ∃ e d, step s = .next { s with
        moves := rest, settle := s.settle - 1, done := false, eds := e, levelDraws := d } ∧
      ∀ q < 32, levelKnown s q = true → e.getLsbD q = s.eds.getLsbD q

/-- R44, R49: the pad agent changes `pad_in`, and latches exactly the armed edges of the input pins. -/
def Obligations.PadChangesLatchArmedEdgesOfInputs : Prop :=
  ∀ (s : State) (v : Word) (rest : List Move), s.cfg.wf = true → s.moves = .pad v :: rest →
    ∃ e d, step s = .next { s with moves := rest, padIn := v, eds := e, levelDraws := d } ∧
      ∀ q < 32,
        (fnCode s q = s.cfg.fselCode.output → e.getLsbD q = s.eds.getLsbD q) ∧
        (fnCode s q = s.cfg.fselCode.input → e.getLsbD q = (s.eds.getLsbD q ||
          (s.ren.getLsbD q && !s.padIn.getLsbD q && v.getLsbD q) ||
          (s.fen.getLsbD q && s.padIn.getLsbD q && !v.getLsbD q)))

/-- R48, R232, R195: `el_in` and the other peripherals' pending inputs change by a move of their own, at any time, and
nothing else does but the latch of a pin whose level is not described (log 7). That `el_in` may change while `FWD` is
`Busy` too follows R232 against 93 U18 (log 23). -/
def Obligations.InputMovesChangeOnlyTheirInput : Prop :=
  ∀ (s : State) (rest : List Move),
    (∀ v, s.moves = .elIn v :: rest → stepsQuietlyTo s { s with moves := rest, elIn := v }) ∧
    ∀ v, s.moves = .lines v :: rest → stepsQuietlyTo s { s with moves := rest, extPending := v }

/-- R206, R232: a host read returns the register's word and changes nothing of PMGC. The model's choices: the word
goes to `hostRd` and the read is no event of the history (log 13); the word of a write-only register is a free value
(log 8). -/
def Obligations.HostReadsChangeNothing : Prop :=
  ∀ (s : State) (a : Nat) (r : Reg) (rest : List Move), s.moves = .hostRead a :: rest →
    regAt s.cfg a = some r →
    ∃ v d, step s = .next { s with moves := rest, hostRd := v, readDraws := d } ∧
      ∀ w, stored s r = some w → v = w ∧ d = s.readDraws

/-- R72, R73: what a write leaves to be read, by register kind, and that it leaves every other register alone. -/
def Obligations.PortWriteThenReadByRegisterKind : Prop :=
  ∀ (s : State) (a : Nat) (v : Word) (r : Reg), s.shapeOk = true → regAt s.cfg a = some r →
    ∃ t, memWrite a v s = .next t ∧ t.hist = s.hist ++ [.wr a v] ∧
      stored t r = (match r with
        | .gpset => none
        | .gpclr => none
        | .isen n => some (regAtIndex s.isen n ||| v)
        | _ => some v) ∧
      (∀ r', r' ≠ r → stored t r' = stored s r') ∧
      t.out = (match r with
        | .gpset => s.out ||| v
        | .gpclr => s.out &&& ~~~v
        | _ => s.out)

/-- A step runs the decoded command: with no move scheduled, in `Idle`, the host's next descriptor is decoded and
its meaning run, the descriptor taken off the list (R101; log 5, log 14). -/
def Obligations.StepRunsTheDecodedCommand : Prop :=
  (∀ (s : State) (C : Descriptor) (rest : List Descriptor) (i : Instr), s.mode = .idle → s.moves = [] →
    s.cmds = C :: rest → decode C = .ok i → step s = exec i { s with cmds := rest } ∧ encode i = C) ∧
  (∀ (s : State) (w : Nat) (i : Instr), decodeTableWord 64 w = some i →
    step (s.withFetchWord 64 w) = exec i { s with mode := .idle, moves := [] })

/-- R220, R235: in `Idle` with nothing presented PMGC waits while the clock ticks, for ever. That an idle step with
nothing scheduled is a clock cycle is the model's default order (log 5, log 14), and that it ends a `done` pulse is
log 15. -/
def Obligations.IdleWaitsForACommand : Prop :=
  ∀ s : State, s.mode = .idle → s.moves = [] → s.cmds = [] →
    stepsQuietlyTo s { s with settle := s.settle - 1, done := false }

/-- R233: a run that is over stays over and neither faults nor changes a register or the history until a reset; it is
not over while `Busy`, nor while a descriptor is still to be presented, from the host's list or by a move. -/
def Obligations.RunOverOnlyWhenNothingIsLeftToRun : Prop :=
  (∀ s : State, s.mode = .busy ∨ s.cmds ≠ [] ∨ (∃ C, .present C ∈ s.moves) → runOver s = false) ∧
  ∀ s : State, runOver s = true →
    (∀ f, step s ≠ .fault f) ∧
    (s.noReset → ∀ t, step s = .next t →
      runOver t = true ∧ t.hist = s.hist ∧ t.out = s.out ∧ t.tReg = s.tReg ∧ ∀ r, stored t r = stored s r)

/-- R13, R21, R112, R113, R235: what `exec` answers is what the agents' single steps reach: presenting the
descriptor, then sequencer turns and clock cycles only. -/
def Obligations.SingleStepsReachWhatExecAnswers : Prop :=
  ∀ (i : Instr) (s : State), s.mode = .idle → s.moves = [] →
    ∃ ms : List Move, (∀ m ∈ ms, m = .clock ∨ m = .seq) ∧
      Host.Core.run core (ms.length + 1) { s with moves := .present (encode i) :: ms } = exec i s

/-! ### Invariants -/

/-- The invariant holds after reset, under every configuration that meets R8 and R80 and for every draw of the
unspecified registers, and in particular at `State.reset`. -/
def Obligations.ResetMeetsTheInvariant : Prop :=
  (∀ (c : Config) (u : ResetDraw), c.wf = true → (State.resetWith c u).Inv) ∧ State.reset.Inv

/-- Every step of every agent keeps the invariant: the register space keeps its shape, the timer its bound, the
latched command is one that passed its checks with `ustep` inside its expansion, and every enabled line has its
priority, target and sense written (R168, R228). -/
def Obligations.EveryStepKeepsTheInvariant : Prop :=
  ∀ s t : State, s.Inv → step s = .next t → t.Inv

/-- R55: no step changes the configuration. -/
def Obligations.NoStepChangesTheConfiguration : Prop :=
  ∀ s t : State, step s = .next t → t.cfg = s.cfg

/-- R21: no expansion has more than 258 micro-operations, and with `NLINE = 1024` one has as many. -/
def Obligations.LongestExpansionHas258MicroOperations : Prop :=
  (∀ (c : Config) (el : BitVec 2) (i : Instr), c.wf = true → i.wf c = true → (uopsOf c el i).length ≤ 258) ∧
  ∀ (c : Config) (el : BitVec 2), c.nline = 1024 → (uopsOf c el (.pri0 1 1022)).length = 258
end

