-- ==== Sys2Proof/Laws/Bits.lean ====
section
/-! SUPPORT. What the bit-level helpers compute, bit by bit: field replacement, byte lanes, lane masks, line spans. -/

namespace Sys2Proof.Laws

open Sys2Proof Sys2Proof.Machine

/-! ### Arrays of registers -/

theorem regAtIndex_set_self (l : List Word) (n : Nat) (v : Word) (h : n < l.length) :
    regAtIndex (l.set n v) n = v := by
  simp [regAtIndex, List.getD_eq_getElem?_getD, h]

theorem regAtIndex_set_ne (l : List Word) (n m : Nat) (v : Word) (h : m ≠ n) :
    regAtIndex (l.set n v) m = regAtIndex l m := by
  simp [regAtIndex, List.getD_eq_getElem?_getD, List.getElem?_set_ne (Ne.symm h)]

theorem regAtIndex_of_length_le (l : List Word) (n : Nat) (h : l.length ≤ n) : regAtIndex l n = 0 := by
  simp [regAtIndex, List.getD_eq_getElem?_getD, h]

/-! ### Words made of bits -/

theorem getLsbD_wordOfBits (f : Nat → Bool) (n p : Nat) (hn : n ≤ 32) :
    (wordOfBits f n).getLsbD p = (decide (p < n) && f p) := by
  induction n with
  | zero => simp [wordOfBits]
  | succ n ih =>
    have ih := ih (by omega)
    rw [wordOfBits, BitVec.getLsbD_or, ih]
    by_cases hp : p = n
    · subst hp
      have : p < 32 := by omega
      by_cases hf : f p <;> simp [hf, this]
    · have h1 : decide (p < n + 1) = decide (p < n) := by simp; omega
      have h2 : ¬ (p - n = 0 ∧ n ≤ p) := by omega
      rw [h1]
      by_cases hf : f n
      · simp only [hf, if_true, BitVec.getLsbD_shiftLeft, BitVec.getLsbD_one]
        by_cases hlt : p < n
        · simp [hlt]
        · have : p - n ≠ 0 := by omega
          simp [this]
      · simp [hf]

theorem getLsbD_pinBit (p b : Nat) (hp : p < 32) : (pinBit p).getLsbD b = decide (b = p) := by
  unfold pinBit
  by_cases h : b = p
  · subst h; simp [hp]
  · by_cases hlt : b < p
    · simp [hlt, h]
    · have : b - p ≠ 0 := by omega
      simp [h, this]

theorem getLsbD_lineSpan (lo hi l : Nat) (hhi : hi < 1024) (hl : l < 1024) :
    (lineSpan lo hi).getLsbD l = (decide (lo ≤ l) && decide (l ≤ hi)) := by
  unfold lineSpan
  rw [BitVec.getLsbD_and, BitVec.getLsbD_shiftLeft, BitVec.getLsbD_ushiftRight]
  simp only [BitVec.getLsbD_allOnes]
  by_cases h1 : lo ≤ l <;> by_cases h2 : l ≤ hi <;> simp [h1, h2, hl] <;> omega

/-! ### Replacing a field: `(T & ~mask) | value` -/

/-- A field of `w` bits at `k` is replaced and every other bit kept. -/
theorem getLsbD_replaceField (x m v : Word) (b : Nat) :
    ((x &&& ~~~m) ||| v).getLsbD b = ((x.getLsbD b && (decide (b < 32) && !m.getLsbD b)) || v.getLsbD b) := by
  simp

/-- The mask of `w` ones at bit `k`. -/
theorem getLsbD_onesAt (w k b : Nat) (hk : k + w ≤ 32) :
    ((BitVec.ofNat 32 (2 ^ w - 1)) <<< k).getLsbD b = (decide (k ≤ b) && decide (b < k + w)) := by
  rw [BitVec.getLsbD_shiftLeft, BitVec.getLsbD_ofNat]
  by_cases h1 : b < k
  · have : ¬ k ≤ b := by omega
    simp [h1, this]
  · by_cases h2 : b < k + w
    · have h3 : b - k < w := by omega
      have h4 : k ≤ b := by omega
      have h5 : b < 32 := by omega
      simp [h1, h2, h3, h4, h5]; omega
    · have h3 : ¬ b - k < w := by omega
      simp [h1, h2, h3]

/-- A value of `w` bits moved up to bit `k`. -/
theorem getLsbD_valueAt {w : Nat} (v : BitVec w) (k b : Nat) (hk : k + w ≤ 32) :
    (v.zeroExtend 32 <<< k).getLsbD b = (decide (k ≤ b) && v.getLsbD (b - k)) := by
  rw [BitVec.getLsbD_shiftLeft, BitVec.getLsbD_setWidth]
  by_cases h1 : b < k
  · have : ¬ k ≤ b := by omega
    simp [h1, this]
  · have h4 : k ≤ b := by omega
    by_cases h2 : b < 32
    · have : b - k < 32 := by omega
      simp [h1, h2, h4, this]
    · have : w ≤ b - k := by omega
      simp [h2, BitVec.getLsbD_of_ge _ _ this]

/-- Reading back a replaced field. -/
theorem extract_replaceField {w : Nat} (x : Word) (v : BitVec w) (k : Nat) (hk : k + w ≤ 32) :
    ((x &&& ~~~((BitVec.ofNat 32 (2 ^ w - 1)) <<< k)) ||| (v.zeroExtend 32 <<< k)).extractLsb' k w = v := by
  apply BitVec.eq_of_getLsbD_eq
  intro i hi
  rw [BitVec.getLsbD_extractLsb', getLsbD_replaceField, getLsbD_onesAt _ _ _ hk, getLsbD_valueAt _ _ _ hk]
  have h1 : k ≤ k + i := by omega
  have h2 : k + i < k + w := by omega
  simp [hi, h1]

/-- A bit outside a replaced field is kept. -/
theorem getLsbD_replaceField_outside {w : Nat} (x : Word) (v : BitVec w) (k b : Nat) (hk : k + w ≤ 32)
    (hb : b < 32) (hout : b < k ∨ k + w ≤ b) :
    ((x &&& ~~~((BitVec.ofNat 32 (2 ^ w - 1)) <<< k)) ||| (v.zeroExtend 32 <<< k)).getLsbD b = x.getLsbD b := by
  rw [getLsbD_replaceField, getLsbD_onesAt _ _ _ hk, getLsbD_valueAt _ _ _ hk]
  rcases hout with h | h
  · have : ¬ k ≤ b := by omega
    simp [hb, this]
  · have h1 : ¬ b < k + w := by omega
    have h2 : w ≤ b - k := by omega
    simp [hb, h1, BitVec.getLsbD_of_ge _ _ h2]

/-! ### The value a write writes -/

@[simp] theorem eval_const (t v : Word) : (WriteValue.const v).eval t = v := rfl

@[simp] theorem eval_put (t put : Word) : (WriteValue.modify 0#32 put).eval t = t ||| put := by
  simp only [WriteValue.eval]
  rw [show (~~~0#32) = BitVec.allOnes 32 from rfl, BitVec.and_allOnes]

@[simp] theorem eval_clear (t clear : Word) : (WriteValue.modify clear 0#32).eval t = t &&& ~~~clear := by
  simp only [WriteValue.eval]
  exact BitVec.or_zero

theorem eval_modify (t clear put : Word) : (WriteValue.modify clear put).eval t = (t &&& ~~~clear) ||| put := rfl

/-! ### Byte lanes (20_memory.md R75) and lane masks (41_gic_distributor.md R162) -/

theorem getLsbD_byteLane (w : Word) (b i : Nat) :
    (byteLane w b).getLsbD i = (decide (i < 8) && w.getLsbD (8 * b + i)) := by
  simp [byteLane, BitVec.getLsbD_extractLsb']

theorem getLsbD_ite_byte (c : Prop) [Decidable c] (b i : Nat) (hb : b < 4) :
    (if c then 0xFF#32 <<< (8 * b) else 0 : Word).getLsbD i = (decide c && decide (i / 8 = b)) := by
  have hff := getLsbD_onesAt 8 (8 * b) i (by omega)
  by_cases hc : c
  · simp only [hc, if_true, decide_true, Bool.true_and]
    rw [show (0xFF#32 : Word) = BitVec.ofNat 32 (2 ^ 8 - 1) from rfl, hff]
    by_cases h : i / 8 = b
    · have h1 : 8 * b ≤ i := by omega
      have h2 : i < 8 * b + 8 := by omega
      simp [h, h1, h2]
    · have h1 : ¬ (8 * b ≤ i ∧ i < 8 * b + 8) := by omega
      simp only [h, decide_false]
      simpa using h1
  · simp [hc]

/-- A bit of the lane mask is set iff the line of its lane is in range. -/
theorem getLsbD_laneMask (first last w i : Nat) (hi : i < 32) :
    (laneMask first last w).getLsbD i =
      (decide (first ≤ 4 * w + i / 8) && decide (4 * w + i / 8 ≤ last)) := by
  unfold laneMask
  simp only [BitVec.getLsbD_or, getLsbD_ite_byte _ 0 _ (by decide), getLsbD_ite_byte _ 1 _ (by decide),
    getLsbD_ite_byte _ 2 _ (by decide), getLsbD_ite_byte _ 3 _ (by decide)]
  have h : i / 8 = 0 ∨ i / 8 = 1 ∨ i / 8 = 2 ∨ i / 8 = 3 := by omega
  rcases h with h | h | h | h <;> simp [h]

/-- The lane mask is full iff all four lines are in range. -/
theorem laneMask_eq_allOnes (first last w : Nat) :
    laneMask first last w = BitVec.allOnes 32 ↔ first ≤ 4 * w ∧ 4 * w + 3 ≤ last := by
  constructor
  · intro h
    have h0 := congrArg (BitVec.getLsbD · 0) h
    have h3 := congrArg (BitVec.getLsbD · 24) h
    simp only [getLsbD_laneMask _ _ _ _ (show (0 : Nat) < 32 by decide),
      getLsbD_laneMask _ _ _ _ (show (24 : Nat) < 32 by decide), BitVec.getLsbD_allOnes] at h0 h3
    simp at h0 h3
    omega
  · rintro ⟨h1, h2⟩
    apply BitVec.eq_of_getLsbD_eq
    intro i hi
    have : i / 8 ≤ 3 := by omega
    rw [getLsbD_laneMask _ _ _ _ hi, BitVec.getLsbD_allOnes]
    have h3 : first ≤ 4 * w + i / 8 := by omega
    have h4 : 4 * w + i / 8 ≤ last := by omega
    simp only [h3, h4, hi, decide_true, Bool.and_self]

/-- A lane of `(x & ~m) | (v & m)` for a lane mask `m`: `v`'s lane if the line is in range, else `x`'s. -/
theorem byteLane_merge (x v : Word) (first last w b : Nat) (hb : b < 4) :
    byteLane ((x &&& ~~~(laneMask first last w)) ||| (v &&& laneMask first last w)) b =
      if first ≤ 4 * w + b ∧ 4 * w + b ≤ last then byteLane v b else byteLane x b := by
  apply BitVec.eq_of_getLsbD_eq
  intro i hi
  have h32 : 8 * b + i < 32 := by omega
  have hdiv : (8 * b + i) / 8 = b := by omega
  have hm := getLsbD_laneMask first last w (8 * b + i) h32
  rw [hdiv] at hm
  by_cases hc : first ≤ 4 * w + b ∧ 4 * w + b ≤ last
  · have hm' : (laneMask first last w).getLsbD (8 * b + i) = true := by
      rw [hm]; simpa using hc
    rw [if_pos hc, getLsbD_byteLane, getLsbD_byteLane, getLsbD_replaceField, BitVec.getLsbD_and, hm']
    simp only [Bool.not_true, Bool.and_false, Bool.false_or, Bool.and_true]
  · have hm' : (laneMask first last w).getLsbD (8 * b + i) = false := by
      rw [hm]; simpa using hc
    rw [if_neg hc, getLsbD_byteLane, getLsbD_byteLane, getLsbD_replaceField, BitVec.getLsbD_and, hm']
    simp only [Bool.not_false, Bool.and_false, Bool.or_false, Bool.and_true, h32, decide_true]

theorem getLsbD_rep4 (v : BitVec 8) (i : Nat) (hi : i < 32) : (rep4 v).getLsbD i = v.getLsbD (i % 8) := by
  show BitVec.getLsbD (w := 8 + 8 + 8 + 8) (v ++ v ++ v ++ v) i = _
  rw [BitVec.getLsbD_append, BitVec.getLsbD_append, BitVec.getLsbD_append]
  by_cases h1 : i < 8
  · rw [if_pos h1, Nat.mod_eq_of_lt h1]
  by_cases h2 : i - 8 < 8
  · rw [if_neg h1, if_pos h2, show i % 8 = i - 8 by omega]
  by_cases h3 : i - 8 - 8 < 8
  · rw [if_neg h1, if_neg h2, if_pos h3, show i % 8 = i - 8 - 8 by omega]
  · rw [if_neg h1, if_neg h2, if_neg h3, show i % 8 = i - 8 - 8 - 8 by omega]

theorem byteLane_rep4 (v : BitVec 8) (b : Nat) (hb : b < 4) : byteLane (rep4 v) b = v := by
  apply BitVec.eq_of_getLsbD_eq
  intro i hi
  rw [getLsbD_byteLane, getLsbD_rep4 _ _ (by omega), show (8 * b + i) % 8 = i by omega]
  simp only [hi, decide_true, Bool.true_and]

theorem byteLane_zero (b : Nat) : byteLane 0 b = 0 := by
  apply BitVec.eq_of_getLsbD_eq
  simp [getLsbD_byteLane]

end Sys2Proof.Laws
end

