-- ==== Sys2Proof/Laws/State.lean ====
section
/-! SUPPORT. One lemma per field for each update that has a name, so that no later proof unfolds a record update. -/

namespace Sys2Proof.Laws

open Sys2Proof Sys2Proof.Machine

/-! ### commit: the end of an agent step (10_state.md R43, R44) -/

@[simp] theorem commit_cfg (s s' : State) : (commit s s').cfg = s'.cfg := rfl
@[simp] theorem commit_fsel (s s' : State) : (commit s s').fsel = s'.fsel := rfl
@[simp] theorem commit_pull (s s' : State) : (commit s s').pull = s'.pull := rfl
@[simp] theorem commit_ren (s s' : State) : (commit s s').ren = s'.ren := rfl
@[simp] theorem commit_fen (s s' : State) : (commit s s').fen = s'.fen := rfl
@[simp] theorem commit_priw (s s' : State) : (commit s s').priw = s'.priw := rfl
@[simp] theorem commit_tgtw (s s' : State) : (commit s s').tgtw = s'.tgtw := rfl
@[simp] theorem commit_sense (s s' : State) : (commit s s').sense = s'.sense := rfl
@[simp] theorem commit_isen (s s' : State) : (commit s s').isen = s'.isen := rfl
@[simp] theorem commit_ctrl (s s' : State) : (commit s s').ctrl = s'.ctrl := rfl
@[simp] theorem commit_out (s s' : State) : (commit s s').out = s'.out := rfl
@[simp] theorem commit_tReg (s s' : State) : (commit s s').tReg = s'.tReg := rfl
@[simp] theorem commit_mode (s s' : State) : (commit s s').mode = s'.mode := rfl
@[simp] theorem commit_cur (s s' : State) : (commit s s').cur = s'.cur := rfl
@[simp] theorem commit_ustep (s s' : State) : (commit s s').ustep = s'.ustep := rfl
@[simp] theorem commit_settle (s s' : State) : (commit s s').settle = s'.settle := rfl
@[simp] theorem commit_done (s s' : State) : (commit s s').done = s'.done := rfl
@[simp] theorem commit_fdone (s s' : State) : (commit s s').fdone = s'.fdone := rfl
@[simp] theorem commit_pdone (s s' : State) : (commit s s').pdone = s'.pdone := rfl
@[simp] theorem commit_lp (s s' : State) : (commit s s').lp = s'.lp := rfl
@[simp] theorem commit_lt (s s' : State) : (commit s s').lt = s'.lt := rfl
@[simp] theorem commit_ls (s s' : State) : (commit s s').ls = s'.ls := rfl
@[simp] theorem commit_hist (s s' : State) : (commit s s').hist = s'.hist := rfl
@[simp] theorem commit_elIn (s s' : State) : (commit s s').elIn = s'.elIn := rfl
@[simp] theorem commit_padIn (s s' : State) : (commit s s').padIn = s'.padIn := rfl
@[simp] theorem commit_extPending (s s' : State) : (commit s s').extPending = s'.extPending := rfl
@[simp] theorem commit_cmds (s s' : State) : (commit s s').cmds = s'.cmds := rfl
@[simp] theorem commit_moves (s s' : State) : (commit s s').moves = s'.moves := rfl
@[simp] theorem commit_hostRd (s s' : State) : (commit s s').hostRd = s'.hostRd := rfl
@[simp] theorem commit_readDraws (s s' : State) : (commit s s').readDraws = s'.readDraws := rfl
@[simp] theorem commit_levelDraws (s s' : State) : (commit s s').levelDraws = s.levelDraws + 1 := rfl

/-! ### tick, ticks: the clock (10_state.md R46) -/

@[simp] theorem tick_cfg (s : State) : (tick s).cfg = s.cfg := rfl
@[simp] theorem tick_fsel (s : State) : (tick s).fsel = s.fsel := rfl
@[simp] theorem tick_pull (s : State) : (tick s).pull = s.pull := rfl
@[simp] theorem tick_ren (s : State) : (tick s).ren = s.ren := rfl
@[simp] theorem tick_fen (s : State) : (tick s).fen = s.fen := rfl
@[simp] theorem tick_priw (s : State) : (tick s).priw = s.priw := rfl
@[simp] theorem tick_tgtw (s : State) : (tick s).tgtw = s.tgtw := rfl
@[simp] theorem tick_sense (s : State) : (tick s).sense = s.sense := rfl
@[simp] theorem tick_isen (s : State) : (tick s).isen = s.isen := rfl
@[simp] theorem tick_ctrl (s : State) : (tick s).ctrl = s.ctrl := rfl
@[simp] theorem tick_out (s : State) : (tick s).out = s.out := rfl
@[simp] theorem tick_tReg (s : State) : (tick s).tReg = s.tReg := rfl
@[simp] theorem tick_mode (s : State) : (tick s).mode = s.mode := rfl
@[simp] theorem tick_cur (s : State) : (tick s).cur = s.cur := rfl
@[simp] theorem tick_ustep (s : State) : (tick s).ustep = s.ustep := rfl
@[simp] theorem tick_fdone (s : State) : (tick s).fdone = s.fdone := rfl
@[simp] theorem tick_pdone (s : State) : (tick s).pdone = s.pdone := rfl
@[simp] theorem tick_lp (s : State) : (tick s).lp = s.lp := rfl
@[simp] theorem tick_lt (s : State) : (tick s).lt = s.lt := rfl
@[simp] theorem tick_ls (s : State) : (tick s).ls = s.ls := rfl
@[simp] theorem tick_hist (s : State) : (tick s).hist = s.hist := rfl
@[simp] theorem tick_elIn (s : State) : (tick s).elIn = s.elIn := rfl
@[simp] theorem tick_padIn (s : State) : (tick s).padIn = s.padIn := rfl
@[simp] theorem tick_extPending (s : State) : (tick s).extPending = s.extPending := rfl
@[simp] theorem tick_cmds (s : State) : (tick s).cmds = s.cmds := rfl
@[simp] theorem tick_moves (s : State) : (tick s).moves = s.moves := rfl
@[simp] theorem tick_hostRd (s : State) : (tick s).hostRd = s.hostRd := rfl
@[simp] theorem tick_readDraws (s : State) : (tick s).readDraws = s.readDraws := rfl
@[simp] theorem tick_settle (s : State) : (tick s).settle = s.settle - 1 := rfl
@[simp] theorem tick_done (s : State) : (tick s).done = false := rfl
@[simp] theorem tick_levelDraws (s : State) : (tick s).levelDraws = s.levelDraws + 1 := rfl

/-- `n` clock cycles change only the timer, the end of the `done` pulse, the edge latch and the draw counter. -/
theorem ticks_eq (n : Nat) (s : State) :
    ticks n s = { s with
      settle := s.settle - n
      done := if n = 0 then s.done else false
      eds := (ticks n s).eds
      levelDraws := s.levelDraws + n } := by
  induction n generalizing s with
  | zero => rfl
  | succ n ih =>
    rw [ticks, ih (tick s)]
    simp only [tick, commit, Nat.sub_sub]
    congr 1
    · omega
    · split <;> simp
    · omega

@[simp] theorem ticks_cfg (n : Nat) (s : State) : (ticks n s).cfg = s.cfg := by rw [ticks_eq]
@[simp] theorem ticks_fsel (n : Nat) (s : State) : (ticks n s).fsel = s.fsel := by rw [ticks_eq]
@[simp] theorem ticks_pull (n : Nat) (s : State) : (ticks n s).pull = s.pull := by rw [ticks_eq]
@[simp] theorem ticks_ren (n : Nat) (s : State) : (ticks n s).ren = s.ren := by rw [ticks_eq]
@[simp] theorem ticks_fen (n : Nat) (s : State) : (ticks n s).fen = s.fen := by rw [ticks_eq]
@[simp] theorem ticks_priw (n : Nat) (s : State) : (ticks n s).priw = s.priw := by rw [ticks_eq]
@[simp] theorem ticks_tgtw (n : Nat) (s : State) : (ticks n s).tgtw = s.tgtw := by rw [ticks_eq]
@[simp] theorem ticks_sense (n : Nat) (s : State) : (ticks n s).sense = s.sense := by rw [ticks_eq]
@[simp] theorem ticks_isen (n : Nat) (s : State) : (ticks n s).isen = s.isen := by rw [ticks_eq]
@[simp] theorem ticks_ctrl (n : Nat) (s : State) : (ticks n s).ctrl = s.ctrl := by rw [ticks_eq]
@[simp] theorem ticks_out (n : Nat) (s : State) : (ticks n s).out = s.out := by rw [ticks_eq]
@[simp] theorem ticks_tReg (n : Nat) (s : State) : (ticks n s).tReg = s.tReg := by rw [ticks_eq]
@[simp] theorem ticks_mode (n : Nat) (s : State) : (ticks n s).mode = s.mode := by rw [ticks_eq]
@[simp] theorem ticks_cur (n : Nat) (s : State) : (ticks n s).cur = s.cur := by rw [ticks_eq]
@[simp] theorem ticks_ustep (n : Nat) (s : State) : (ticks n s).ustep = s.ustep := by rw [ticks_eq]
@[simp] theorem ticks_fdone (n : Nat) (s : State) : (ticks n s).fdone = s.fdone := by rw [ticks_eq]
@[simp] theorem ticks_pdone (n : Nat) (s : State) : (ticks n s).pdone = s.pdone := by rw [ticks_eq]
@[simp] theorem ticks_lp (n : Nat) (s : State) : (ticks n s).lp = s.lp := by rw [ticks_eq]
@[simp] theorem ticks_lt (n : Nat) (s : State) : (ticks n s).lt = s.lt := by rw [ticks_eq]
@[simp] theorem ticks_ls (n : Nat) (s : State) : (ticks n s).ls = s.ls := by rw [ticks_eq]
@[simp] theorem ticks_hist (n : Nat) (s : State) : (ticks n s).hist = s.hist := by rw [ticks_eq]
@[simp] theorem ticks_elIn (n : Nat) (s : State) : (ticks n s).elIn = s.elIn := by rw [ticks_eq]
@[simp] theorem ticks_padIn (n : Nat) (s : State) : (ticks n s).padIn = s.padIn := by rw [ticks_eq]
@[simp] theorem ticks_extPending (n : Nat) (s : State) : (ticks n s).extPending = s.extPending := by rw [ticks_eq]
@[simp] theorem ticks_cmds (n : Nat) (s : State) : (ticks n s).cmds = s.cmds := by rw [ticks_eq]
@[simp] theorem ticks_moves (n : Nat) (s : State) : (ticks n s).moves = s.moves := by rw [ticks_eq]
@[simp] theorem ticks_hostRd (n : Nat) (s : State) : (ticks n s).hostRd = s.hostRd := by rw [ticks_eq]
@[simp] theorem ticks_readDraws (n : Nat) (s : State) : (ticks n s).readDraws = s.readDraws := by rw [ticks_eq]
@[simp] theorem ticks_settle (n : Nat) (s : State) : (ticks n s).settle = s.settle - n := by rw [ticks_eq]
@[simp] theorem ticks_levelDraws (n : Nat) (s : State) : (ticks n s).levelDraws = s.levelDraws + n := by
  rw [ticks_eq]

/-! ### advance: the end of a micro-operation (10_state.md R21, 30_encoding.md R113) -/

@[simp] theorem advance_cfg (b : Bool) (s : State) : (advance b s).cfg = s.cfg := rfl
@[simp] theorem advance_fsel (b : Bool) (s : State) : (advance b s).fsel = s.fsel := rfl
@[simp] theorem advance_pull (b : Bool) (s : State) : (advance b s).pull = s.pull := rfl
@[simp] theorem advance_ren (b : Bool) (s : State) : (advance b s).ren = s.ren := rfl
@[simp] theorem advance_fen (b : Bool) (s : State) : (advance b s).fen = s.fen := rfl
@[simp] theorem advance_priw (b : Bool) (s : State) : (advance b s).priw = s.priw := rfl
@[simp] theorem advance_tgtw (b : Bool) (s : State) : (advance b s).tgtw = s.tgtw := rfl
@[simp] theorem advance_sense (b : Bool) (s : State) : (advance b s).sense = s.sense := rfl
@[simp] theorem advance_isen (b : Bool) (s : State) : (advance b s).isen = s.isen := rfl
@[simp] theorem advance_ctrl (b : Bool) (s : State) : (advance b s).ctrl = s.ctrl := rfl
@[simp] theorem advance_out (b : Bool) (s : State) : (advance b s).out = s.out := rfl
@[simp] theorem advance_eds (b : Bool) (s : State) : (advance b s).eds = s.eds := rfl
@[simp] theorem advance_tReg (b : Bool) (s : State) : (advance b s).tReg = s.tReg := rfl
@[simp] theorem advance_cur (b : Bool) (s : State) : (advance b s).cur = s.cur := rfl
@[simp] theorem advance_settle (b : Bool) (s : State) : (advance b s).settle = s.settle := rfl
@[simp] theorem advance_fdone (b : Bool) (s : State) : (advance b s).fdone = s.fdone := rfl
@[simp] theorem advance_pdone (b : Bool) (s : State) : (advance b s).pdone = s.pdone := rfl
@[simp] theorem advance_lp (b : Bool) (s : State) : (advance b s).lp = s.lp := rfl
@[simp] theorem advance_lt (b : Bool) (s : State) : (advance b s).lt = s.lt := rfl
@[simp] theorem advance_ls (b : Bool) (s : State) : (advance b s).ls = s.ls := rfl
@[simp] theorem advance_hist (b : Bool) (s : State) : (advance b s).hist = s.hist := rfl
@[simp] theorem advance_elIn (b : Bool) (s : State) : (advance b s).elIn = s.elIn := rfl
@[simp] theorem advance_padIn (b : Bool) (s : State) : (advance b s).padIn = s.padIn := rfl
@[simp] theorem advance_extPending (b : Bool) (s : State) : (advance b s).extPending = s.extPending := rfl
@[simp] theorem advance_cmds (b : Bool) (s : State) : (advance b s).cmds = s.cmds := rfl
@[simp] theorem advance_moves (b : Bool) (s : State) : (advance b s).moves = s.moves := rfl
@[simp] theorem advance_hostRd (b : Bool) (s : State) : (advance b s).hostRd = s.hostRd := rfl
@[simp] theorem advance_levelDraws (b : Bool) (s : State) : (advance b s).levelDraws = s.levelDraws := rfl
@[simp] theorem advance_readDraws (b : Bool) (s : State) : (advance b s).readDraws = s.readDraws := rfl
@[simp] theorem advance_ustep (b : Bool) (s : State) : (advance b s).ustep = s.ustep + 1 := rfl
@[simp] theorem advance_done (b : Bool) (s : State) : (advance b s).done = b := rfl
@[simp] theorem advance_mode (b : Bool) (s : State) :
    (advance b s).mode = if b then .idle else s.mode := rfl

/-! ### Attached effects (10_state.md R50, R51) -/

@[simp] theorem applyAfter_cfg (s : State) (a : After) : (applyAfter s a).cfg = s.cfg := by cases a <;> rfl
@[simp] theorem applyAfter_fsel (s : State) (a : After) : (applyAfter s a).fsel = s.fsel := by cases a <;> rfl
@[simp] theorem applyAfter_pull (s : State) (a : After) : (applyAfter s a).pull = s.pull := by cases a <;> rfl
@[simp] theorem applyAfter_ren (s : State) (a : After) : (applyAfter s a).ren = s.ren := by cases a <;> rfl
@[simp] theorem applyAfter_fen (s : State) (a : After) : (applyAfter s a).fen = s.fen := by cases a <;> rfl
@[simp] theorem applyAfter_priw (s : State) (a : After) : (applyAfter s a).priw = s.priw := by cases a <;> rfl
@[simp] theorem applyAfter_tgtw (s : State) (a : After) : (applyAfter s a).tgtw = s.tgtw := by cases a <;> rfl
@[simp] theorem applyAfter_sense (s : State) (a : After) : (applyAfter s a).sense = s.sense := by cases a <;> rfl
@[simp] theorem applyAfter_isen (s : State) (a : After) : (applyAfter s a).isen = s.isen := by cases a <;> rfl
@[simp] theorem applyAfter_ctrl (s : State) (a : After) : (applyAfter s a).ctrl = s.ctrl := by cases a <;> rfl
@[simp] theorem applyAfter_out (s : State) (a : After) : (applyAfter s a).out = s.out := by cases a <;> rfl
@[simp] theorem applyAfter_eds (s : State) (a : After) : (applyAfter s a).eds = s.eds := by cases a <;> rfl
@[simp] theorem applyAfter_tReg (s : State) (a : After) : (applyAfter s a).tReg = s.tReg := by cases a <;> rfl
@[simp] theorem applyAfter_mode (s : State) (a : After) : (applyAfter s a).mode = s.mode := by cases a <;> rfl
@[simp] theorem applyAfter_cur (s : State) (a : After) : (applyAfter s a).cur = s.cur := by cases a <;> rfl
@[simp] theorem applyAfter_ustep (s : State) (a : After) : (applyAfter s a).ustep = s.ustep := by cases a <;> rfl
@[simp] theorem applyAfter_done (s : State) (a : After) : (applyAfter s a).done = s.done := by cases a <;> rfl
@[simp] theorem applyAfter_hist (s : State) (a : After) : (applyAfter s a).hist = s.hist := by cases a <;> rfl
@[simp] theorem applyAfter_elIn (s : State) (a : After) : (applyAfter s a).elIn = s.elIn := by cases a <;> rfl
@[simp] theorem applyAfter_padIn (s : State) (a : After) : (applyAfter s a).padIn = s.padIn := by cases a <;> rfl
@[simp] theorem applyAfter_extPending (s : State) (a : After) : (applyAfter s a).extPending = s.extPending := by cases a <;> rfl
@[simp] theorem applyAfter_cmds (s : State) (a : After) : (applyAfter s a).cmds = s.cmds := by cases a <;> rfl
@[simp] theorem applyAfter_moves (s : State) (a : After) : (applyAfter s a).moves = s.moves := by cases a <;> rfl
@[simp] theorem applyAfter_hostRd (s : State) (a : After) : (applyAfter s a).hostRd = s.hostRd := by cases a <;> rfl
@[simp] theorem applyAfter_levelDraws (s : State) (a : After) : (applyAfter s a).levelDraws = s.levelDraws := by cases a <;> rfl
@[simp] theorem applyAfter_readDraws (s : State) (a : After) : (applyAfter s a).readDraws = s.readDraws := by cases a <;> rfl

@[simp] theorem applyAfters_cfg (s : State) (as : List After) : (applyAfters s as).cfg = s.cfg := by
  induction as generalizing s with
  | nil => rfl
  | cons a as ih => exact (ih (applyAfter s a)).trans (applyAfter_cfg s a)
@[simp] theorem applyAfters_fsel (s : State) (as : List After) : (applyAfters s as).fsel = s.fsel := by
  induction as generalizing s with
  | nil => rfl
  | cons a as ih => exact (ih (applyAfter s a)).trans (applyAfter_fsel s a)
@[simp] theorem applyAfters_pull (s : State) (as : List After) : (applyAfters s as).pull = s.pull := by
  induction as generalizing s with
  | nil => rfl
  | cons a as ih => exact (ih (applyAfter s a)).trans (applyAfter_pull s a)
@[simp] theorem applyAfters_ren (s : State) (as : List After) : (applyAfters s as).ren = s.ren := by
  induction as generalizing s with
  | nil => rfl
  | cons a as ih => exact (ih (applyAfter s a)).trans (applyAfter_ren s a)
@[simp] theorem applyAfters_fen (s : State) (as : List After) : (applyAfters s as).fen = s.fen := by
  induction as generalizing s with
  | nil => rfl
  | cons a as ih => exact (ih (applyAfter s a)).trans (applyAfter_fen s a)
@[simp] theorem applyAfters_priw (s : State) (as : List After) : (applyAfters s as).priw = s.priw := by
  induction as generalizing s with
  | nil => rfl
  | cons a as ih => exact (ih (applyAfter s a)).trans (applyAfter_priw s a)
@[simp] theorem applyAfters_tgtw (s : State) (as : List After) : (applyAfters s as).tgtw = s.tgtw := by
  induction as generalizing s with
  | nil => rfl
  | cons a as ih => exact (ih (applyAfter s a)).trans (applyAfter_tgtw s a)
@[simp] theorem applyAfters_sense (s : State) (as : List After) : (applyAfters s as).sense = s.sense := by
  induction as generalizing s with
  | nil => rfl
  | cons a as ih => exact (ih (applyAfter s a)).trans (applyAfter_sense s a)
@[simp] theorem applyAfters_isen (s : State) (as : List After) : (applyAfters s as).isen = s.isen := by
  induction as generalizing s with
  | nil => rfl
  | cons a as ih => exact (ih (applyAfter s a)).trans (applyAfter_isen s a)
@[simp] theorem applyAfters_ctrl (s : State) (as : List After) : (applyAfters s as).ctrl = s.ctrl := by
  induction as generalizing s with
  | nil => rfl
  | cons a as ih => exact (ih (applyAfter s a)).trans (applyAfter_ctrl s a)
@[simp] theorem applyAfters_out (s : State) (as : List After) : (applyAfters s as).out = s.out := by
  induction as generalizing s with
  | nil => rfl
  | cons a as ih => exact (ih (applyAfter s a)).trans (applyAfter_out s a)
@[simp] theorem applyAfters_eds (s : State) (as : List After) : (applyAfters s as).eds = s.eds := by
  induction as generalizing s with
  | nil => rfl
  | cons a as ih => exact (ih (applyAfter s a)).trans (applyAfter_eds s a)
@[simp] theorem applyAfters_tReg (s : State) (as : List After) : (applyAfters s as).tReg = s.tReg := by
  induction as generalizing s with
  | nil => rfl
  | cons a as ih => exact (ih (applyAfter s a)).trans (applyAfter_tReg s a)
@[simp] theorem applyAfters_mode (s : State) (as : List After) : (applyAfters s as).mode = s.mode := by
  induction as generalizing s with
  | nil => rfl
  | cons a as ih => exact (ih (applyAfter s a)).trans (applyAfter_mode s a)
@[simp] theorem applyAfters_cur (s : State) (as : List After) : (applyAfters s as).cur = s.cur := by
  induction as generalizing s with
  | nil => rfl
  | cons a as ih => exact (ih (applyAfter s a)).trans (applyAfter_cur s a)
@[simp] theorem applyAfters_ustep (s : State) (as : List After) : (applyAfters s as).ustep = s.ustep := by
  induction as generalizing s with
  | nil => rfl
  | cons a as ih => exact (ih (applyAfter s a)).trans (applyAfter_ustep s a)
@[simp] theorem applyAfters_done (s : State) (as : List After) : (applyAfters s as).done = s.done := by
  induction as generalizing s with
  | nil => rfl
  | cons a as ih => exact (ih (applyAfter s a)).trans (applyAfter_done s a)
@[simp] theorem applyAfters_hist (s : State) (as : List After) : (applyAfters s as).hist = s.hist := by
  induction as generalizing s with
  | nil => rfl
  | cons a as ih => exact (ih (applyAfter s a)).trans (applyAfter_hist s a)
@[simp] theorem applyAfters_elIn (s : State) (as : List After) : (applyAfters s as).elIn = s.elIn := by
  induction as generalizing s with
  | nil => rfl
  | cons a as ih => exact (ih (applyAfter s a)).trans (applyAfter_elIn s a)
@[simp] theorem applyAfters_padIn (s : State) (as : List After) : (applyAfters s as).padIn = s.padIn := by
  induction as generalizing s with
  | nil => rfl
  | cons a as ih => exact (ih (applyAfter s a)).trans (applyAfter_padIn s a)
@[simp] theorem applyAfters_extPending (s : State) (as : List After) : (applyAfters s as).extPending = s.extPending := by
  induction as generalizing s with
  | nil => rfl
  | cons a as ih => exact (ih (applyAfter s a)).trans (applyAfter_extPending s a)
@[simp] theorem applyAfters_cmds (s : State) (as : List After) : (applyAfters s as).cmds = s.cmds := by
  induction as generalizing s with
  | nil => rfl
  | cons a as ih => exact (ih (applyAfter s a)).trans (applyAfter_cmds s a)
@[simp] theorem applyAfters_moves (s : State) (as : List After) : (applyAfters s as).moves = s.moves := by
  induction as generalizing s with
  | nil => rfl
  | cons a as ih => exact (ih (applyAfter s a)).trans (applyAfter_moves s a)
@[simp] theorem applyAfters_hostRd (s : State) (as : List After) : (applyAfters s as).hostRd = s.hostRd := by
  induction as generalizing s with
  | nil => rfl
  | cons a as ih => exact (ih (applyAfter s a)).trans (applyAfter_hostRd s a)
@[simp] theorem applyAfters_levelDraws (s : State) (as : List After) : (applyAfters s as).levelDraws = s.levelDraws := by
  induction as generalizing s with
  | nil => rfl
  | cons a as ih => exact (ih (applyAfter s a)).trans (applyAfter_levelDraws s a)
@[simp] theorem applyAfters_readDraws (s : State) (as : List After) : (applyAfters s as).readDraws = s.readDraws := by
  induction as generalizing s with
  | nil => rfl
  | cons a as ih => exact (ih (applyAfter s a)).trans (applyAfter_readDraws s a)

@[simp] theorem applyAfters_nil (s : State) : applyAfters s [] = s := rfl

@[simp] theorem applyAfters_cons (s : State) (a : After) (as : List After) :
    applyAfters s (a :: as) = applyAfters (applyAfter s a) as := rfl

/-! ### Register writes (20_memory.md R73) -/

@[simp] theorem regWrite_cfg (s : State) (v : Word) (r : Reg) : (regWrite s v r).cfg = s.cfg := by
  cases r <;> rfl
@[simp] theorem regWrite_eds (s : State) (v : Word) (r : Reg) : (regWrite s v r).eds = s.eds := by
  cases r <;> rfl
@[simp] theorem regWrite_tReg (s : State) (v : Word) (r : Reg) : (regWrite s v r).tReg = s.tReg := by
  cases r <;> rfl
@[simp] theorem regWrite_mode (s : State) (v : Word) (r : Reg) : (regWrite s v r).mode = s.mode := by
  cases r <;> rfl
@[simp] theorem regWrite_cur (s : State) (v : Word) (r : Reg) : (regWrite s v r).cur = s.cur := by
  cases r <;> rfl
@[simp] theorem regWrite_ustep (s : State) (v : Word) (r : Reg) : (regWrite s v r).ustep = s.ustep := by
  cases r <;> rfl
@[simp] theorem regWrite_settle (s : State) (v : Word) (r : Reg) : (regWrite s v r).settle = s.settle := by
  cases r <;> rfl
@[simp] theorem regWrite_done (s : State) (v : Word) (r : Reg) : (regWrite s v r).done = s.done := by
  cases r <;> rfl
@[simp] theorem regWrite_fdone (s : State) (v : Word) (r : Reg) : (regWrite s v r).fdone = s.fdone := by
  cases r <;> rfl
@[simp] theorem regWrite_pdone (s : State) (v : Word) (r : Reg) : (regWrite s v r).pdone = s.pdone := by
  cases r <;> rfl
@[simp] theorem regWrite_lp (s : State) (v : Word) (r : Reg) : (regWrite s v r).lp = s.lp := by
  cases r <;> rfl
@[simp] theorem regWrite_lt (s : State) (v : Word) (r : Reg) : (regWrite s v r).lt = s.lt := by
  cases r <;> rfl
@[simp] theorem regWrite_ls (s : State) (v : Word) (r : Reg) : (regWrite s v r).ls = s.ls := by
  cases r <;> rfl
@[simp] theorem regWrite_hist (s : State) (v : Word) (r : Reg) : (regWrite s v r).hist = s.hist := by
  cases r <;> rfl
@[simp] theorem regWrite_elIn (s : State) (v : Word) (r : Reg) : (regWrite s v r).elIn = s.elIn := by
  cases r <;> rfl
@[simp] theorem regWrite_padIn (s : State) (v : Word) (r : Reg) : (regWrite s v r).padIn = s.padIn := by
  cases r <;> rfl
@[simp] theorem regWrite_extPending (s : State) (v : Word) (r : Reg) : (regWrite s v r).extPending = s.extPending := by
  cases r <;> rfl
@[simp] theorem regWrite_cmds (s : State) (v : Word) (r : Reg) : (regWrite s v r).cmds = s.cmds := by
  cases r <;> rfl
@[simp] theorem regWrite_moves (s : State) (v : Word) (r : Reg) : (regWrite s v r).moves = s.moves := by
  cases r <;> rfl
@[simp] theorem regWrite_hostRd (s : State) (v : Word) (r : Reg) : (regWrite s v r).hostRd = s.hostRd := by
  cases r <;> rfl
@[simp] theorem regWrite_levelDraws (s : State) (v : Word) (r : Reg) : (regWrite s v r).levelDraws = s.levelDraws := by
  cases r <;> rfl
@[simp] theorem regWrite_readDraws (s : State) (v : Word) (r : Reg) : (regWrite s v r).readDraws = s.readDraws := by
  cases r <;> rfl

end Sys2Proof.Laws
end

