-- ==== Sys2Proof/Laws/Port.lean ====
section
/-! SUPPORT. The register port: which register an address names, what a read and a write do, and what they leave
alone (spec/20_memory.md R72, R73, R80, R82). -/

namespace Sys2Proof.Laws

open Sys2Proof Sys2Proof.Machine

/-! ### The constraints on a configuration, one by one -/

theorem wf_parts {c : Config} (h : c.wf = true) :
    c.mapOk = true ∧ c.nline % 32 = 0 ∧ 32 ≤ c.nline ∧ c.nline ≤ 1024 ∧ 150 ≤ c.settle ∧
      c.fselCode.codes.Nodup ∧ c.pullCode.codes.Nodup ∧ Config.singleBit c.grp0En = true ∧
      Config.singleBit c.grp1En = true := by
  simp only [Config.wf, Config.settleMin, Bool.and_eq_true, decide_eq_true_eq] at h
  obtain ⟨⟨⟨⟨⟨⟨⟨⟨⟨⟨⟨⟨⟨⟨⟨⟨-, h1⟩, h2⟩, h3⟩, h4⟩, h5⟩, h6⟩, h7⟩, h8⟩, h9⟩, -⟩, -⟩, -⟩, -⟩, -⟩, -⟩, -⟩ := h
  exact ⟨h1, h2, h3, h4, of_decide_eq_true h5, h6, h7, h8, h9⟩

theorem output_ne_input {c : Config} (h : c.wf = true) : c.fselCode.output ≠ c.fselCode.input := by
  have hn := (wf_parts h).2.2.2.2.2.1
  simp only [FselCode.codes, List.nodup_cons, List.mem_cons] at hn
  exact fun he => hn.1 (Or.inl he.symm)

theorem singleBit_ne_zero {w : Word} (h : Config.singleBit w = true) : w ≠ 0 := by
  rintro rfl
  revert h; decide

/-- `FWD` never writes 0 (41_gic_distributor.md R170). -/
theorem forwardValue_ne_zero {c : Config} (h : c.wf = true) (el : BitVec 2) : forwardValue c el ≠ 0 := by
  have h1 := singleBit_ne_zero (wf_parts h).2.2.2.2.2.2.2.2
  unfold forwardValue
  split
  · intro h0
    apply h1
    apply BitVec.eq_of_getLsbD_eq
    intro i hi
    have hb : (c.grp0En ||| c.grp1En).getLsbD i = (0 : Word).getLsbD i := by rw [h0]
    rw [BitVec.getLsbD_or, show (0 : Word).getLsbD i = false from BitVec.getLsbD_zero,
      Bool.or_eq_false_iff] at hb
    rw [hb.2]; exact BitVec.getLsbD_zero.symm
  · exact h1

/-! ### Addresses -/

theorem inArray_eq_some {base count a n : Nat} :
    inArray base count a = some n ↔ a = base + 4 * n ∧ n < count := by
  unfold inArray
  split
  · rename_i h
    rw [Option.some.injEq]
    omega
  · rename_i h
    constructor
    · intro h'; exact absurd h' (by simp)
    · rintro ⟨rfl, hn⟩; exact absurd ⟨by omega, by omega, by omega⟩ h

theorem inArray_base {base count : Nat} (h : 0 < count) : inArray base count base = some 0 :=
  inArray_eq_some.2 ⟨rfl, h⟩

theorem inArray_index {base count n : Nat} (h : n < count) : inArray base count (base + 4 * n) = some n :=
  inArray_eq_some.2 ⟨rfl, h⟩

/-- An address in one of two disjoint ranges is not in the other. -/
theorem inArray_none_of_apart {g k : Nat × Nat} (h : Config.apart g k = true) {a : Nat}
    (h1 : k.1 ≤ a) (h2 : a < k.1 + 4 * k.2) : inArray g.1 g.2 a = none := by
  unfold inArray
  rw [if_neg]
  simp only [Config.apart, decide_eq_true_eq] at h
  omega

/-- The register groups are pairwise disjoint. -/
theorem groups_apart {c : Config} (h : c.wf = true) :
    c.groups.Pairwise (fun g k => Config.apart g k = true) := by
  have := (wf_parts h).1
  simp only [Config.mapOk, Bool.and_eq_true, decide_eq_true_eq] at this
  exact this.2

/-- Every register's address is computed, and no other address names it. -/
theorem regAt_eq_some_imp {c : Config} {a : Nat} {r : Reg} (h : regAt c a = some r) :
    match r with
    | .fsel n => a = c.map.fsel0 + 4 * n ∧ n < 4
    | .gpset => a = c.map.gpset
    | .gpclr => a = c.map.gpclr
    | .ren => a = c.map.ren
    | .fen => a = c.map.fen
    | .pull n => a = c.map.pull0 + 4 * n ∧ n < 2
    | .ctrl => a = c.map.ctrl
    | .isen n => a = c.map.isen0 + 4 * n ∧ n < c.nline / 32
    | .priw n => a = c.map.pri + 4 * n ∧ n < c.nline / 4
    | .tgtw n => a = c.map.tgt + 4 * n ∧ n < c.nline / 4
    | .sense n => a = c.map.sense0 + 4 * n ∧ n < c.nline / 16 := by
  have one : ∀ {b n : Nat}, inArray b 1 a = some n → a = b := by
    intro b n hb; have := inArray_eq_some.1 hb; omega
  unfold regAt at h
  split at h
  · obtain rfl := Option.some.inj h; exact inArray_eq_some.1 ‹_›
  split at h
  · obtain rfl := Option.some.inj h; exact one ‹_›
  split at h
  · obtain rfl := Option.some.inj h; exact one ‹_›
  split at h
  · obtain rfl := Option.some.inj h; exact one ‹_›
  split at h
  · obtain rfl := Option.some.inj h; exact one ‹_›
  split at h
  · obtain rfl := Option.some.inj h; exact inArray_eq_some.1 ‹_›
  split at h
  · obtain rfl := Option.some.inj h; exact one ‹_›
  split at h
  · obtain rfl := Option.some.inj h; exact inArray_eq_some.1 ‹_›
  split at h
  · obtain rfl := Option.some.inj h; exact inArray_eq_some.1 ‹_›
  split at h
  · obtain rfl := Option.some.inj h; exact inArray_eq_some.1 ‹_›
  split at h
  · obtain rfl := Option.some.inj h; exact inArray_eq_some.1 ‹_›
  · cases h

/-- A register has one address. -/
theorem regAt_injective {c : Config} {a b : Nat} {r : Reg} (ha : regAt c a = some r) (hb : regAt c b = some r) :
    a = b := by
  have h1 := regAt_eq_some_imp ha
  have h2 := regAt_eq_some_imp hb
  cases r <;> simp only at h1 h2 <;> omega

/-! ### Computed addresses (20_memory.md R80, R82): each names its own register, because the groups are disjoint -/

/-- The groups before the `k`-th hold no address of the `k`-th. -/
theorem apart_before {c : Config} (h : c.wf = true) (k : Nat) (hk : k < 11) {a : Nat}
    (ha : (c.groups[k]'hk).1 ≤ a ∧ a < (c.groups[k]'hk).1 + 4 * (c.groups[k]'hk).2) (j : Nat) (hj : j < k) :
    inArray (c.groups[j]'(Nat.lt_trans hj hk)).1 (c.groups[j]'(Nat.lt_trans hj hk)).2 a = none :=
  inArray_none_of_apart (List.pairwise_iff_getElem.1 (groups_apart h) j k (Nat.lt_trans hj hk) hk hj) ha.1 ha.2

theorem regAt_fsel {c : Config} (_h : c.wf = true) {n : Nat} (hn : n < 4) : regAt c (aFsel c n) = some (.fsel n) := by
  show regAt c (c.map.fsel0 + 4 * n) = _
  unfold regAt
  rw [inArray_index hn]

theorem regAt_gpset {c : Config} (h : c.wf = true) : regAt c c.map.gpset = some .gpset := by
  have before := apart_before h 1 (by decide) (a := c.map.gpset) (by show c.map.gpset ≤ c.map.gpset ∧ c.map.gpset < c.map.gpset + 4 * (1); omega)
  have h0 : inArray c.map.fsel0 (4) c.map.gpset = none := before 0 (by decide)
  unfold regAt
  rw [h0, inArray_base (by decide)]

theorem regAt_gpclr {c : Config} (h : c.wf = true) : regAt c c.map.gpclr = some .gpclr := by
  have before := apart_before h 2 (by decide) (a := c.map.gpclr) (by show c.map.gpclr ≤ c.map.gpclr ∧ c.map.gpclr < c.map.gpclr + 4 * (1); omega)
  have h0 : inArray c.map.fsel0 (4) c.map.gpclr = none := before 0 (by decide)
  have h1 : inArray c.map.gpset (1) c.map.gpclr = none := before 1 (by decide)
  unfold regAt
  rw [h0, h1, inArray_base (by decide)]

theorem regAt_ren {c : Config} (h : c.wf = true) : regAt c c.map.ren = some .ren := by
  have before := apart_before h 3 (by decide) (a := c.map.ren) (by show c.map.ren ≤ c.map.ren ∧ c.map.ren < c.map.ren + 4 * (1); omega)
  have h0 : inArray c.map.fsel0 (4) c.map.ren = none := before 0 (by decide)
  have h1 : inArray c.map.gpset (1) c.map.ren = none := before 1 (by decide)
  have h2 : inArray c.map.gpclr (1) c.map.ren = none := before 2 (by decide)
  unfold regAt
  rw [h0, h1, h2, inArray_base (by decide)]

theorem regAt_fen {c : Config} (h : c.wf = true) : regAt c c.map.fen = some .fen := by
  have before := apart_before h 4 (by decide) (a := c.map.fen) (by show c.map.fen ≤ c.map.fen ∧ c.map.fen < c.map.fen + 4 * (1); omega)
  have h0 : inArray c.map.fsel0 (4) c.map.fen = none := before 0 (by decide)
  have h1 : inArray c.map.gpset (1) c.map.fen = none := before 1 (by decide)
  have h2 : inArray c.map.gpclr (1) c.map.fen = none := before 2 (by decide)
  have h3 : inArray c.map.ren (1) c.map.fen = none := before 3 (by decide)
  unfold regAt
  rw [h0, h1, h2, h3, inArray_base (by decide)]

theorem regAt_pull {c : Config} (h : c.wf = true) {n : Nat} (hn : n < 2) : regAt c (aPull c n) = some (.pull n) := by
  show regAt c (c.map.pull0 + 4 * n) = _
  have before := apart_before h 5 (by decide) (a := (c.map.pull0 + 4 * n)) (by show c.map.pull0 ≤ (c.map.pull0 + 4 * n) ∧ (c.map.pull0 + 4 * n) < c.map.pull0 + 4 * (2); omega)
  have h0 : inArray c.map.fsel0 (4) (c.map.pull0 + 4 * n) = none := before 0 (by decide)
  have h1 : inArray c.map.gpset (1) (c.map.pull0 + 4 * n) = none := before 1 (by decide)
  have h2 : inArray c.map.gpclr (1) (c.map.pull0 + 4 * n) = none := before 2 (by decide)
  have h3 : inArray c.map.ren (1) (c.map.pull0 + 4 * n) = none := before 3 (by decide)
  have h4 : inArray c.map.fen (1) (c.map.pull0 + 4 * n) = none := before 4 (by decide)
  unfold regAt
  rw [h0, h1, h2, h3, h4, inArray_index hn]

theorem regAt_ctrl {c : Config} (h : c.wf = true) : regAt c c.map.ctrl = some .ctrl := by
  have before := apart_before h 6 (by decide) (a := c.map.ctrl) (by show c.map.ctrl ≤ c.map.ctrl ∧ c.map.ctrl < c.map.ctrl + 4 * (1); omega)
  have h0 : inArray c.map.fsel0 (4) c.map.ctrl = none := before 0 (by decide)
  have h1 : inArray c.map.gpset (1) c.map.ctrl = none := before 1 (by decide)
  have h2 : inArray c.map.gpclr (1) c.map.ctrl = none := before 2 (by decide)
  have h3 : inArray c.map.ren (1) c.map.ctrl = none := before 3 (by decide)
  have h4 : inArray c.map.fen (1) c.map.ctrl = none := before 4 (by decide)
  have h5 : inArray c.map.pull0 (2) c.map.ctrl = none := before 5 (by decide)
  unfold regAt
  rw [h0, h1, h2, h3, h4, h5, inArray_base (by decide)]

theorem regAt_isen {c : Config} (h : c.wf = true) {n : Nat} (hn : n < c.nline / 32) : regAt c (aIsen c n) = some (.isen n) := by
  show regAt c (c.map.isen0 + 4 * n) = _
  have before := apart_before h 7 (by decide) (a := (c.map.isen0 + 4 * n)) (by show c.map.isen0 ≤ (c.map.isen0 + 4 * n) ∧ (c.map.isen0 + 4 * n) < c.map.isen0 + 4 * (c.nline / 32); omega)
  have h0 : inArray c.map.fsel0 (4) (c.map.isen0 + 4 * n) = none := before 0 (by decide)
  have h1 : inArray c.map.gpset (1) (c.map.isen0 + 4 * n) = none := before 1 (by decide)
  have h2 : inArray c.map.gpclr (1) (c.map.isen0 + 4 * n) = none := before 2 (by decide)
  have h3 : inArray c.map.ren (1) (c.map.isen0 + 4 * n) = none := before 3 (by decide)
  have h4 : inArray c.map.fen (1) (c.map.isen0 + 4 * n) = none := before 4 (by decide)
  have h5 : inArray c.map.pull0 (2) (c.map.isen0 + 4 * n) = none := before 5 (by decide)
  have h6 : inArray c.map.ctrl (1) (c.map.isen0 + 4 * n) = none := before 6 (by decide)
  unfold regAt
  rw [h0, h1, h2, h3, h4, h5, h6, inArray_index hn]

theorem regAt_priw {c : Config} (h : c.wf = true) {n : Nat} (hn : n < c.nline / 4) : regAt c (aPriw c n) = some (.priw n) := by
  show regAt c (c.map.pri + 4 * n) = _
  have before := apart_before h 8 (by decide) (a := (c.map.pri + 4 * n)) (by show c.map.pri ≤ (c.map.pri + 4 * n) ∧ (c.map.pri + 4 * n) < c.map.pri + 4 * (c.nline / 4); omega)
  have h0 : inArray c.map.fsel0 (4) (c.map.pri + 4 * n) = none := before 0 (by decide)
  have h1 : inArray c.map.gpset (1) (c.map.pri + 4 * n) = none := before 1 (by decide)
  have h2 : inArray c.map.gpclr (1) (c.map.pri + 4 * n) = none := before 2 (by decide)
  have h3 : inArray c.map.ren (1) (c.map.pri + 4 * n) = none := before 3 (by decide)
  have h4 : inArray c.map.fen (1) (c.map.pri + 4 * n) = none := before 4 (by decide)
  have h5 : inArray c.map.pull0 (2) (c.map.pri + 4 * n) = none := before 5 (by decide)
  have h6 : inArray c.map.ctrl (1) (c.map.pri + 4 * n) = none := before 6 (by decide)
  have h7 : inArray c.map.isen0 (c.nline / 32) (c.map.pri + 4 * n) = none := before 7 (by decide)
  unfold regAt
  rw [h0, h1, h2, h3, h4, h5, h6, h7, inArray_index hn]

theorem regAt_tgtw {c : Config} (h : c.wf = true) {n : Nat} (hn : n < c.nline / 4) : regAt c (aTgtw c n) = some (.tgtw n) := by
  show regAt c (c.map.tgt + 4 * n) = _
  have before := apart_before h 9 (by decide) (a := (c.map.tgt + 4 * n)) (by show c.map.tgt ≤ (c.map.tgt + 4 * n) ∧ (c.map.tgt + 4 * n) < c.map.tgt + 4 * (c.nline / 4); omega)
  have h0 : inArray c.map.fsel0 (4) (c.map.tgt + 4 * n) = none := before 0 (by decide)
  have h1 : inArray c.map.gpset (1) (c.map.tgt + 4 * n) = none := before 1 (by decide)
  have h2 : inArray c.map.gpclr (1) (c.map.tgt + 4 * n) = none := before 2 (by decide)
  have h3 : inArray c.map.ren (1) (c.map.tgt + 4 * n) = none := before 3 (by decide)
  have h4 : inArray c.map.fen (1) (c.map.tgt + 4 * n) = none := before 4 (by decide)
  have h5 : inArray c.map.pull0 (2) (c.map.tgt + 4 * n) = none := before 5 (by decide)
  have h6 : inArray c.map.ctrl (1) (c.map.tgt + 4 * n) = none := before 6 (by decide)
  have h7 : inArray c.map.isen0 (c.nline / 32) (c.map.tgt + 4 * n) = none := before 7 (by decide)
  have h8 : inArray c.map.pri (c.nline / 4) (c.map.tgt + 4 * n) = none := before 8 (by decide)
  unfold regAt
  rw [h0, h1, h2, h3, h4, h5, h6, h7, h8, inArray_index hn]

theorem regAt_sense {c : Config} (h : c.wf = true) {n : Nat} (hn : n < c.nline / 16) : regAt c (aSense c n) = some (.sense n) := by
  show regAt c (c.map.sense0 + 4 * n) = _
  have before := apart_before h 10 (by decide) (a := (c.map.sense0 + 4 * n)) (by show c.map.sense0 ≤ (c.map.sense0 + 4 * n) ∧ (c.map.sense0 + 4 * n) < c.map.sense0 + 4 * (c.nline / 16); omega)
  have h0 : inArray c.map.fsel0 (4) (c.map.sense0 + 4 * n) = none := before 0 (by decide)
  have h1 : inArray c.map.gpset (1) (c.map.sense0 + 4 * n) = none := before 1 (by decide)
  have h2 : inArray c.map.gpclr (1) (c.map.sense0 + 4 * n) = none := before 2 (by decide)
  have h3 : inArray c.map.ren (1) (c.map.sense0 + 4 * n) = none := before 3 (by decide)
  have h4 : inArray c.map.fen (1) (c.map.sense0 + 4 * n) = none := before 4 (by decide)
  have h5 : inArray c.map.pull0 (2) (c.map.sense0 + 4 * n) = none := before 5 (by decide)
  have h6 : inArray c.map.ctrl (1) (c.map.sense0 + 4 * n) = none := before 6 (by decide)
  have h7 : inArray c.map.isen0 (c.nline / 32) (c.map.sense0 + 4 * n) = none := before 7 (by decide)
  have h8 : inArray c.map.pri (c.nline / 4) (c.map.sense0 + 4 * n) = none := before 8 (by decide)
  have h9 : inArray c.map.tgt (c.nline / 4) (c.map.sense0 + 4 * n) = none := before 9 (by decide)
  unfold regAt
  rw [h0, h1, h2, h3, h4, h5, h6, h7, h8, h9, inArray_index hn]

end Sys2Proof.Laws
end

