-- ==== Sys2Proof/Laws/Access.lean ====
section
/-! SUPPORT. What one access through the register port does (spec/20_memory.md R72, R73): exactly when it answers a
next state and which one, what it leaves alone, and that it keeps the shape of the register space. -/

namespace Sys2Proof.Laws

open Sys2Proof Sys2Proof.Machine

/-! ### When an access answers, and what -/

theorem memRead_eq_next {a : Nat} {s t : State} :
    memRead a s = .next t ↔ ∃ r, regAt s.cfg a = some r ∧ t = { s with
      tReg := regRead s r
      hist := s.hist ++ [.rd a (regRead s r)]
      readDraws := s.readDraws + drawsOf s r } := by
  unfold memRead
  cases regAt s.cfg a with
  | none => simp
  | some r => simp [eq_comm]

theorem memWrite_eq_next {a : Nat} {v : Word} {s t : State} :
    memWrite a v s = .next t ↔
      ∃ r, regAt s.cfg a = some r ∧ t = { regWrite s v r with hist := s.hist ++ [.wr a v] } := by
  unfold memWrite
  cases regAt s.cfg a with
  | none => simp
  | some r => simp [eq_comm]

/-- A read of a register that stores a word: no free value is drawn. -/
theorem memRead_stored {a : Nat} {s : State} {r : Reg} {x : Word} (ha : regAt s.cfg a = some r)
    (hx : stored s r = some x) :
    memRead a s = .next { s with tReg := x, hist := s.hist ++ [.rd a x] } := by
  simp [memRead, ha, regRead, drawsOf, hx]

theorem memWrite_at {a : Nat} {s : State} {r : Reg} (v : Word) (ha : regAt s.cfg a = some r) :
    memWrite a v s = .next { regWrite s v r with hist := s.hist ++ [.wr a v] } := by
  simp [memWrite, ha]

/-- An access faults only where the map has no register. -/
theorem memRead_eq_fault {a : Nat} {s : State} {f : Fault} :
    memRead a s = .fault f ↔ regAt s.cfg a = none ∧ f = .invalidAddress a s := by
  unfold memRead
  cases regAt s.cfg a <;> simp [eq_comm]

theorem memWrite_eq_fault {a : Nat} {v : Word} {s : State} {f : Fault} :
    memWrite a v s = .fault f ↔ regAt s.cfg a = none ∧ f = .invalidAddress a s := by
  unfold memWrite
  cases regAt s.cfg a <;> simp [eq_comm]

theorem memRead_ne_refused {a : Nat} {s : State} {r : Refusal} : memRead a s ≠ .refused r := by
  unfold memRead
  cases regAt s.cfg a <;> simp

theorem memWrite_ne_refused {a : Nat} {v : Word} {s : State} {r : Refusal} : memWrite a v s ≠ .refused r := by
  unfold memWrite
  cases regAt s.cfg a <;> simp

/-! ### Shape: the canonical form of the register space -/

theorem shapeOk_iff {s : State} : s.shapeOk = true ↔
    s.fsel.length = 4 ∧ s.pull.length = 2 ∧ s.priw.length = s.cfg.nline / 4 ∧
      s.tgtw.length = s.cfg.nline / 4 ∧ s.sense.length = s.cfg.nline / 16 ∧
      s.isen.length = s.cfg.nline / 32 := by
  simp [State.shapeOk, and_assoc]

/-- The shape depends on the arrays' lengths and the configuration only. -/
theorem shapeOk_congr {s t : State} (hc : t.cfg = s.cfg) (h1 : t.fsel.length = s.fsel.length)
    (h2 : t.pull.length = s.pull.length) (h3 : t.priw.length = s.priw.length)
    (h4 : t.tgtw.length = s.tgtw.length) (h5 : t.sense.length = s.sense.length)
    (h6 : t.isen.length = s.isen.length) : t.shapeOk = s.shapeOk := by
  simp [State.shapeOk, hc, h1, h2, h3, h4, h5, h6]

@[simp] theorem regWrite_fsel_length (s : State) (v : Word) (r : Reg) :
    (regWrite s v r).fsel.length = s.fsel.length := by cases r <;> simp [regWrite]
@[simp] theorem regWrite_pull_length (s : State) (v : Word) (r : Reg) :
    (regWrite s v r).pull.length = s.pull.length := by cases r <;> simp [regWrite]
@[simp] theorem regWrite_priw_length (s : State) (v : Word) (r : Reg) :
    (regWrite s v r).priw.length = s.priw.length := by cases r <;> simp [regWrite]
@[simp] theorem regWrite_tgtw_length (s : State) (v : Word) (r : Reg) :
    (regWrite s v r).tgtw.length = s.tgtw.length := by cases r <;> simp [regWrite]
@[simp] theorem regWrite_sense_length (s : State) (v : Word) (r : Reg) :
    (regWrite s v r).sense.length = s.sense.length := by cases r <;> simp [regWrite]
@[simp] theorem regWrite_isen_length (s : State) (v : Word) (r : Reg) :
    (regWrite s v r).isen.length = s.isen.length := by cases r <;> simp [regWrite]

theorem memWrite_shapeOk {a : Nat} {v : Word} {s t : State} (h : memWrite a v s = .next t) :
    t.shapeOk = s.shapeOk := by
  obtain ⟨r, -, rfl⟩ := memWrite_eq_next.1 h
  apply shapeOk_congr <;> simp

theorem memRead_shapeOk {a : Nat} {s t : State} (h : memRead a s = .next t) : t.shapeOk = s.shapeOk := by
  obtain ⟨r, -, rfl⟩ := memRead_eq_next.1 h
  rfl

/-- The reset state has the canonical form, whatever the draw. -/
theorem resetWith_shapeOk (c : Config) (u : ResetDraw) : (State.resetWith c u).shapeOk = true := by
  simp [shapeOk_iff, State.resetWith, fitTo]

theorem reset_shapeOk : State.reset.shapeOk = true := resetWith_shapeOk _ _

/-! ### Read after write -/

/-- The register is one the shape gives room. -/
def inRange (s : State) : Reg → Prop
  | .fsel n => n < s.fsel.length
  | .pull n => n < s.pull.length
  | .isen n => n < s.isen.length
  | .priw n => n < s.priw.length
  | .tgtw n => n < s.tgtw.length
  | .sense n => n < s.sense.length
  | .gpset => True
  | .gpclr => True
  | .ren => True
  | .fen => True
  | .ctrl => True

theorem inRange_of_regAt {s : State} {a : Nat} {r : Reg} (hs : s.shapeOk = true)
    (ha : regAt s.cfg a = some r) : inRange s r := by
  have hs := shapeOk_iff.1 hs
  have h := regAt_eq_some_imp ha
  cases r <;> simp only [inRange] at h ⊢ <;> omega

/-- The word register `r` stores after `v` has been written to it (R73). -/
def storedAfter (s : State) (v : Word) : Reg → Option Word
  | .fsel _ => some v
  | .gpset => none
  | .gpclr => none
  | .ren => some v
  | .fen => some v
  | .pull _ => some v
  | .ctrl => some v
  | .isen n => some (regAtIndex s.isen n ||| v)
  | .priw _ => some v
  | .tgtw _ => some v
  | .sense _ => some v

theorem stored_regWrite_self {s : State} {v : Word} {r : Reg} (h : inRange s r) :
    stored (regWrite s v r) r = storedAfter s v r := by
  cases r <;> simp only [inRange] at h <;>
    simp [stored, storedAfter, regWrite, regAtIndex_set_self, h]

theorem stored_regWrite_ne {s : State} {v : Word} {r r' : Reg} (h : r' ≠ r) :
    stored (regWrite s v r) r' = stored s r' := by
  cases r <;> cases r' <;> simp_all [stored, regWrite, regAtIndex_set_ne]

/-- A register's word depends on the registers only. -/
theorem stored_congr {s t : State} (h1 : t.fsel = s.fsel) (h2 : t.pull = s.pull) (h3 : t.ren = s.ren)
    (h4 : t.fen = s.fen) (h5 : t.priw = s.priw) (h6 : t.tgtw = s.tgtw) (h7 : t.sense = s.sense)
    (h8 : t.isen = s.isen) (h9 : t.ctrl = s.ctrl) (r : Reg) : stored t r = stored s r := by
  cases r <;> simp [stored, h1, h2, h3, h4, h5, h6, h7, h8, h9]

@[simp] theorem stored_hist (s : State) (h : List Event) (r : Reg) :
    stored { s with hist := h } r = stored s r := by
  apply stored_congr <;> rfl

@[simp] theorem stored_moves (s : State) (ms : List Move) (r : Reg) :
    stored { s with moves := ms } r = stored s r := by
  apply stored_congr <;> rfl

@[simp] theorem stored_commit (s s' : State) (r : Reg) : stored (commit s s') r = stored s' r := by
  apply stored_congr <;> rfl

@[simp] theorem stored_advance (b : Bool) (s : State) (r : Reg) : stored (advance b s) r = stored s r := by
  apply stored_congr <;> rfl

@[simp] theorem stored_applyAfters (s : State) (as : List After) (r : Reg) :
    stored (applyAfters s as) r = stored s r := by
  apply stored_congr <;> simp

@[simp] theorem stored_ticks (n : Nat) (s : State) (r : Reg) : stored (ticks n s) r = stored s r := by
  apply stored_congr <;> simp

/-! ### Bytes (20_memory.md R75) -/

theorem byteAt_congr {s t : State} {a : Nat} (hc : t.cfg = s.cfg) (h : ∀ r, stored t r = stored s r) :
    byteAt t a = byteAt s a := by
  simp [byteAt, hc, funext h]

/-- A write leaves every byte outside the written word alone. -/
theorem byteAt_memWrite {A a : Nat} {v : Word} {s t : State} (h : memWrite A v s = .next t)
    (ha : a < A ∨ A + 4 ≤ a) : byteAt t a = byteAt s a := by
  obtain ⟨r, hr, rfl⟩ := memWrite_eq_next.1 h
  unfold byteAt
  simp only [regWrite_cfg]
  cases hr' : regAt s.cfg (4 * (a / 4)) with
  | none => rfl
  | some r' =>
    have hne : r' ≠ r := by
      rintro rfl
      have := regAt_injective hr hr'
      omega
    simp only [Option.bind_some]
    exact congrArg (Option.map _) ((stored_congr rfl rfl rfl rfl rfl rfl rfl rfl rfl r').trans (stored_regWrite_ne hne))

end Sys2Proof.Laws
end

