-- ==== Sys2Proof/Laws/Config.lean ====
section
/-! SUPPORT. The reset configuration `CFG0` meets the constraints of spec/00_scope.md R8 and spec/20_memory.md R80,
whatever the parameters that R8 leaves open are (log 2). -/

namespace Sys2Proof.Laws

open Sys2Proof Sys2Proof.Machine

/-- Any choice of the two source pins is one that R8 allows. -/
theorem source_pins_ok : ∀ a : Fin 29, ∀ b : Fin 28,
    sourcePins.getD a.val 0 ≠ sourcePins.getD ((a.val + 1 + b.val) % 29) 0 ∧
      sourcePins.getD a.val 0 ∉ Config.outputPins ∧
      sourcePins.getD ((a.val + 1 + b.val) % 29) 0 ∉ Config.outputPins := by
  decide

theorem gpin_ok : ∀ a : Fin 3, Config.outputPins.getD a.val 4 ∈ Config.outputPins := by decide

/-- `MAP0` meets R80 (20_memory.md R81). -/
theorem cfg0_mapOk : cfg0.mapOk = true := by
  have h : cfg0.mapOk = { cfg0 with
      ipinA := 0, ipinB := 0, gpin := 0, selfEdge := 0, gpioLine := 0, lineGroup := 0 }.mapOk := rfl
  rw [h]
  decide

theorem cfg0_wf : cfg0.wf = true := by
  have hp := source_pins_ok Config.openIpinA Config.openIpinB
  have hg := gpin_ok Config.openGpin
  simp only [Config.wf, Bool.and_eq_true, decide_eq_true_eq]
  refine ⟨⟨⟨⟨⟨⟨⟨⟨⟨⟨⟨⟨⟨⟨⟨⟨?_, cfg0_mapOk⟩, ?_⟩, ?_⟩, ?_⟩, ?_⟩, ?_⟩, ?_⟩, ?_⟩, ?_⟩, ?_⟩, hp.1⟩, hp.2.1⟩, hp.2.2⟩, hg⟩,
    ?_⟩, Config.openGpioLine.isLt⟩
  case refine_11 =>
    show (Config.openSelfEdge ||| (1#32 <<< gpin0.toNat)).getLsbD gpin0.toNat = true
    have h := getLsbD_pinBit gpin0.toNat gpin0.toNat gpin0.isLt
    simp only [pinBit] at h
    rw [BitVec.getLsbD_or, h]; simp
  all_goals decide

end Sys2Proof.Laws
end

