-- ==== Sys2Proof/Laws/Edge.lean ====
section
/-! SUPPORT. What the end of an agent step does to the edge latch (spec/10_state.md R42 to R44), bit by bit. -/

namespace Sys2Proof.Laws

open Sys2Proof Sys2Proof.Machine

theorem fnCode_congr {s t : State} (h : t.fsel = s.fsel) (p : Nat) : fnCode t p = fnCode s p := by
  simp [fnCode, h]

theorem levelKnown_congr {s t : State} (h : t.fsel = s.fsel) (hc : t.cfg = s.cfg) (p : Nat) :
    levelKnown t p = levelKnown s p := by
  simp [levelKnown, fnCode_congr h, hc]

theorem levelKnown_iff {s : State} {p : Nat} : levelKnown s p = true ↔
    fnCode s p = s.cfg.fselCode.output ∨ fnCode s p = s.cfg.fselCode.input := by
  simp [levelKnown]

/-- A described level is the latch's or the pad's. -/
theorem level_output {s : State} {p : Nat} (h : fnCode s p = s.cfg.fselCode.output) :
    level s p = s.out.getLsbD p := by
  simp [level, h]

theorem level_input {s : State} {p : Nat} (hc : s.cfg.wf = true) (h : fnCode s p = s.cfg.fselCode.input) :
    level s p = s.padIn.getLsbD p := by
  simp [level, h, (output_ne_input hc).symm]

/-- A described level depends on function, latch and pad only. -/
theorem level_congr {s t : State} {p : Nat} (h : levelKnown s p = true) (hf : t.fsel = s.fsel)
    (hc : t.cfg = s.cfg) (ho : t.out.getLsbD p = s.out.getLsbD p)
    (hp : t.padIn.getLsbD p = s.padIn.getLsbD p) : level t p = level s p := by
  simp only [level, fnCode_congr hf, hc, ho, hp]
  rcases levelKnown_iff.1 h with h | h <;> simp [h]

/-- The edge latch after a step. -/
theorem commit_eds_bit (s s' : State) {p : Nat} (hp : p < 32) :
    (commit s s').eds.getLsbD p = (s'.eds.getLsbD p ||
      latchesEdge s { s' with levelDraws := s.levelDraws + 1 } p) := by
  simp only [commit]
  rw [BitVec.getLsbD_or, getLsbD_wordOfBits _ _ _ (Nat.le_refl 32)]
  simp [hp]

/-- A latched edge stays (R42). -/
theorem commit_eds_keeps (s s' : State) : s'.eds &&& (commit s s').eds = s'.eds := by
  apply BitVec.eq_of_getLsbD_eq
  intro i hi
  rw [BitVec.getLsbD_and, commit_eds_bit s s' hi]
  cases s'.eds.getLsbD i <;> simp

/-- No edge without a change of level. -/
theorem latchesEdge_of_level_eq {s t : State} {p : Nat} (h : level t p = level s p) :
    latchesEdge s t p = false := by
  simp only [latchesEdge, h]
  cases level s p <;> simp

/-- A step that changes neither function, latch nor pad of a pin whose level is described latches nothing there. -/
theorem commit_eds_quiet {s s' : State} {p : Nat} (hp : p < 32) (hk : levelKnown s p = true)
    (hf : s'.fsel = s.fsel) (hc : s'.cfg = s.cfg) (ho : s'.out.getLsbD p = s.out.getLsbD p)
    (hi : s'.padIn.getLsbD p = s.padIn.getLsbD p) :
    (commit s s').eds.getLsbD p = s'.eds.getLsbD p := by
  rw [commit_eds_bit s s' hp]
  have hl : level { s' with levelDraws := s.levelDraws + 1 } p = level s p :=
    level_congr (t := { s' with levelDraws := s.levelDraws + 1 }) hk hf hc ho hi
  rw [latchesEdge_of_level_eq hl, Bool.or_false]

theorem tick_eds_quiet {s : State} {p : Nat} (hp : p < 32) (hk : levelKnown s p = true) :
    (tick s).eds.getLsbD p = s.eds.getLsbD p :=
  commit_eds_quiet (s' := { s with settle := s.settle - 1, done := false }) hp hk rfl rfl rfl rfl

theorem ticks_eds_quiet {n : Nat} {s : State} {p : Nat} (hp : p < 32) (hk : levelKnown s p = true) :
    (ticks n s).eds.getLsbD p = s.eds.getLsbD p := by
  induction n generalizing s with
  | zero => rfl
  | succ n ih =>
    rw [ticks, ih (s := tick s) ((levelKnown_congr rfl rfl p).trans hk), tick_eds_quiet hp hk]

theorem ticks_eds_keeps (n : Nat) (s : State) : s.eds &&& (ticks n s).eds = s.eds := by
  induction n generalizing s with
  | zero => simp [ticks]
  | succ n ih =>
    have h1 := ih (tick s)
    have h2 : s.eds &&& (tick s).eds = s.eds := commit_eds_keeps s { s with settle := s.settle - 1, done := false }
    rw [ticks]
    calc s.eds &&& (ticks n (tick s)).eds
        = s.eds &&& (tick s).eds &&& (ticks n (tick s)).eds := by rw [h2]
      _ = s.eds := by rw [BitVec.and_assoc, h1, h2]

end Sys2Proof.Laws
end

