-- ==== Sys2Proof/Laws/Run.lean ====
section
/-! SUPPORT. What acceptance, one micro-operation and a whole command can do: one inversion each, cited in place of
unfolding (spec/30_encoding.md R101, R112, R113; spec/60_exceptions.md R191, R192). -/

namespace Sys2Proof.Laws

open Sys2Proof Sys2Proof.Machine

/-! ### Acceptance -/

/-- The state in which a descriptor has been accepted. -/
theorem accept_eq_next {C : Descriptor} {k : Command} {s t : State} :
    accept C k s = .next t ↔ s.mode = .idle ∧ k.operandsOk = true ∧ k.pinOk s = true ∧ k.lineOk s = true ∧
      t = commit s { s with cur := C, ustep := 0, mode := .busy, done := false } := by
  unfold accept
  cases hm : s.mode <;> cases k.operandsOk <;> cases k.pinOk s <;> cases k.lineOk s <;>
    simp [raiseUndefined, eq_comm]

theorem accept_eq_fault {C : Descriptor} {k : Command} {s : State} {f : Fault} :
    accept C k s = .fault f ↔ s.mode = .idle ∧
      ((k.operandsOk = false ∧ f = .illegalOperand C s) ∨
       (k.operandsOk = true ∧ k.pinOk s = false ∧ f = .pinNotConfigured C s) ∨
       (k.operandsOk = true ∧ k.pinOk s = true ∧ k.lineOk s = false ∧ f = .lineNotConfigured C s)) := by
  unfold accept
  cases hm : s.mode <;> cases k.operandsOk <;> cases k.pinOk s <;> cases k.lineOk s <;>
    simp [raiseUndefined, eq_comm]

theorem accept_eq_refused {C : Descriptor} {k : Command} {s : State} {r : Refusal} :
    accept C k s = .refused r ↔ s.mode = .busy ∧ r = .commandPortBusy := by
  unfold accept
  cases hm : s.mode <;> cases k.operandsOk <;> cases k.pinOk s <;> cases k.lineOk s <;>
    simp [raiseUndefined, eq_comm]

/-! ### Micro-operations -/

theorem perform_ne_refused {act : Action} {s : State} {r : Refusal} : perform act s ≠ .refused r := by
  cases act <;> simp [perform, memRead_ne_refused, memWrite_ne_refused]

theorem perform_eq_fault {act : Action} {s : State} {f : Fault} (h : perform act s = .fault f) :
    ∃ a, f = .invalidAddress a s ∧ regAt s.cfg a = none := by
  cases act with
  | waitSettle => simp [perform] at h
  | read a => exact ⟨a, (memRead_eq_fault.1 h).2, (memRead_eq_fault.1 h).1⟩
  | write a v => exact ⟨a, (memWrite_eq_fault.1 h).2, (memWrite_eq_fault.1 h).1⟩

/-- One micro-operation answers a next state exactly when its access does and its check passes. -/
theorem uopStep_eq_next {last : Bool} {u : Uop} {s t : State} :
    uopStep last u s = .next t ↔ ∃ s1, perform u.action s = .next s1 ∧ needOk u.needBit s1 = true ∧
      t = commit s (advance last (applyAfters s1 u.after)) := by
  unfold uopStep
  cases hp : perform u.action s with
  | next s1 =>
    by_cases hn : needOk u.needBit s1 = true
    · simpa [hn] using eq_comm
    · simp [hn, raiseUndefined]
  | fault f => simp
  | refused r => simp

theorem uopStep_eq_fault {last : Bool} {u : Uop} {s : State} {f : Fault} :
    uopStep last u s = .fault f ↔ perform u.action s = .fault f ∨
      ∃ s1, perform u.action s = .next s1 ∧ needOk u.needBit s1 = false ∧ f = .guardedSetNotArmed s.cur s1 := by
  unfold uopStep
  cases hp : perform u.action s with
  | next s1 =>
    by_cases hn : needOk u.needBit s1 = true
    · simp [hn]
    · simpa [hn, raiseUndefined] using eq_comm
  | fault f => simp
  | refused r => simp

theorem uopStep_ne_refused {last : Bool} {u : Uop} {s : State} {r : Refusal} : uopStep last u s ≠ .refused r := by
  unfold uopStep
  cases hp : perform u.action s with
  | next s1 => by_cases hn : needOk u.needBit s1 = true <;> simp [hn, raiseUndefined]
  | fault f => simp
  | refused r' => exact absurd hp perform_ne_refused

/-- What a micro-operation without a check does when its access is performed. -/
theorem uopStep_of_perform {last : Bool} {u : Uop} {s s1 : State} (h : perform u.action s = .next s1)
    (hn : needOk u.needBit s1 = true) :
    uopStep last u s = .next (commit s (advance last (applyAfters s1 u.after))) :=
  uopStep_eq_next.2 ⟨s1, h, hn, rfl⟩

/-! ### A run of micro-operations -/

theorem liftHold_eq_ticks (u : Uop) (s : State) :
    liftHold u s = ticks (if u.action = .waitSettle then s.settle else 0) s := by
  unfold liftHold
  cases u.action <;> simp [ticks]

/-- After the clock has lifted the hold, the micro-operation is enabled (10_state.md R46). -/
theorem uopEnabled_liftHold (u : Uop) (s : State) : uopEnabled u (liftHold u s) = true := by
  unfold uopEnabled liftHold
  cases u.action <;> simp

theorem runUops_cons_eq_next {u : Uop} {us : List Uop} {s t : State} :
    runUops (u :: us) s = .next t ↔
      ∃ s1, uopStep us.isEmpty u (liftHold u s) = .next s1 ∧ runUops us s1 = .next t := by
  rw [runUops]
  cases uopStep us.isEmpty u (liftHold u s) <;> simp

theorem runUops_cons_of_next {u : Uop} {us : List Uop} {s s1 : State}
    (h : uopStep us.isEmpty u (liftHold u s) = .next s1) : runUops (u :: us) s = runUops us s1 := by
  rw [runUops, h]

/-- A `WaitSettle` first lets the clock run until the timer is 0. -/
theorem runUops_wait {after : List After} {us : List Uop} {s : State} :
    runUops ({ action := .waitSettle, after := after } :: us) s =
      runUops us (commit (ticks s.settle s) (advance us.isEmpty (applyAfters (ticks s.settle s) after))) :=
  runUops_cons_of_next (uopStep_of_perform rfl rfl)

/-- A read of a register that stores `x`. -/
theorem runUops_read {c : Config} {a : Nat} {after : List After} {us : List Uop} {s : State} {r : Reg} {x : Word}
    (ha : regAt c a = some r) (hc : s.cfg = c) (hx : stored s r = some x) :
    runUops ({ action := .read a, after := after } :: us) s =
      runUops us (commit s (advance us.isEmpty
        (applyAfters { s with tReg := x, hist := s.hist ++ [.rd a x] } after))) :=
  runUops_cons_of_next (uopStep_of_perform (memRead_stored (hc ▸ ha) hx) rfl)

/-- A read with the check of `SETG`, passed. -/
theorem runUops_checked {c : Config} {a p : Nat} {us : List Uop} {s : State} {r : Reg} {x : Word}
    (ha : regAt c a = some r) (hc : s.cfg = c) (hx : stored s r = some x) (hp : x.getLsbD p = true) :
    runUops ({ action := .read a, needBit := some p } :: us) s =
      runUops us (commit s (advance us.isEmpty { s with tReg := x, hist := s.hist ++ [.rd a x] })) :=
  runUops_cons_of_next (uopStep_of_perform (memRead_stored (hc ▸ ha) hx) hp)

/-- A read with the check of `SETG`, failed: the run stops after that read. -/
theorem runUops_unarmed {c : Config} {a p : Nat} {us : List Uop} {s : State} {r : Reg} {x : Word}
    (ha : regAt c a = some r) (hc : s.cfg = c) (hx : stored s r = some x) (hp : x.getLsbD p = false) :
    runUops ({ action := .read a, needBit := some p } :: us) s =
      .fault (.guardedSetNotArmed s.cur { s with tReg := x, hist := s.hist ++ [.rd a x] }) := by
  have h : uopStep us.isEmpty { action := .read a, needBit := some p }
      (liftHold { action := .read a, needBit := some p } s) =
      .fault (.guardedSetNotArmed s.cur { s with tReg := x, hist := s.hist ++ [.rd a x] }) :=
    uopStep_eq_fault.2 (.inr ⟨_, memRead_stored (hc ▸ ha) hx, hp, rfl⟩)
  rw [runUops, h]

/-- A write. -/
theorem runUops_write {c : Config} {a : Nat} {v : WriteValue} {after : List After} {us : List Uop} {s : State}
    {r : Reg} (ha : regAt c a = some r) (hc : s.cfg = c) :
    runUops ({ action := .write a v, after := after } :: us) s =
      runUops us (commit s (advance us.isEmpty
        (applyAfters { regWrite s (v.eval s.tReg) r with hist := s.hist ++ [.wr a (v.eval s.tReg)] } after))) :=
  runUops_cons_of_next (uopStep_of_perform (memWrite_at _ (hc ▸ ha)) rfl)

theorem runUops_ne_refused {us : List Uop} {s : State} {r : Refusal} : runUops us s ≠ .refused r := by
  induction us generalizing s with
  | nil => simp [runUops]
  | cons u us ih =>
    rw [runUops]
    cases h : uopStep us.isEmpty u (liftHold u s) with
    | next s1 => exact ih
    | fault f => simp
    | refused r' => exact absurd h uopStep_ne_refused

/-- A property that the clock keeps, and that every micro-operation of the list keeps, holds at the end: the one
induction over an expansion. -/
theorem runUops_keeps {P : State → Prop} {us : List Uop}
    (htick : ∀ s, P s → P (tick s))
    (huop : ∀ u ∈ us, ∀ last s t, P s → uopStep last u s = .next t → P t)
    {s t : State} (hs : P s) (h : runUops us s = .next t) : P t := by
  have hticks : ∀ n s, P s → P (ticks n s) := by
    intro n
    induction n with
    | zero => exact fun _ h => h
    | succ n ih => exact fun s h => ih _ (htick s h)
  induction us generalizing s with
  | nil => cases h; exact hs
  | cons u us ih =>
    obtain ⟨s1, h1, h2⟩ := runUops_cons_eq_next.1 h
    refine ih (fun u hu => huop u (List.mem_cons_of_mem _ hu)) ?_ h2
    refine huop u (List.mem_cons_self ..) _ _ _ ?_ h1
    rw [liftHold_eq_ticks]
    exact hticks _ _ hs

/-! ### A whole command -/

theorem runCommand_eq_next {C : Descriptor} {k : Command} {s t : State} :
    runCommand C k s = .next t ↔ ∃ s1, accept C k s = .next s1 ∧ runUops k.uops s1 = .next t := by
  unfold runCommand
  cases accept C k s <;> simp

/-- A command that passes its checks runs its expansion from the accepted state. -/
theorem runCommand_of_checks {C : Descriptor} {k : Command} {s : State} (hm : s.mode = .idle)
    (ho : k.operandsOk = true) (hp : k.pinOk s = true) (hl : k.lineOk s = true) :
    runCommand C k s =
      runUops k.uops (commit s { s with cur := C, ustep := 0, mode := .busy, done := false }) := by
  rw [runCommand, accept_eq_next.2 ⟨hm, ho, hp, hl, rfl⟩]

theorem runCommand_of_fault {C : Descriptor} {k : Command} {s : State} {f : Fault}
    (h : accept C k s = .fault f) : runCommand C k s = .fault f := by
  rw [runCommand, h]

/-- A whole command is refused only when the port is busy. -/
theorem runCommand_eq_refused {C : Descriptor} {k : Command} {s : State} {r : Refusal} :
    runCommand C k s = .refused r ↔ s.mode = .busy ∧ r = .commandPortBusy := by
  unfold runCommand
  cases h : accept C k s with
  | next s1 =>
    have := (accept_eq_next.1 h).1
    simp [runUops_ne_refused, this]
  | fault f =>
    have := (accept_eq_fault.1 h).1
    simp [this]
  | refused r' =>
    obtain ⟨hm, rfl⟩ := accept_eq_refused.1 h
    simp [hm, eq_comm]

/-- Every meaning is `runCommand` of its command and its own descriptor. -/
theorem exec_eq_runCommand (i : Instr) (s : State) :
    exec i s = runCommand (encode i) (commandOf s.cfg s.elIn i) s := by
  cases i <;> rfl

theorem exec_eq_refused {i : Instr} {s : State} {r : Refusal} :
    exec i s = .refused r ↔ s.mode = .busy ∧ r = .commandPortBusy := by
  rw [exec_eq_runCommand, runCommand_eq_refused]

end Sys2Proof.Laws
end

