-- ==== Sys2Proof/Laws/Step.lean ====
section
/-! SUPPORT. What the step of the machine can do (spec/10_state.md R22), said once: the equations by which it steps,
what a sequencer turn and a presented descriptor can answer, and the one case analysis from which every invariant
follows. -/

namespace Sys2Proof.Laws

open Sys2Proof Sys2Proof.Machine

/-! ### Equations -/

theorem step_of_move {s : State} {m : Move} {rest : List Move} (h : s.moves = m :: rest) :
    step s = agentStep m { s with moves := rest } := by
  rw [step, machineStep, h]

theorem step_of_busy {s : State} (hm : s.moves = []) (hb : s.mode = .busy) :
    step s = if seqEnabled s then seqStep s else .next (tick s) := by
  rw [step, machineStep, hm]
  simp only [freeStep, hb]

theorem step_of_idle {s : State} (hm : s.moves = []) (hi : s.mode = .idle) (hc : s.cmds = []) :
    step s = .next (tick s) := by
  rw [step, machineStep, hm]
  simp only [freeStep, hi, hc]

theorem step_of_command {s : State} {C : Descriptor} {rest : List Descriptor} (hm : s.moves = [])
    (hi : s.mode = .idle) (hc : s.cmds = C :: rest) : step s = commandStep C { s with cmds := rest } := by
  rw [step, machineStep, hm]
  simp only [freeStep, hi, hc, hm]

/-- A step that ends in `commit` and leaves what the described levels depend on leaves the latch of those pins. -/
theorem stepsQuietlyTo_of_commit {s s0 t : State} (h : step s = .next (commit s0 t))
    (h0 : s0.fsel = s.fsel ∧ s0.cfg = s.cfg) (hf : t.fsel = s0.fsel) (hc : t.cfg = s0.cfg) (ho : t.out = s0.out)
    (hp : t.padIn = s0.padIn) (he : t.eds = s.eds) : stepsQuietlyTo s t := by
  refine ⟨_, _, h, fun q hq hk => ?_⟩
  have hk0 : levelKnown s0 q = true := (levelKnown_congr h0.1 h0.2 q).trans hk
  exact (commit_eds_quiet hq hk0 hf hc (by rw [ho]) (by rw [hp])).trans (by rw [he])

/-! ### A presented descriptor -/

theorem presentStep_eq_next {C : Descriptor} {s t : State} :
    presentStep C s = .next t ↔ ∃ i, decode C = .ok i ∧ accept C (commandOf s.cfg s.elIn i) s = .next t := by
  unfold presentStep
  cases hm : s.mode <;> cases hd : decode C <;> simp [raiseUndefined, accept_eq_next, hm]

theorem presentStep_ok {C : Descriptor} {i : Instr} {s : State} (h : decode C = .ok i) :
    presentStep C s = accept C (commandOf s.cfg s.elIn i) s := by
  unfold presentStep
  cases hm : s.mode
  · simp [h]
  · exact (accept_eq_refused.2 ⟨hm, rfl⟩).symm

theorem presentStep_eq_refused {C : Descriptor} {s : State} {r : Refusal} :
    presentStep C s = .refused r ↔ s.mode = .busy ∧ r = .commandPortBusy := by
  unfold presentStep
  cases hm : s.mode
  · cases hd : decode C <;> simp [raiseUndefined, accept_eq_refused, hm]
  · simp [eq_comm]

/-! ### A sequencer turn -/

/-- The next micro-operation is number `ustep` of the expansion of the latched command. -/
theorem nextUop_of_decode {s : State} {i : Instr} {u : Uop} (hd : decode s.cur = .ok i)
    (hu : (uopsOf s.cfg s.elIn i)[s.ustep]? = some u) :
    nextUop s = some (u, decide (s.ustep + 1 = (uopsOf s.cfg s.elIn i).length)) := by
  simp [nextUop, hd, hu]

theorem nextUop_eq_some {s : State} {u : Uop} {last : Bool} (h : nextUop s = some (u, last)) :
    ∃ i, decode s.cur = .ok i ∧ (uopsOf s.cfg s.elIn i)[s.ustep]? = some u ∧
      last = decide (s.ustep + 1 = (uopsOf s.cfg s.elIn i).length) := by
  unfold nextUop at h
  split at h
  · simp at h
  · rename_i i hi
    simp only [Option.map_eq_some_iff, Prod.mk.injEq] at h
    obtain ⟨u', h1, rfl, rfl⟩ := h
    exact ⟨i, hi, h1, rfl⟩

/-- A turn does nothing, completes a command that is past its end, or performs one enabled micro-operation. -/
theorem seqStep_eq_next {s t : State} (h : seqStep s = .next t) :
    t = s ∨ (s.mode = .busy ∧ nextUop s = none ∧ t = { s with mode := .idle, done := true }) ∨
      (s.mode = .busy ∧ ∃ u last, nextUop s = some (u, last) ∧ uopEnabled u s = true ∧
        uopStep last u s = .next t) := by
  cases hm : s.mode with
  | idle => left; simp only [seqStep, hm] at h; cases h; rfl
  | busy =>
    cases hn : nextUop s with
    | none => right; left; simp only [seqStep, hm, hn] at h; cases h; exact ⟨rfl, rfl, rfl⟩
    | some ul =>
      obtain ⟨u, last⟩ := ul
      simp only [seqStep, hm, hn] at h
      by_cases he : uopEnabled u s = true
      · rw [if_pos he] at h; exact .inr (.inr ⟨rfl, u, last, rfl, he, h⟩)
      · rw [if_neg he] at h; left; cases h; rfl

/-- A turn with an enabled micro-operation performs it. -/
theorem seqStep_of_enabled {s : State} {u : Uop} {last : Bool} (hm : s.mode = .busy)
    (hn : nextUop s = some (u, last)) (he : uopEnabled u s = true) : seqStep s = uopStep last u s := by
  simp only [seqStep, hm, hn, he, if_true]

/-- A scheduled turn with an enabled micro-operation performs it. -/
theorem step_of_seq {s : State} {u : Uop} {last : Bool} {rest : List Move} (h : s.moves = .seq :: rest)
    (hm : s.mode = .busy) (hn : nextUop s = some (u, last)) (he : uopEnabled u s = true) :
    step s = uopStep last u { s with moves := rest } :=
  (step_of_move h).trans (seqStep_of_enabled (s := { s with moves := rest }) hm hn he)

/-- A turn of a held sequencer changes nothing (log 21). -/
theorem seqStep_of_held {s : State} {u : Uop} {last : Bool} (hm : s.mode = .busy)
    (hn : nextUop s = some (u, last)) (he : uopEnabled u s = false) : seqStep s = .next s := by
  simp only [seqStep, hm, hn, he, Bool.false_eq_true, if_false]

theorem seqStep_ne_refused {s : State} {r : Refusal} : seqStep s ≠ .refused r := by
  unfold seqStep
  split
  · simp
  · split
    · simp
    · split
      · exact uopStep_ne_refused
      · simp

/-- A property that each part of a micro-operation keeps, a sequencer turn keeps. -/
theorem seqStep_keeps {P : State → Prop}
    (hread : ∀ s a r, P s → regAt s.cfg a = some r → P { s with
      tReg := regRead s r, hist := s.hist ++ [.rd a (regRead s r)], readDraws := s.readDraws + drawsOf s r })
    (hwrite : ∀ s a v r, P s → regAt s.cfg a = some r → P { regWrite s v r with hist := s.hist ++ [.wr a v] })
    (hafter : ∀ s a, P s → P (applyAfter s a))
    (hadvance : ∀ s b, P s → P (advance b s))
    (hcommit : ∀ s s', P s' → P (commit s s'))
    (hend : ∀ s, P s → P { s with mode := .idle, done := true })
    {s t : State} (hs : P s) (h : seqStep s = .next t) : P t := by
  have hafters : ∀ as s, P s → P (applyAfters s as) := by
    intro as
    induction as with
    | nil => exact fun _ h => h
    | cons a as ih => exact fun s h => ih _ (hafter _ _ h)
  rcases seqStep_eq_next h with rfl | ⟨-, -, rfl⟩ | ⟨-, u, last, -, -, hu⟩
  · exact hs
  · exact hend _ hs
  · obtain ⟨s1, hp, -, rfl⟩ := uopStep_eq_next.1 hu
    refine hcommit _ _ (hadvance _ _ (hafters _ _ ?_))
    cases hact : u.action with
    | waitSettle => rw [hact] at hp; cases hp; exact hs
    | read a => rw [hact] at hp; obtain ⟨r, hr, rfl⟩ := memRead_eq_next.1 hp; exact hread _ _ _ hs hr
    | write a v => rw [hact] at hp; obtain ⟨r, hr, rfl⟩ := memWrite_eq_next.1 hp; exact hwrite _ _ _ _ hs hr

/-! ### A whole command, as single steps -/

theorem uopStep_cur {last : Bool} {u : Uop} {s t : State} (h : uopStep last u s = .next t) :
    t.cur = s.cur ∧ t.ustep = s.ustep + 1 ∧ t.cfg = s.cfg ∧ t.elIn = s.elIn ∧
      t.mode = if last then .idle else s.mode := by
  obtain ⟨s1, h1, -, rfl⟩ := uopStep_eq_next.1 h
  have : s1.cur = s.cur ∧ s1.ustep = s.ustep ∧ s1.cfg = s.cfg ∧ s1.elIn = s.elIn ∧ s1.mode = s.mode := by
    cases hact : u.action with
    | waitSettle => rw [hact] at h1; cases h1; exact ⟨rfl, rfl, rfl, rfl, rfl⟩
    | read a =>
      rw [hact] at h1
      obtain ⟨r, -, rfl⟩ := memRead_eq_next.1 h1
      exact ⟨rfl, rfl, rfl, rfl, rfl⟩
    | write a v =>
      rw [hact] at h1
      obtain ⟨r, -, rfl⟩ := memWrite_eq_next.1 h1
      simp
  simp [advance, this]

/-- Where the sequencer stands in its expansion: `us` is what is left of it. -/
def leftToDo (s : State) (i : Instr) (us : List Uop) : Prop :=
  s.mode = .busy ∧ decode s.cur = .ok i ∧ us = (uopsOf s.cfg s.elIn i).drop s.ustep

theorem leftToDo_ticks {s : State} {i : Instr} {us : List Uop} (n : Nat) (h : leftToDo s i us) :
    leftToDo (ticks n s) i us := by
  simpa [leftToDo] using h

theorem leftToDo_nextUop {s : State} {i : Instr} {u : Uop} {us : List Uop} (h : leftToDo s i (u :: us)) :
    nextUop s = some (u, us.isEmpty) := by
  obtain ⟨-, hd, hu⟩ := h
  have hget : (uopsOf s.cfg s.elIn i)[s.ustep]? = some u := by
    have := congrArg (·[0]?) hu
    simpa using this.symm
  have hlen : us.length + 1 = (uopsOf s.cfg s.elIn i).length - s.ustep := by
    simpa using congrArg List.length hu
  rw [nextUop_of_decode hd hget]
  cases us with
  | nil => simp at hlen; simp; omega
  | cons a l => simp at hlen; simp; omega

theorem leftToDo_uopStep {last : Bool} {s t : State} {i : Instr} {u : Uop} {us : List Uop}
    (h : leftToDo s i (u :: us)) (hne : last = false) (ht : uopStep last u s = .next t) : leftToDo t i us := by
  obtain ⟨hm, hd, hu⟩ := h
  obtain ⟨h1, h2, h3, h4, h5⟩ := uopStep_cur ht
  refine ⟨by rw [h5, hne, hm]; rfl, by rw [h1, hd], ?_⟩
  rw [h2, h3, h4, ← List.drop_drop, ← hu]
  rfl

/-- What the rest of an expansion does, the sequencer's turns and the clock do: a property they keep holds at its
end. -/
theorem runUops_keeps_seq {P : State → Prop} (htick : ∀ s, P s → P (tick s))
    (hseq : ∀ s t, P s → seqStep s = .next t → P t) {i : Instr} {us : List Uop} {s t : State}
    (hl : leftToDo s i us) (hs : P s) (h : runUops us s = .next t) : P t := by
  have hticks : ∀ n s, P s → P (ticks n s) := by
    intro n
    induction n with
    | zero => exact fun _ h => h
    | succ n ih => exact fun s h => ih _ (htick s h)
  induction us generalizing s with
  | nil => cases h; exact hs
  | cons u us ih =>
    obtain ⟨s1, h1, h2⟩ := runUops_cons_eq_next.1 h
    have hl' : leftToDo (liftHold u s) i (u :: us) := by
      rw [liftHold_eq_ticks]; exact leftToDo_ticks _ hl
    have hP : P s1 := by
      refine hseq (liftHold u s) s1 ?_ ?_
      · rw [liftHold_eq_ticks]; exact hticks _ _ hs
      · rw [seqStep_of_enabled hl'.1 (leftToDo_nextUop hl') (uopEnabled_liftHold u s)]; exact h1
    cases us with
    | nil => cases h2; exact hP
    | cons u' us' => exact ih (leftToDo_uopStep hl' rfl h1) hP h2

/-- The accepted state stands at the beginning of the expansion. -/
theorem leftToDo_accept {C : Descriptor} {i : Instr} {s t : State} (hd : decode C = .ok i)
    (h : accept C (commandOf s.cfg s.elIn i) s = .next t) : leftToDo t i (uopsOf s.cfg s.elIn i) := by
  obtain ⟨-, -, -, -, rfl⟩ := accept_eq_next.1 h
  exact ⟨rfl, hd, rfl⟩

/-- What a whole command does, presenting its descriptor and single turns and clock cycles do. `round` is the
obligation `DecodeOfEncodeIsTheCommand` at `i`. -/
theorem exec_keeps {P : State → Prop} {i : Instr} (round : decode (encode i) = .ok i)
    (htick : ∀ s, P s → P (tick s)) (hseq : ∀ s t, P s → seqStep s = .next t → P t)
    (hpresent : ∀ C s t, P s → presentStep C s = .next t → P t) {s t : State} (hs : P s)
    (h : exec i s = .next t) : P t := by
  rw [exec_eq_runCommand] at h
  obtain ⟨s1, h1, h2⟩ := runCommand_eq_next.1 h
  have hl := leftToDo_accept round h1
  exact runUops_keeps_seq htick hseq hl
    (hpresent _ _ _ hs (presentStep_eq_next.2 ⟨i, round, h1⟩)) h2

/-! ### The step -/

/-- A property that the scheduling fields do not matter to, and that every agent's single step keeps, is kept by the
step of the machine. `round` is the obligation `DecodeOfEncodeIsTheCommand`; the clause on `rst` may use that the
step is a reset. -/
theorem step_keeps {P : State → Prop} (round : ∀ i, decode (encode i) = .ok i)
    (hmoves : ∀ s ms, P s → P { s with moves := ms })
    (hcmds : ∀ s cs, P s → P { s with cmds := cs })
    (htick : ∀ s, P s → P (tick s))
    (hpad : ∀ s v, P s → P (commit s { s with padIn := v }))
    (hel : ∀ s v, P s → P (commit s { s with elIn := v }))
    (hlines : ∀ s v, P s → P (commit s { s with extPending := v }))
    (hpresent : ∀ C s t, P s → presentStep C s = .next t → P t)
    (hseq : ∀ s t, P s → seqStep s = .next t → P t)
    (hread : ∀ s v d, P s → P { s with hostRd := v, readDraws := d })
    {s t : State} (hrst : ∀ u rest, s.moves = .rst u :: rest → P (resetStep u { s with moves := rest }))
    (hs : P s) (h : step s = .next t) : P t := by
  cases hm : s.moves with
  | cons m rest =>
    rw [step_of_move hm] at h
    have hs' : P { s with moves := rest } := hmoves _ _ hs
    cases m with
    | clock => cases h; exact htick _ hs'
    | pad v => cases h; exact hpad _ _ hs'
    | elIn v => cases h; exact hel _ _ hs'
    | lines v => cases h; exact hlines _ _ hs'
    | present C => exact hpresent _ _ _ hs' h
    | seq => exact hseq _ _ hs' h
    | hostRead a =>
      simp only [agentStep, hostReadStep] at h
      split at h
      · cases h; exact hread _ _ _ hs'
      · simp at h
    | rst u => cases h; exact hrst u rest hm
  | nil =>
    cases hmode : s.mode with
    | busy =>
      rw [step_of_busy hm hmode] at h
      by_cases he : seqEnabled s = true
      · rw [if_pos he] at h; exact hseq _ _ hs h
      · rw [if_neg he] at h; cases h; exact htick _ hs
    | idle =>
      cases hc : s.cmds with
      | nil => rw [step_of_idle hm hmode hc] at h; cases h; exact htick _ hs
      | cons C rest =>
        rw [step_of_command hm hmode hc] at h
        unfold commandStep at h
        split at h
        · simp [raiseUndefined] at h
        · exact exec_keeps (round _) htick hseq hpresent (hcmds _ _ hs) h

end Sys2Proof.Laws
end

