-- ==== Sys2Proof/Laws/Expansion.lean ====
section
/-! SUPPORT. What stands in the commands' expansions (spec/40_gpio_pinmux.md, spec/41_gic_distributor.md): which
registers a command's accesses touch, and which effects its micro-operations attach. -/

namespace Sys2Proof.Laws

open Sys2Proof Sys2Proof.Machine

/-- The registers a command accesses. -/
def touches : Instr → Reg → Prop
  | .cfgf p _, r => r = .fsel (fselIndex p.toNat)
  | .cfgp p _, r => r = .pull (pullIndex p.toNat)
  | .enr _, r => r = .ren
  | .enf _, r => r = .fen
  | .set _, r => r = .gpset
  | .clr _, r => r = .gpclr
  | .setg _, r => r = .ren ∨ r = .gpset
  | .pri0 _ _, r => ∃ w, r = .priw w
  | .tgt _ _ _, r => ∃ w, r = .tgtw w
  | .sns _ _ _, r => ∃ n, r = .sense n
  | .enl l, r => r = .isen (l.toNat / 32)
  | .fwd, r => r = .ctrl

/-- The address of an access. -/
def addressOf : Action → Option Nat
  | .waitSettle => none
  | .read a => some a
  | .write a _ => some a

/-- The micro-operations of a word of a range: its accesses are to that word. -/
theorem mem_rangeWord {base first last w : Nat} {v : Word} {mark : Nat → Nat → After} {u : Uop}
    (h : u ∈ rangeWord base first last v mark w) :
    addressOf u.action = some (base + 4 * w) ∧ u.needBit = none ∧
      ∀ a ∈ u.after, a = mark (max first (4 * w)) (min last (4 * w + 3)) := by
  unfold rangeWord at h
  by_cases hm : laneMask first last w = BitVec.allOnes 32
  · simp only [hm, if_true, List.mem_singleton] at h
    subst h; simp [addressOf]
  · simp only [hm, if_false, List.mem_cons, List.not_mem_nil, or_false] at h
    rcases h with rfl | rfl <;> simp [addressOf]

theorem mem_rangeWrite {base first last : Nat} {v : Word} {mark : Nat → Nat → After} {u : Uop}
    (h : u ∈ rangeWrite base first last v mark) :
    ∃ w, first / 4 ≤ w ∧ w ≤ last / 4 ∧ u ∈ rangeWord base first last v mark w := by
  obtain ⟨w, hw, hu⟩ := List.mem_flatMap.1 h
  have := List.mem_range'_1.1 hw
  exact ⟨w, by omega, by omega, hu⟩

theorem mem_snsUops {c : Config} {rfirst rlast : BitVec 6} {pattern : Word} {u : Uop}
    (h : u ∈ (snsCommand c rfirst rlast pattern).uops) :
    ∃ r, rfirst.toNat ≤ r ∧ r ≤ rlast.toNat ∧ u =
      { action := .write (aSense c r) (.const pattern), after := [.markLs (16 * r) (16 * r + 15)] } := by
  obtain ⟨r, hr, rfl⟩ := List.mem_map.1 h
  have := List.mem_range'_1.1 hr
  exact ⟨r, by omega, by omega, rfl⟩

theorem lineRangeOk_iff {c : Config} {first last : Nat} :
    lineRangeOk c first last = true ↔ first ≤ last ∧ last < c.nline := by simp [lineRangeOk]

theorem senseRangeOk_iff {c : Config} {rfirst rlast : Nat} :
    senseRangeOk c rfirst rlast = true ↔ rfirst ≤ rlast ∧ rlast < c.nline / 16 := by simp [senseRangeOk]

theorem operandsOk_eq_wf (c : Config) (el : BitVec 2) (i : Instr) : (commandOf c el i).operandsOk = i.wf c := by
  cases i <;> rfl

/-- Every access of a well-formed command is to a register it touches (20_memory.md R79, R82). -/
theorem access_ok {c : Config} (hc : c.wf = true) (el : BitVec 2) {i : Instr} (hi : i.wf c = true) {u : Uop}
    (hu : u ∈ uopsOf c el i) {a : Nat} (ha : addressOf u.action = some a) :
    ∃ r, regAt c a = some r ∧ touches i r := by
  have h32 := (wf_parts hc).2.1
  cases i with
  | cfgf p f =>
    have hp : fselIndex p.toNat < 4 := by have := p.isLt; unfold fselIndex; omega
    simp only [uopsOf, commandOf, cfgfCommand, List.mem_cons, List.not_mem_nil, or_false] at hu
    rcases hu with rfl | rfl <;> cases ha <;> exact ⟨_, regAt_fsel hc hp, rfl⟩
  | cfgp p code =>
    have hp : pullIndex p.toNat < 2 := by have := p.isLt; unfold pullIndex; omega
    simp only [uopsOf, commandOf, cfgpCommand, List.mem_cons, List.not_mem_nil, or_false] at hu
    rcases hu with rfl | rfl | rfl | rfl <;> cases ha <;> exact ⟨_, regAt_pull hc hp, rfl⟩
  | enr p =>
    simp only [uopsOf, commandOf, enrCommand, List.mem_cons, List.not_mem_nil, or_false] at hu
    rcases hu with rfl | rfl | rfl <;> cases ha <;> exact ⟨_, regAt_ren hc, rfl⟩
  | enf p =>
    simp only [uopsOf, commandOf, enfCommand, List.mem_cons, List.not_mem_nil, or_false] at hu
    rcases hu with rfl | rfl | rfl <;> cases ha <;> exact ⟨_, regAt_fen hc, rfl⟩
  | set p =>
    simp only [uopsOf, commandOf, setCommand, List.mem_cons, List.not_mem_nil, or_false] at hu
    subst hu; cases ha; exact ⟨_, regAt_gpset hc, rfl⟩
  | clr p =>
    simp only [uopsOf, commandOf, clrCommand, List.mem_cons, List.not_mem_nil, or_false] at hu
    subst hu; cases ha; exact ⟨_, regAt_gpclr hc, rfl⟩
  | setg p =>
    simp only [uopsOf, commandOf, setgCommand, List.mem_cons, List.not_mem_nil, or_false] at hu
    rcases hu with rfl | rfl | rfl | rfl | rfl | rfl <;> cases ha <;>
      first
      | exact ⟨_, regAt_ren hc, .inl rfl⟩
      | exact ⟨_, regAt_gpset hc, .inr rfl⟩
  | pri0 first last =>
    obtain ⟨w, -, hw, hu⟩ := mem_rangeWrite hu
    rw [(mem_rangeWord hu).1] at ha
    cases ha
    have := lineRangeOk_iff.1 hi
    exact ⟨_, regAt_priw hc (by omega), w, rfl⟩
  | tgt first last mask =>
    obtain ⟨w, -, hw, hu⟩ := mem_rangeWrite hu
    rw [(mem_rangeWord hu).1] at ha
    cases ha
    have := lineRangeOk_iff.1 hi
    exact ⟨_, regAt_tgtw hc (by omega), w, rfl⟩
  | sns rfirst rlast pattern =>
    obtain ⟨r, -, hr, rfl⟩ := mem_snsUops hu
    cases ha
    have := senseRangeOk_iff.1 hi
    exact ⟨_, regAt_sense hc (by omega), r, rfl⟩
  | enl l =>
    have hl : l.toNat < c.nline := of_decide_eq_true hi
    simp only [uopsOf, commandOf, enlCommand, List.mem_cons, List.not_mem_nil, or_false] at hu
    rcases hu with rfl | rfl <;> cases ha <;> exact ⟨_, regAt_isen hc (by omega), rfl⟩
  | fwd =>
    simp only [uopsOf, commandOf, fwdCommand, List.mem_cons, List.not_mem_nil, or_false] at hu
    subst hu; cases ha; exact ⟨_, regAt_ctrl hc, rfl⟩

/-- The last line a mark of this effect covers; none for the effects that mark no line. -/
def lastMarked : After → Option Nat
  | .loadSettle => none
  | .markFdone _ => none
  | .markPdone _ => none
  | .markLp _ hi => some hi
  | .markLt _ hi => some hi
  | .markLs _ hi => some hi

/-- A well-formed command marks no line beyond the last one (10_state.md R51). -/
theorem marks_in_range {c : Config} (el : BitVec 2) {i : Instr} (hi : i.wf c = true) {u : Uop}
    (hu : u ∈ uopsOf c el i) {a : After} (ha : a ∈ u.after) {m : Nat} (hm : lastMarked a = some m) :
    m < c.nline := by
  cases i with
  | pri0 first last =>
    obtain ⟨w, -, hw, hu⟩ := mem_rangeWrite hu
    rw [(mem_rangeWord hu).2.2 a ha] at hm
    cases hm
    have := lineRangeOk_iff.1 hi
    omega
  | tgt first last mask =>
    obtain ⟨w, -, hw, hu⟩ := mem_rangeWrite hu
    rw [(mem_rangeWord hu).2.2 a ha] at hm
    cases hm
    have := lineRangeOk_iff.1 hi
    omega
  | sns rfirst rlast pattern =>
    obtain ⟨r, -, hr, rfl⟩ := mem_snsUops hu
    simp only [List.mem_singleton] at ha
    subst ha
    cases hm
    have := senseRangeOk_iff.1 hi
    omega
  | cfgf p f =>
    simp only [uopsOf, commandOf, cfgfCommand, List.mem_cons, List.not_mem_nil, or_false] at hu
    rcases hu with rfl | rfl <;> simp at ha
    rcases ha with rfl | rfl <;> simp [lastMarked] at hm
  | cfgp p code =>
    simp only [uopsOf, commandOf, cfgpCommand, List.mem_cons, List.not_mem_nil, or_false] at hu
    rcases hu with rfl | rfl | rfl | rfl <;> simp at ha <;> subst ha <;> simp [lastMarked] at hm
  | enr p =>
    simp only [uopsOf, commandOf, enrCommand, List.mem_cons, List.not_mem_nil, or_false] at hu
    rcases hu with rfl | rfl | rfl <;> simp at ha
  | enf p =>
    simp only [uopsOf, commandOf, enfCommand, List.mem_cons, List.not_mem_nil, or_false] at hu
    rcases hu with rfl | rfl | rfl <;> simp at ha
  | set p =>
    simp only [uopsOf, commandOf, setCommand, List.mem_cons, List.not_mem_nil, or_false] at hu
    subst hu; simp at ha
  | clr p =>
    simp only [uopsOf, commandOf, clrCommand, List.mem_cons, List.not_mem_nil, or_false] at hu
    subst hu; simp at ha
  | setg p =>
    simp only [uopsOf, commandOf, setgCommand, List.mem_cons, List.not_mem_nil, or_false] at hu
    rcases hu with rfl | rfl | rfl | rfl | rfl | rfl <;> simp at ha
  | enl l =>
    simp only [uopsOf, commandOf, enlCommand, List.mem_cons, List.not_mem_nil, or_false] at hu
    rcases hu with rfl | rfl <;> simp at ha
  | fwd =>
    simp only [uopsOf, commandOf, fwdCommand, List.mem_cons, List.not_mem_nil, or_false] at hu
    subst hu; simp at ha

/-- Only a read carries a check of the word read (40_gpio_pinmux.md R139). -/
theorem needBit_of_not_read {c : Config} {el : BitVec 2} {i : Instr} {u : Uop} (hu : u ∈ uopsOf c el i)
    (h : ∀ a, u.action ≠ .read a) : u.needBit = none := by
  cases i with
  | pri0 first last => obtain ⟨w, -, -, hw⟩ := mem_rangeWrite hu; exact (mem_rangeWord hw).2.1
  | tgt first last mask => obtain ⟨w, -, -, hw⟩ := mem_rangeWrite hu; exact (mem_rangeWord hw).2.1
  | sns rfirst rlast pattern => obtain ⟨r, -, -, rfl⟩ := mem_snsUops hu; rfl
  | _ =>
    simp only [uopsOf, commandOf, cfgfCommand, cfgpCommand, enrCommand, enfCommand, setCommand, clrCommand,
      setgCommand, enlCommand, fwdCommand, List.mem_cons, List.not_mem_nil, or_false] at hu
    rcases hu with rfl | hu <;> simp_all <;> aesop

/-- The checks and the length of an expansion do not depend on the privilege level (41_gic_distributor.md R170: only
the value that `FWD` writes does). -/
theorem commandOf_el (c : Config) (el el' : BitVec 2) (i : Instr) :
    (commandOf c el' i).uops.length = (commandOf c el i).uops.length ∧
      (∀ s, (commandOf c el' i).pinOk s = (commandOf c el i).pinOk s) ∧
      (∀ s, (commandOf c el' i).lineOk s = (commandOf c el i).lineOk s) := by
  cases i <;> exact ⟨rfl, fun _ => rfl, fun _ => rfl⟩

end Sys2Proof.Laws
end

