-- ==== Sys2Proof/Laws/PerInstr.lean ====
section
/-! SUPPORT. Statements about the syntax of every command, one lemma per constructor of `Instr`. -/

namespace Sys2Proof.Laws

open Sys2Proof Sys2Proof.Machine

/-! ### The encoding of a command lies in the command's own row of the opcode map (spec/30_encoding.md R106) -/

/-- `encode i` has the fixed bits of the row of `i`'s mnemonic, whatever the operands. -/
def EncodesInItsRow.Statement (i : Instr) : Prop :=
  ∃ pat mask, (mnemonicOf i, pat, mask) ∈ opcodeRows ∧ encode i &&& mask = pat

/-- The fixed bits of format P, piece by piece: `imm`, `op`, the fixed zeros, `arg`, `pin`. -/
theorem formatP_and (op : BitVec 4) (arg m : BitVec 3) (pin : Pin) :
    (0#32 ++ op ++ 0#20 ++ arg ++ pin) &&&
        (BitVec.allOnes 32 ++ BitVec.allOnes 4 ++ BitVec.allOnes 20 ++ m ++ 0#5) =
      0#32 ++ op ++ 0#20 ++ (arg &&& m) ++ 0#5 := by
  simp only [BitVec.and_append, BitVec.and_allOnes, BitVec.and_zero]

/-- The same for format L. -/
theorem formatL_and (op : BitVec 4) (val m : BitVec 8) (last first : BitVec 10) :
    (0#32 ++ op ++ val ++ last ++ first) &&& (BitVec.allOnes 32 ++ BitVec.allOnes 4 ++ m ++ 0#10 ++ 0#10) =
      0#32 ++ op ++ (val &&& m) ++ 0#10 ++ 0#10 := by
  simp only [BitVec.and_append, BitVec.and_allOnes, BitVec.and_zero]

/-- The same for format R. -/
theorem formatR_and (op : BitVec 4) (pattern : Word) (rlast rfirst : BitVec 6) :
    (pattern ++ op ++ 0#16 ++ rlast ++ rfirst) &&&
        (0#32 ++ BitVec.allOnes 4 ++ BitVec.allOnes 16 ++ 0#6 ++ 0#6) =
      0#32 ++ op ++ 0#16 ++ 0#6 ++ 0#6 := by
  simp only [BitVec.and_append, BitVec.and_allOnes, BitVec.and_zero]

/-- The same for format N. -/
theorem formatN_and (op : BitVec 4) (line : BitVec 10) :
    (0#32 ++ op ++ 0#18 ++ line) &&& (BitVec.allOnes 32 ++ BitVec.allOnes 4 ++ BitVec.allOnes 18 ++ 0#10) =
      0#32 ++ op ++ 0#18 ++ 0#10 := by
  simp only [BitVec.and_append, BitVec.and_allOnes, BitVec.and_zero]

theorem EncodesInItsRow.cfgf (p : Pin) (f : BitVec 3) : EncodesInItsRow.Statement (.cfgf p f) :=
  ⟨_, _, List.mem_of_getElem? (i := 0) rfl, by
    have h := formatP_and 0x1 f 0#3 p
    rw [BitVec.and_zero] at h
    exact h⟩

theorem EncodesInItsRow.cfgp (p : Pin) (c : BitVec 2) : EncodesInItsRow.Statement (.cfgp p c) :=
  ⟨_, _, List.mem_of_getElem? (i := 1) rfl, by
    have h := formatP_and 0x2 (0#1 ++ c) 0b100 p
    have h0 : (0#1 ++ c : BitVec 3) &&& 0b100 = 0#3 := by clear h; revert c; decide
    rw [h0] at h
    exact h⟩

theorem EncodesInItsRow.enr (p : Pin) : EncodesInItsRow.Statement (.enr p) :=
  ⟨_, _, List.mem_of_getElem? (i := 2) rfl, formatP_and 0x3 0 (BitVec.allOnes 3) p⟩

theorem EncodesInItsRow.enf (p : Pin) : EncodesInItsRow.Statement (.enf p) :=
  ⟨_, _, List.mem_of_getElem? (i := 3) rfl, formatP_and 0x4 0 (BitVec.allOnes 3) p⟩

theorem EncodesInItsRow.set (p : Pin) : EncodesInItsRow.Statement (.set p) :=
  ⟨_, _, List.mem_of_getElem? (i := 4) rfl, formatP_and 0x5 0 (BitVec.allOnes 3) p⟩

theorem EncodesInItsRow.clr (p : Pin) : EncodesInItsRow.Statement (.clr p) :=
  ⟨_, _, List.mem_of_getElem? (i := 5) rfl, formatP_and 0x6 0 (BitVec.allOnes 3) p⟩

theorem EncodesInItsRow.setg (p : Pin) : EncodesInItsRow.Statement (.setg p) :=
  ⟨_, _, List.mem_of_getElem? (i := 6) rfl, formatP_and 0x7 0 (BitVec.allOnes 3) p⟩

theorem EncodesInItsRow.pri0 (first last : BitVec 10) : EncodesInItsRow.Statement (.pri0 first last) :=
  ⟨_, _, List.mem_of_getElem? (i := 7) rfl, formatL_and 0x8 0 (BitVec.allOnes 8) last first⟩

theorem EncodesInItsRow.tgt (first last : BitVec 10) (mask : BitVec 8) :
    EncodesInItsRow.Statement (.tgt first last mask) :=
  ⟨_, _, List.mem_of_getElem? (i := 8) rfl, by
    have h := formatL_and 0x9 mask 0#8 last first
    rw [BitVec.and_zero] at h
    exact h⟩

theorem EncodesInItsRow.sns (rfirst rlast : BitVec 6) (pattern : Word) :
    EncodesInItsRow.Statement (.sns rfirst rlast pattern) :=
  ⟨_, _, List.mem_of_getElem? (i := 9) rfl, formatR_and 0xA pattern rlast rfirst⟩

theorem EncodesInItsRow.enl (l : BitVec 10) : EncodesInItsRow.Statement (.enl l) :=
  ⟨_, _, List.mem_of_getElem? (i := 10) rfl, formatN_and 0xB l⟩

theorem EncodesInItsRow.fwd : EncodesInItsRow.Statement .fwd :=
  ⟨_, _, List.mem_of_getElem? (i := 11) rfl, by decide⟩

end Sys2Proof.Laws
end

