-- ==== Sys2Proof/Tests/Slice0.lean ====
section
/-! SUPPORT. Tests. The expected values are those of spec/95_test_vectors.md and of the worked examples in the rules,
not the model's; each test names its source. At the end, for every statement with hypotheses, a concrete state and
operands that meet them. -/

namespace Sys2Proof.Tests

-- One kernel evaluation at a time: many at once need a thread and its stack each.
set_option Elab.async false

open Sys2Proof Sys2Proof.Machine

/-! ### A concrete configuration and small states -/

/-- `CFG0` with the open parameters chosen as spec/95_test_vectors.md chooses them: `GPIN = 12`; `GPIO_LINE = 49` in
group 1; pins 5 and 17 as sources; no self-edge but on `GPIN`. -/
def cfgT : Config :=
  { cfg0 with ipinA := 5, ipinB := 17, gpin := 12, selfEdge := 1#32 <<< 12, gpioLine := 49, lineGroup := 1#1024 <<< 49 }

/-- The reset state under `cfgT`, every unspecified register 0: all pins are inputs. -/
def s0 : State := State.resetWith cfgT ResetDraw.zero

/-- Every tracking flag set. -/
def sReady : State :=
  { s0 with
    fdone := BitVec.allOnes 32
    pdone := BitVec.allOnes 32
    lp := BitVec.ofNat 1024 (2 ^ 256 - 1)
    lt := BitVec.ofNat 1024 (2 ^ 256 - 1)
    ls := BitVec.ofNat 1024 (2 ^ 256 - 1) }

/-- `sReady` with pin 12 an output. -/
def sOut : State := { sReady with fsel := [0, 0x40, 0, 0] }

/-- `sReady` in the middle of a command. -/
def sBusy (C : Descriptor) (ustep settle : Nat) : State :=
  { sReady with mode := .busy, cur := C, ustep := ustep, settle := settle }

/-- The answer is a next state with a property. -/
def nextIs (r : Result) (p : State → Bool) : Bool :=
  match r with
  | .next s => p s
  | .fault _ => false
  | .refused _ => false

/-- The answer is a fault of a given number of 60_exceptions.md R191, the run stopped in a state with a property. -/
def faultIs (r : Result) (id : Nat) (p : State → Bool) : Bool :=
  match r with
  | .next _ => false
  | .fault (.illegalCommand _ s) => id == 1 && p s
  | .fault (.illegalOperand _ s) => id == 2 && p s
  | .fault (.pinNotConfigured _ s) => id == 3 && p s
  | .fault (.lineNotConfigured _ s) => id == 4 && p s
  | .fault (.guardedSetNotArmed _ s) => id == 5 && p s
  | .fault (.invalidAddress _ _) => false
  | .refused _ => false

/-! ### Well-formedness: an ill-formed command for each check of 30_encoding.md R104, and the edge that passes -/

theorem test_wf_pull_code : Instr.wf cfgT (.cfgp 0 3) = false ∧ Instr.wf cfgT (.cfgp 31 2) = true := by decide +kernel
theorem test_wf_pri0_order : Instr.wf cfgT (.pri0 5 4) = false ∧ Instr.wf cfgT (.pri0 5 5) = true := by decide +kernel
theorem test_wf_pri0_last : Instr.wf cfgT (.pri0 0 256) = false ∧ Instr.wf cfgT (.pri0 0 255) = true := by decide +kernel
theorem test_wf_tgt_order : Instr.wf cfgT (.tgt 5 4 1) = false ∧ Instr.wf cfgT (.tgt 4 5 1) = true := by decide +kernel
theorem test_wf_tgt_last : Instr.wf cfgT (.tgt 0 1023 255) = false ∧ Instr.wf cfgT (.tgt 255 255 0) = true := by
  decide +kernel
theorem test_wf_sns_order : Instr.wf cfgT (.sns 4 3 0) = false ∧ Instr.wf cfgT (.sns 3 3 0) = true := by decide +kernel
theorem test_wf_sns_last : Instr.wf cfgT (.sns 0 16 0) = false ∧ Instr.wf cfgT (.sns 0 15 0) = true := by decide +kernel
theorem test_wf_enl : Instr.wf cfgT (.enl 256) = false ∧ Instr.wf cfgT (.enl 255) = true := by decide +kernel

/-! ### Decoding: words of spec/95_test_vectors.md 2.1 to 2.3, and words written bit by bit from 30_encoding.md R102
as `imm ++ op ++ ...` -/

theorem test_decode_cfgf : decode 0x0000000010000024 = .ok (.cfgf 4 0b001) ∧
    decode (0x00000000#32 ++ 0b0001#4 ++ 0b00000000000000000000#20 ++ 0b111#3 ++ 0b11111#5) = .ok (.cfgf 31 7) := by
  decide +kernel
theorem test_decode_cfgp : decode 0x0000000020000031 = .ok (.cfgp 17 0b01) ∧
    decode (0x00000000#32 ++ 0b0010#4 ++ 0b000000000000000000000#21 ++ 0b10#2 ++ 0b11111#5) = .ok (.cfgp 31 0b10) := by
  decide +kernel
theorem test_decode_enr : decode 0x0000000030000011 = .ok (.enr 17) := by decide +kernel
theorem test_decode_enf : decode 0x000000004000001B = .ok (.enf 27) := by decide +kernel
theorem test_decode_set : decode 0x0000000050000004 = .ok (.set 4) := by decide +kernel
theorem test_decode_clr : decode 0x0000000060000010 = .ok (.clr 16) := by decide +kernel
theorem test_decode_setg : decode 0x000000007000001F = .ok (.setg 31) := by decide +kernel
theorem test_decode_pri0 : decode 0x0000000080025891 = .ok (.pri0 145 150) ∧
    decode (0x00000000#32 ++ 0b1000#4 ++ 0b00000000#8 ++ 0b0000111111#10 ++ 0b0000100000#10) = .ok (.pri0 32 63) := by
  decide +kernel
theorem test_decode_tgt : decode 0x0000000090325891 = .ok (.tgt 145 150 0x03) ∧
    decode 0x000000009FF00000 = .ok (.tgt 0 0 0xFF) := by
  decide +kernel
theorem test_decode_sns : decode 0xAAAAAAAAA0000102 = .ok (.sns 2 4 0xAAAAAAAA) ∧
    decode (0x55555555#32 ++ 0b1010#4 ++ 0b0000000000000000#16 ++ 0b000011#6 ++ 0b000010#6) =
      .ok (.sns 2 3 0x55555555) := by
  decide +kernel
theorem test_decode_enl : decode 0x00000000B00003FF = .ok (.enl 1023) := by decide +kernel
theorem test_decode_fwd : decode 0x00000000C0000000 = .ok .fwd := by decide +kernel

/-- 2.1: the illegal descriptors. -/
theorem test_decode_illegal :
    [0x0000000000000000, 0xFFFFFFFFFFFFFFFF, 0x00000000D0000000, 0x00000000E0000000, 0x00000000F0000000,
      0x0000000010000124, 0x00000000200000A4, 0x0000000030000031, 0x0000000180000400, 0x000000008010FC20,
      0x00000000B0000431, 0x00000000C0000001, 0x00000001C0000000, 0x55555555A00010C2].all
        (fun C : Descriptor => decode C == .illegalCommand) = true := by
  decide +kernel

/-- The decoder of table words: the low bits of a short word, and no bit beyond the 64th. -/
theorem test_decode_table_word : decodeTableWord 64 0x10000024 = some (.cfgf 4 1) ∧
    decodeTableWord 32 0x1C0000000 = some .fwd ∧ decodeTableWord 64 0x1C0000000 = none ∧
    decodeTableWord 80 0x100000000C0000000 = none := by
  decide +kernel

/-! ### The commands: vectors VG1 to VD35 -/

/-- VG1. -/
theorem test_cfgf_all_ones : nextIs (exec (.cfgf 4 1) { s0 with fsel := [0xFFFFFFFF, 0, 0, 0] }) (fun t =>
    t.hist == [.rd 0xFE200000 0xFFFFFFFF, .wr 0xFE200000 0xFFFF9FFF] && t.fdone == 0x10 && t.settle == 150) = true := by
  decide +kernel
/-- VG9: the last register, whose upper bits belong to no pin. -/
theorem test_cfgf_pin_30 : nextIs (exec (.cfgf 30 5) { s0 with fsel := [0, 0, 0, 0xFFFFFFC0] }) (fun t =>
    t.hist == [.rd 0xFE20000C 0xFFFFFFC0, .wr 0xFE20000C 0xFFFFFFC5]) = true := by
  decide +kernel
/-- VG10. -/
theorem test_cfgp_pin_17 : nextIs (exec (.cfgp 17 1) { s0 with pull := [0, 0xFFFFFFFF] }) (fun t =>
    t.hist == [.rd 0xFE2000E8 0xFFFFFFFF, .wr 0xFE2000E8 0xFFFFFFF7] && t.pdone == 0x20000 && t.settle == 0) = true := by
  decide +kernel
/-- VG16. -/
theorem test_cfgp_reserved_code : faultIs (exec (.cfgp 0 3) s0) 2 (fun t => t.hist == []) = true := by decide +kernel
/-- VG18. -/
theorem test_enr_pin_17 : nextIs (exec (.enr 17) { sReady with ren := 0x10 }) (fun t =>
    t.hist == [.rd 0xFE20004C 0x10, .wr 0xFE20004C 0x00020010] && t.ren == 0x00020010) = true := by
  decide +kernel
/-- VG24. -/
theorem test_enr_pull_not_configured :
    faultIs (exec (.enr 5) { s0 with fdone := 0x20 }) 3 (fun t => t.hist == []) = true := by
  decide +kernel
/-- VG21. -/
theorem test_enf_pin_27 : nextIs (exec (.enf 27) { sReady with fen := 0x80000000 }) (fun t =>
    t.hist == [.rd 0xFE200058 0x80000000, .wr 0xFE200058 0x88000000] && t.fen == 0x88000000 && t.ren == 0) = true := by
  decide +kernel
/-- VG25. -/
theorem test_enf_function_not_configured :
    faultIs (exec (.enf 5) { s0 with pdone := 0x20 }) 3 (fun t => t.hist == []) = true := by
  decide +kernel
/-- VG27. -/
theorem test_set_pin_31 : nextIs (exec (.set 31) s0) (fun t =>
    t.hist == [.wr 0xFE20001C 0x80000000] && t.out == 0x80000000) = true := by
  decide +kernel
/-- E1: a plain set of an armed `GPIN` latches the spurious edge. -/
theorem test_set_spurious_edge :
    nextIs (exec (.set 12) { sOut with ren := 0x1000 }) (fun t => t.eds == 0x1000) = true := by
  decide +kernel
/-- VG29. -/
theorem test_clr_pin_16 : nextIs (exec (.clr 16) { s0 with out := 0x00010010 }) (fun t =>
    t.hist == [.wr 0xFE200028 0x00010000] && t.out == 0x00000010) = true := by
  decide +kernel
/-- VG31 and E2: the five accesses, `REN` as before, no edge latched. -/
theorem test_setg_pin_12 : nextIs (exec (.setg 12) { sOut with ren := 0x00021000 }) (fun t =>
    t.hist == [.rd 0xFE20004C 0x00021000, .wr 0xFE20004C 0x00020000, .wr 0xFE20001C 0x00001000,
      .rd 0xFE20004C 0x00020000, .wr 0xFE20004C 0x00021000] && t.ren == 0x00021000 && t.out == 0x1000 &&
      t.eds == 0) = true := by
  decide +kernel
/-- VG32. -/
theorem test_setg_not_armed : faultIs (exec (.setg 12) { sOut with ren := 0x00020000 }) 5 (fun t =>
    t.hist == [.rd 0xFE20004C 0x00020000] && t.out == 0) = true := by
  decide +kernel

/-- Words 36 and 37 of a byte array. -/
def twoWords (a b : Word) : List Word := List.replicate 36 0 ++ [a, b] ++ List.replicate 26 0

/-- VD3: two partial words. -/
theorem test_pri0_two_partial_words :
    nextIs (exec (.pri0 146 149) { s0 with priw := twoWords 0x11223344 0x55667788 }) (fun t =>
      t.hist == [.rd 0xFF841490 0x11223344, .wr 0xFF841490 0x00003344, .rd 0xFF841494 0x55667788,
        .wr 0xFF841494 0x55660000] && t.lp == 0xF#1024 <<< 146) = true := by
  decide +kernel
/-- VD7: one full word, no read. -/
theorem test_pri0_full_word : nextIs (exec (.pri0 0 3) s0) (fun t => t.hist == [.wr 0xFF841400 0]) = true := by
  decide +kernel
/-- VD14. -/
theorem test_tgt_two_partial_words :
    nextIs (exec (.tgt 145 150 3) { s0 with tgtw := twoWords 0x80808080 0x40404040 }) (fun t =>
      t.hist == [.rd 0xFF841890 0x80808080, .wr 0xFF841890 0x03030380, .rd 0xFF841894 0x40404040,
        .wr 0xFF841894 0x40030303] && t.lt == 0x3F#1024 <<< 145) = true := by
  decide +kernel
/-- VD13. -/
theorem test_tgt_full_words : nextIs (exec (.tgt 32 39 1) s0) (fun t =>
    t.hist == [.wr 0xFF841820 0x01010101, .wr 0xFF841824 0x01010101]) = true := by
  decide +kernel
/-- VD20. -/
theorem test_sns_three_registers : nextIs (exec (.sns 2 4 0xAAAAAAAA) s0) (fun t =>
    t.hist == [.wr 0xFF841C08 0xAAAAAAAA, .wr 0xFF841C0C 0xAAAAAAAA, .wr 0xFF841C10 0xAAAAAAAA] &&
      t.ls == BitVec.ofNat 1024 (2 ^ 48 - 1) <<< 32 && t.tReg == 0) = true := by
  decide +kernel
/-- 2.1: `SNS 0, 16`. -/
theorem test_sns_out_of_range : faultIs (exec (.sns 0 16 0) s0) 2 (fun t => t.hist == []) = true := by decide +kernel
/-- VD24. -/
theorem test_enl_line_49 : nextIs (exec (.enl 49) { sReady with isen := [0, 1, 0, 0, 0, 0, 0, 0] }) (fun t =>
    t.hist == [.rd 0xFF841104 1, .wr 0xFF841104 0x00020001] && t.isen == [0, 0x00020001, 0, 0, 0, 0, 0, 0]) = true := by
  decide +kernel
/-- VD29. -/
theorem test_enl_target_not_written :
    faultIs (exec (.enl 49) { sReady with lt := 0 }) 4 (fun t => t.hist == []) = true := by
  decide +kernel
/-- VD33. -/
theorem test_fwd_level_2 : nextIs (exec .fwd { s0 with elIn := 2 }) (fun t =>
    t.hist == [.wr 0xFF841000 2] && t.ctrl == 2) = true := by
  decide +kernel
/-- VD35. -/
theorem test_fwd_highest_level : nextIs (exec .fwd { s0 with elIn := 3, ctrl := 0xFFFFFFFF }) (fun t =>
    t.ctrl == 3) = true := by
  decide +kernel

/-! ### Agents -/

/-- E4: a pad edge on an armed input. -/
theorem test_pad_rising_edge : nextIs (step { sReady with ren := 0x20000, moves := [.pad 0x20000] }) (fun t =>
    t.eds == 0x20000 && t.padIn == 0x20000) = true := by
  decide +kernel
/-- Z2. -/
theorem test_first_command_enl : faultIs (step (s0.withFetchWord 64 0xB0000000)) 4 (fun t => t.hist == []) = true := by
  decide +kernel
/-- The reset state itself takes a command up, whatever its open parameters are. -/
theorem test_reset_runs_a_command :
    nextIs (step (State.reset.withFetchWord 64 0x0000000080000C00)) (fun t => t.hist == [.wr 0xFF841400 0]) = true := by
  decide +kernel
/-- P3: the line signals once enabled and forwarded. -/
theorem test_irq_out : irqOut { sReady with
    eds := 1, ctrl := 2, isen := [0, 0x00020000, 0, 0, 0, 0, 0, 0],
    tgtw := List.replicate 12 0 ++ [0x00000100] ++ List.replicate 51 0 } = true := by
  decide +kernel

/-! ### Assembler and listing (30_encoding.md R118 to R120) -/

theorem test_assemble_cfgf :
    (assembleLine cfgT "CFGF 4, OUT").map (·.map fun i => listing (encode i)) =
      some ["0000000010000024".toList] := by
  decide +kernel
theorem test_assemble_sns :
    (assembleLine cfgT "  SNS 2, 3, #0x55555555 ; two registers").map (·.map fun i => listing (encode i)) =
      some ["55555555A00000C2".toList] := by
  decide +kernel
/-- P1, P3: the expansions with their descriptors. -/
theorem test_assemble_pseudo :
    (assembleLine cfgT "ARMR 17, UP").map (·.map encode) =
      some [0x0000000010000011, 0x0000000020000031, 0x0000000030000011] ∧
    (assembleLine cfgT "LINECFG 49, #0x01, #0x55555555").map (·.map encode) =
      some [0x000000008000C431, 0x000000009010C431, 0x55555555A00000C3, 0x00000000B0000031] := by
  decide +kernel

/-- 70_reset_and_hazards.md R223 with the words of vectors P1, P2, P3 and three different pull states: source pins 5
(falling) and 17 (rising), output pins 4, 12, 16. -/
theorem test_bringUp :
    (bringUp cfgT ⟨.falling, .rising, 1, 1, 0, 1, 2, 49, 49, 49, 49, 0x01, 3, 3, 0x55555555, 49⟩).map encode =
      [0x0000000010000005, 0x0000000020000025, 0x0000000040000005,
       0x0000000010000011, 0x0000000020000031, 0x0000000030000011,
       0x0000000010000024, 0x0000000020000004, 0x000000001000002C, 0x000000002000002C,
       0x0000000010000030, 0x0000000020000050, 0x000000003000000C,
       0x000000008000C431, 0x000000009010C431, 0x55555555A00000C3, 0x00000000B0000031, 0x00000000C0000000] := by
  decide +kernel

/-! ### Witnesses: for each statement with hypotheses, a state and operands that meet all of them -/

theorem cfgT_wf : cfgT.wf = true := by decide +kernel

/-- The hypotheses that the statements about one command share. -/
def ok (s : State) : Prop := s.cfg.wf = true ∧ s.shapeOk = true ∧ s.mode = .idle

theorem ok_of {s : State} (hc : s.cfg = cfgT) (h : s.shapeOk = true ∧ s.mode = .idle) : ok s :=
  ⟨hc ▸ cfgT_wf, h⟩

theorem ok_s0 : ok s0 := ok_of rfl ⟨rfl, rfl⟩

theorem ok_sReady : ok sReady := ok_of rfl ⟨rfl, rfl⟩

theorem exists_next {r : Result} (h : nextIs r (fun _ => true) = true) : ∃ t, r = .next t := by
  cases r with
  | next s => exact ⟨s, rfl⟩
  | fault f => simp [nextIs] at h
  | refused f => simp [nextIs] at h

theorem exists_next_with {r : Result} {p : State → Bool} (h : nextIs r p = true) : ∃ t, r = .next t ∧ p t = true := by
  cases r with
  | next s => exact ⟨s, rfl, h⟩
  | fault f => simp [nextIs] at h
  | refused f => simp [nextIs] at h

/-- A Configured distributor: line 49 enabled, group 1 forwarded. -/
def sConf : State := { sReady with ctrl := 2, isen := [0, 0x00020000, 0, 0, 0, 0, 0, 0], eds := 1 }

theorem all_lines (l : Nat) (h : 256 ≤ l) : (BitVec.ofNat 1024 (2 ^ 256 - 1)).getLsbD l = false := by
  rw [BitVec.getLsbD_ofNat, Nat.testBit_two_pow_sub_one]
  simp; omega

theorem sConf_inv : sConf.Inv where
  cfgOk := cfgT_wf
  shape := rfl
  settleLe := Nat.zero_le _
  flags := fun l h => ⟨all_lines l h, all_lines l h, all_lines l h⟩
  latch := fun h => nomatch h
  ready := by
    show ∀ l, l < 256 → lineEnabled sConf l = true → lineReady sConf l = true
    decide +kernel

/-- The invariant in the middle of `ENL 49`, between its two accesses. -/
def sEnl : State := { sConf with mode := .busy, cur := 0xB0000031, ustep := 1, tReg := 0x00020000 }

theorem sEnl_inv : sEnl.Inv where
  cfgOk := cfgT_wf
  shape := rfl
  settleLe := Nat.zero_le _
  flags := fun l h => ⟨all_lines l h, all_lines l h, all_lines l h⟩
  latch := fun _ => ⟨.enl 49, by decide, by decide, by decide, by decide, by decide +kernel, by
    intro l h _
    cases h
    rfl⟩
  ready := sConf_inv.ready

theorem sched_inv {s : State} (h : s.Inv) (cs : List Descriptor) (ms : List Move) :
    ({ s with cmds := cs, moves := ms } : State).Inv :=
  ⟨h.cfgOk, h.shape, h.settleLe, h.flags, h.latch, h.ready⟩

/-- `sConf` with the host about to present `C`. -/
def sNext (C : Descriptor) : State := { sConf with cmds := [C], moves := [] }

theorem sNext_inv (C : Descriptor) : (sNext C).Inv := sched_inv sConf_inv [C] []

theorem noReset_of_nil {s : State} (h : s.moves = []) : s.noReset := by
  intro u rest h'
  rw [h] at h'
  cases h'

/-- Draws of full length. -/
def drawT : ResetDraw :=
  { ResetDraw.zero with
    fsel := List.replicate 4 1, pull := List.replicate 2 1, priw := List.replicate 64 1
    tgtw := List.replicate 64 1, sense := List.replicate 16 1 }

theorem witness_ResetGivesTheStatedValuesAndLeavesTheRestFree :
    drawT.fsel.length = 4 ∧ drawT.pull.length = 2 ∧ drawT.priw.length = cfgT.nline / 4 ∧
      drawT.tgtw.length = cfgT.nline / 4 ∧ drawT.sense.length = cfgT.nline / 16 := by
  decide

theorem witness_ResetAbandonsACommandUnderWay :
    ({ sBusy 0x20000031 3 150 with moves := [.rst drawT] } : State).moves = .rst drawT :: [] := rfl

theorem witness_EncodeOfDecodeIsTheDescriptor :
    decode 0xFFFFFFFFA0000FC0 = .ok (.sns 0 63 0xFFFFFFFF) ∧ decode 0xC0000000 = .ok .fwd := by
  decide

theorem witness_DecodeFollowsTheOpcodeMap :
    ("SNS", (0x00000000A0000000 : Descriptor), (0x00000000FFFFF000 : Descriptor)) ∈ opcodeRows ∧
      ∀ row ∈ opcodeRows, (0x0000000010000124 : Descriptor) &&& row.2.2 ≠ row.2.1 := by
  decide

theorem witness_ReservedOpcodesAreIllegalCommands :
    (0xFFFFFFFF0FFFFFFF : Descriptor).extractLsb' 28 4 = 0x0#4 ∧
      (0x00000000D0000000 : Descriptor).extractLsb' 28 4 = 0xD#4 ∧
      (0x00000000E0000000 : Descriptor).extractLsb' 28 4 = 0xE#4 ∧
      (0xFFFFFFFFFFFFFFFF : Descriptor).extractLsb' 28 4 = 0xF#4 := by
  decide

theorem witness_AcceptanceChecksComeInOrder_illegal : decode 0 = .illegalCommand ∧ s0.mode = .idle ∧
    ({ s0 with moves := [.present 0] } : State).moves = .present 0 :: [] :=
  ⟨by decide, rfl, rfl⟩

theorem witness_AcceptanceChecksComeInOrder_operand : decode 0xB0000100 = .ok (.enl 256) ∧
    Instr.wf s0.cfg (.enl 256) = false := by
  decide

theorem witness_AcceptanceChecksComeInOrder_pin : decode 0x7000001F = .ok (.setg 31) ∧
    Instr.wf s0.cfg (.setg 31) = true ∧ ¬ (s0.fdone.getLsbD 31 = true ∧ s0.pdone.getLsbD 31 = true) := by
  decide

theorem witness_AcceptanceChecksComeInOrder_line : decode 0xB00000FF = .ok (.enl 255) ∧
    Instr.wf s0.cfg (.enl 255) = true ∧
    ¬ (s0.lp.getLsbD 255 = true ∧ s0.lt.getLsbD 255 = true ∧ s0.ls.getLsbD 255 = true) := by
  decide +kernel

theorem witness_AcceptanceChecksComeInOrder_accepted : decode 0xB00000FF = .ok (.enl 255) ∧
    Instr.wf sReady.cfg (.enl 255) = true ∧ sReady.mode = .idle ∧
    sReady.fdone.getLsbD 31 = true ∧ sReady.pdone.getLsbD 31 = true ∧
    (sReady.lp.getLsbD 255 = true ∧ sReady.lt.getLsbD 255 = true ∧ sReady.ls.getLsbD 255 = true) := by
  decide +kernel

theorem witness_OperandChecksAreThoseOfTheSpec : s0.mode = .idle ∧
    ((3 : BitVec 2) ≠ s0.cfg.pullCode.none ∧ (3 : BitVec 2) ≠ s0.cfg.pullCode.up ∧
      (3 : BitVec 2) ≠ s0.cfg.pullCode.down) ∧
    ¬ ((5 : BitVec 10).toNat ≤ (4 : BitVec 10).toNat ∧ (4 : BitVec 10).toNat < s0.cfg.nline) ∧
    ¬ ((0 : BitVec 10).toNat ≤ (256 : BitVec 10).toNat ∧ (256 : BitVec 10).toNat < s0.cfg.nline) ∧
    ¬ ((0 : BitVec 6).toNat ≤ (16 : BitVec 6).toNat ∧ (16 : BitVec 6).toNat < s0.cfg.nline / 16) ∧
    ¬ (256 : BitVec 10).toNat < s0.cfg.nline := by
  decide

theorem witness_OperandChecksAreThoseOfTheSpec_fault :
    exec (.enl 256) s0 = .fault (.illegalOperand (encode (.enl 256)) s0) := rfl

theorem witness_BusyPortRefusesEveryCommand : (sBusy 0x20000031 0 150).mode = .busy ∧
    ({ sBusy 0x20000031 0 150 with moves := [.present 0xC0000000] } : State).moves = .present 0xC0000000 :: [] :=
  ⟨rfl, rfl⟩

theorem witness_OnlyHostDutiesAreRefused :
    step { sBusy 0x20000031 0 150 with moves := [.present 0xC0000000] } = .refused .commandPortBusy ∧
      step { s0 with moves := [.hostRead 4] } = .refused (.foreignAccess 4) :=
  ⟨rfl, rfl⟩

theorem witness_NoStepAccessesAnInvalidAddress : sEnl.Inv := sEnl_inv

theorem witness_CfgfReplacesTheFunctionField : ok s0 ∧ ok sOut ∧
    levelKnown s0 31 = true ∧ levelKnown sOut 12 = true ∧
    (0b001 : BitVec 3) = s0.cfg.fselCode.output ∧ (0b000 : BitVec 3) = s0.cfg.fselCode.input :=
  ⟨ok_s0, ok_of rfl ⟨rfl, rfl⟩, by decide⟩

theorem witness_CfgfChangesOnlyThePinsField :
    s0.cfg.wf = true ∧ s0.shapeOk = true ∧ s0.mode = .idle ∧ (0 < 3 * ((31 : Pin).toNat % 10) ∨
      3 * ((31 : Pin).toNat % 10) + 2 < 0) ∧ (31 < 3 * ((31 : Pin).toNat % 10) ∨ 3 * ((31 : Pin).toNat % 10) + 2 < 31) :=
  ⟨cfgT_wf, rfl, rfl, by decide, by decide⟩

theorem witness_CfgpReplacesThePullFieldAndSettles : ok s0 ∧
    ((2 : BitVec 2) = s0.cfg.pullCode.none ∨ (2 : BitVec 2) = s0.cfg.pullCode.up ∨
      (2 : BitVec 2) = s0.cfg.pullCode.down) ∧
    ¬ ((3 : BitVec 2) = s0.cfg.pullCode.none ∨ (3 : BitVec 2) = s0.cfg.pullCode.up ∨
      (3 : BitVec 2) = s0.cfg.pullCode.down) :=
  ⟨ok_s0, by decide⟩

theorem witness_CfgpPullCodeRoundTrip : ok s0 ∧
    (0 : BitVec 2) ∈ s0.cfg.pullCode.codes ∧ (2 : BitVec 2) ∈ s0.cfg.pullCode.codes :=
  ⟨ok_s0, by decide⟩

theorem witness_EnrArmsTheRisingDetector : ok sReady ∧ ok { s0 with fdone := 0x20 } ∧
    sReady.fdone.getLsbD 31 = true ∧ sReady.pdone.getLsbD 31 = true ∧
    ({ s0 with fdone := 0x20 } : State).pdone.getLsbD 5 = false :=
  ⟨ok_sReady, ok_of rfl ⟨rfl, rfl⟩, by decide⟩

theorem witness_EnfArmsTheFallingDetector : ok sReady ∧ ok { s0 with pdone := 0x20 } ∧
    sReady.fdone.getLsbD 0 = true ∧ sReady.pdone.getLsbD 0 = true ∧
    ({ s0 with pdone := 0x20 } : State).fdone.getLsbD 5 = false :=
  ⟨ok_sReady, ok_of rfl ⟨rfl, rfl⟩, by decide⟩

theorem witness_SetRaisesTheOutputBit : ok { sOut with ren := 0x1000 } ∧
    levelKnown { sOut with ren := 0x1000 } 12 = true ∧
    fnCode { sOut with ren := 0x1000 } 12 = sOut.cfg.fselCode.output ∧ sOut.out.getLsbD 12 = false :=
  ⟨ok_of rfl ⟨rfl, rfl⟩, by decide⟩

theorem witness_ClrLowersTheOutputBit : ok { sOut with out := 0x1000 } ∧
    levelKnown { sOut with out := 0x1000 } 12 = true ∧
    ({ sOut with out := 0x1000 } : State).out.getLsbD 12 = true :=
  ⟨ok_of rfl ⟨rfl, rfl⟩, by decide⟩

theorem witness_SetgSetsTheOutputWithoutAnEdge : ok sReady ∧ ok s0 ∧ ok { sReady with ren := 0x80000000 } ∧
    sReady.fdone.getLsbD 31 = true ∧ sReady.pdone.getLsbD 31 = true ∧ s0.fdone.getLsbD 31 = false ∧
    ({ sReady with ren := 0x80000000 } : State).ren.getLsbD 31 = true ∧ sReady.ren.getLsbD 31 = false :=
  ⟨ok_sReady, ok_s0, ok_of rfl ⟨rfl, rfl⟩, by decide⟩

theorem witness_SetAndClrAreIdempotentOnOut : s0.cfg.wf = true ∧ s0.mode = .idle := ⟨cfgT_wf, rfl⟩

theorem witness_SetThenClearRecordsTwoWrites :
    ok s0 ∧
      ∃ t, exec (.cfgf 4 s0.cfg.fselCode.output) s0 = .next t :=
  ⟨ok_s0, exists_next (by decide +kernel)⟩

theorem witness_Pri0ClearsTheRangesPriorities : ok s0 ∧
    ¬ ((0 : BitVec 10).toNat ≤ (256 : BitVec 10).toNat ∧ (256 : BitVec 10).toNat < s0.cfg.nline) ∧
    ((0 : BitVec 10).toNat ≤ (255 : BitVec 10).toNat ∧ (255 : BitVec 10).toNat < s0.cfg.nline) ∧
    ((3 : BitVec 10).toNat ≤ (3 : BitVec 10).toNat ∧ (3 : BitVec 10).toNat < s0.cfg.nline) :=
  ⟨ok_s0, by decide⟩

theorem witness_TgtWritesTheRangesTargets : ok s0 ∧
    ¬ ((5 : BitVec 10).toNat ≤ (4 : BitVec 10).toNat ∧ (4 : BitVec 10).toNat < s0.cfg.nline) ∧
    ((1 : BitVec 10).toNat ≤ (254 : BitVec 10).toNat ∧ (254 : BitVec 10).toNat < s0.cfg.nline) :=
  ⟨ok_s0, by decide⟩

theorem witness_RangeCommandsLeaveOtherLinesAlone :
    ok s0 ∧ (145 : BitVec 10).toNat ≤ (150 : BitVec 10).toNat ∧
      (150 : BitVec 10).toNat < s0.cfg.nline :=
  ⟨ok_s0, by decide, by decide⟩

theorem witness_SnsWritesThePatternToTheRange : ok s0 ∧
    ¬ ((4 : BitVec 6).toNat ≤ (3 : BitVec 6).toNat ∧ (3 : BitVec 6).toNat < s0.cfg.nline / 16) ∧
    ((0 : BitVec 6).toNat ≤ (15 : BitVec 6).toNat ∧ (15 : BitVec 6).toNat < s0.cfg.nline / 16) :=
  ⟨ok_s0, by decide⟩

theorem witness_EnlEnablesAConfiguredLine : ok s0 ∧ ok sReady ∧
    ¬ (256 : BitVec 10).toNat < s0.cfg.nline ∧
    (255 : BitVec 10).toNat < s0.cfg.nline ∧
    ¬ (s0.lp.getLsbD 255 = true ∧ s0.lt.getLsbD 255 = true ∧ s0.ls.getLsbD 255 = true) ∧
    (sReady.lp.getLsbD 255 = true ∧ sReady.lt.getLsbD 255 = true ∧ sReady.ls.getLsbD 255 = true) :=
  ⟨ok_s0, ok_sReady, by decide +kernel⟩

theorem witness_EnlSetsExactlyOneBitIdempotently : ok sReady ∧
    (255 : BitVec 10).toNat < sReady.cfg.nline ∧
    lineReady sReady (255 : BitVec 10).toNat = true :=
  ⟨ok_sReady, by decide +kernel⟩

theorem witness_FwdWritesTheGroupEnablesOfTheLevel : s0.cfg.wf = true ∧ s0.mode = .idle ∧
    (sBusy 0xC0000000 0 0).mode = .busy ∧ (sBusy 0xC0000000 0 0).cur = (0#32 ++ 0xC#4 ++ 0#28 : BitVec 64) ∧
    ({ sBusy 0xC0000000 0 0 with elIn := 3, moves := [.seq] } : State).moves = .seq :: [] :=
  ⟨cfgT_wf, rfl, rfl, rfl, rfl⟩

theorem witness_CommandsChangeOnlyTheBytesTheyWrite :
    (∃ t, exec (.enl 49) sReady = .next t) ∧ ¬ writesByte cfgT 0 (.enl 49) 0xFF841108 ∧
      ¬ writesByte cfgT 0 (.enl 49) 0xFF841103 := by
  refine ⟨exists_next (by decide +kernel), ?_, ?_⟩ <;>
  · rintro ⟨u, hu, A, v, ha, h1, h2⟩
    simp only [uopsOf, commandOf, enlCommand, List.mem_cons, List.not_mem_nil, or_false] at hu
    rcases hu with rfl | rfl
    · cases ha
    · cases ha
      revert h1 h2
      decide

theorem witness_DistributorCommandsLeaveTheGpioBankAlone :
    sReady.cfg.wf = true ∧ distributorFamily (.pri0 0 255) = true ∧ levelKnown sReady 31 = true ∧
      ∃ t, exec (.pri0 0 255) sReady = .next t :=
  ⟨cfgT_wf, rfl, by decide, exists_next (by decide +kernel)⟩

theorem witness_OnlyTheNamedCommandsWriteRenFenOut_ren : (sNext 0x30000005).Inv ∧ (sNext 0x30000005).noReset ∧
    ∃ t, step (sNext 0x30000005) = .next t ∧ (t.ren != (sNext 0x30000005).ren) = true :=
  ⟨sNext_inv _, noReset_of_nil rfl, exists_next_with (by decide +kernel)⟩

theorem witness_OnlyTheNamedCommandsWriteRenFenOut_fen : (sNext 0x4000001F).Inv ∧ (sNext 0x4000001F).noReset ∧
    ∃ t, step (sNext 0x4000001F) = .next t ∧ (t.fen != (sNext 0x4000001F).fen) = true :=
  ⟨sNext_inv _, noReset_of_nil rfl, exists_next_with (by decide +kernel)⟩

theorem witness_OnlyTheNamedCommandsWriteRenFenOut_out : (sNext 0x50000000).Inv ∧ (sNext 0x50000000).noReset ∧
    ∃ t, step (sNext 0x50000000) = .next t ∧ (t.out != (sNext 0x50000000).out) = true :=
  ⟨sNext_inv _, noReset_of_nil rfl, exists_next_with (by decide +kernel)⟩

theorem witness_TrackingFlagsAreClearedOnlyByReset : (sNext 0x50000000).noReset ∧
    ∃ t, step (sNext 0x50000000) = .next t :=
  ⟨noReset_of_nil rfl, exists_next (by decide +kernel)⟩

theorem witness_LatchedEdgesStayUntilReset : (sNext 0x50000000).noReset ∧ gpioIrq (sNext 0x50000000) = true ∧
    ∃ t, step (sNext 0x50000000) = .next t :=
  ⟨noReset_of_nil rfl, by decide, exists_next (by decide +kernel)⟩

theorem witness_EnableBitsAndForwardingAreOneWay : (sNext 0xC0000000).noReset ∧ (sNext 0xC0000000).Inv ∧
    lineEnabled (sNext 0xC0000000) 49 = true ∧ (sNext 0xC0000000).ctrl ≠ 0 ∧
    ∃ t, step (sNext 0xC0000000) = .next t :=
  ⟨noReset_of_nil rfl, sNext_inv _, by decide, by decide, exists_next (by decide +kernel)⟩

theorem witness_ConfiguredStaysConfiguredUntilReset : (sNext 0xB00000FF).noReset ∧ (sNext 0xB00000FF).Inv ∧
    configured (sNext 0xB00000FF) = true ∧ ∃ t, step (sNext 0xB00000FF) = .next t :=
  ⟨noReset_of_nil rfl, sNext_inv _, by decide +kernel, exists_next (by decide +kernel)⟩

theorem witness_OnlyEnabledForwardedTargetedLinesSignal : disabled s0 = true := by decide +kernel

/-- A read, a write and a lifted wait, each in the middle of a command (`ENR 5`: numbers 1, 2 and 0). -/
theorem witness_SequencerStepAdvancesAndCompletes : decode 0x30000005 = .ok (.enr 5) ∧
    (uopsOf cfgT 0 (.enr 5))[1]? = some { action := .read cfgT.map.ren } ∧
    (uopsOf cfgT 0 (.enr 5))[2]? = some { action := .write cfgT.map.ren (.modify 0 (pinBit 5)) } ∧
    (uopsOf cfgT 0 (.enr 5))[0]? = some { action := .waitSettle } ∧
    uopEnabled { action := .waitSettle } (sBusy 0x30000005 0 0) = true ∧
    regAt cfgT cfgT.map.ren = some .ren ∧ (sBusy 0x30000005 0 0).moves = [] ∧
    (∃ t, step { sBusy 0x30000005 0 0 with moves := [.seq] } = .next t) ∧
    (∃ t, step { sBusy 0x30000005 1 0 with moves := [.seq] } = .next t) ∧
    ∃ t, step { sBusy 0x30000005 2 0 with moves := [.seq] } = .next t :=
  ⟨by decide, by decide, by decide, by decide, by decide, by decide +kernel, rfl, exists_next (by decide +kernel),
    exists_next (by decide +kernel), exists_next (by decide +kernel)⟩

/-- The check of `SETG 12` fails at its read when the detector is not armed, and passes when it is. -/
theorem witness_SequencerStepAdvancesAndCompletes_check : decode 0x7000000C = .ok (.setg 12) ∧
    (uopsOf cfgT 0 (.setg 12))[1]? = some { action := .read cfgT.map.ren, needBit := some 12 } ∧
    needOk (some 12) { sReady with tReg := regRead sReady .ren } = false ∧
    needOk (some 12) { sReady with tReg := regRead { sReady with ren := 0x1000 } .ren } = true := by
  decide

/-- Each step of `CFGP 17, UP`, and a held one. -/
theorem witness_CfgpStepsLoadTheTimerAndMarkAfterTheWait : cfgT.wf = true ∧
    (sBusy 0x20000031 2 0).mode = .busy ∧
    (sBusy 0x20000031 2 0).cur = (0#32 ++ 0x2#4 ++ 0#21 ++ (1 : BitVec 2) ++ (17 : Pin) : BitVec 64) ∧
    ({ sBusy 0x20000031 2 0 with moves := [.seq] } : State).moves = .seq :: [] ∧
    (sBusy 0x20000031 0 0).ustep = 0 ∧ (sBusy 0x20000031 0 0).settle = 0 ∧ (sBusy 0x20000031 1 0).ustep = 1 ∧
    (sBusy 0x20000031 2 0).ustep = 2 ∧ (sBusy 0x20000031 3 0).ustep = 3 ∧ (sBusy 0x20000031 3 0).settle = 0 ∧
    (sBusy 0x20000031 3 150).ustep = 3 ∧ (sBusy 0x20000031 3 150).settle ≠ 0 ∧
    levelKnown (sBusy 0x20000031 2 0) 17 = true :=
  ⟨cfgT_wf, rfl, by decide, rfl, rfl, rfl, rfl, rfl, rfl, rfl, rfl, by decide, by decide⟩

theorem witness_WaitSettleHoldsTheSequencer : (sBusy 0x20000031 3 150).mode = .busy ∧
    decode (sBusy 0x20000031 3 150).cur = .ok (.cfgp 17 1) ∧
    (uopsOf cfgT 0 (.cfgp 17 1))[3]? = some { action := .waitSettle, after := [.markPdone 17] } ∧
    (sBusy 0x20000031 3 150).settle ≠ 0 ∧ (sBusy 0x20000031 3 150).moves = [] ∧
    ({ sBusy 0x20000031 3 150 with moves := [.seq] } : State).moves = .seq :: [] :=
  ⟨rfl, by decide, by decide, by decide, rfl, rfl⟩

theorem witness_HeldAccessesFindTheTimerAtZero : (sBusy 0x20000031 2 0).heldAccessesSettled ∧
    ∃ t, step (sBusy 0x20000031 2 0) = .next t := by
  refine ⟨?_, exists_next (by decide +kernel)⟩
  intro _ i hd
  have h : decode (sBusy 0x20000031 2 0).cur = .ok (.cfgp 17 1) := by decide
  rw [h] at hd
  cases hd
  exact ⟨fun _ _ _ _ => rfl, fun _ _ _ => rfl⟩

theorem witness_ClockCountsTheSettleTimerDown : ({ s0 with moves := [.clock] } : State).moves = .clock :: [] ∧
    levelKnown { s0 with moves := [.clock] } 31 = true :=
  ⟨rfl, by decide⟩

theorem witness_PadChangesLatchArmedEdgesOfInputs : sOut.cfg.wf = true ∧
    ({ sOut with moves := [.pad 0x20000] } : State).moves = .pad 0x20000 :: [] ∧
    fnCode { sOut with moves := [.pad 0x20000] } 12 = sOut.cfg.fselCode.output ∧
    fnCode { sOut with moves := [.pad 0x20000] } 31 = sOut.cfg.fselCode.input :=
  ⟨cfgT_wf, rfl, by decide, by decide⟩

theorem witness_InputMovesChangeOnlyTheirInput :
    ({ sBusy 0xC0000000 0 0 with moves := [.elIn 3] } : State).moves = .elIn 3 :: [] ∧
    ({ s0 with moves := [.lines 1] } : State).moves = .lines 1 :: [] ∧ levelKnown s0 31 = true :=
  ⟨rfl, rfl, by decide⟩

theorem witness_HostReadsChangeNothing :
    ({ s0 with moves := [.hostRead 0xFE20004C] } : State).moves = .hostRead 0xFE20004C :: [] ∧
    regAt s0.cfg 0xFE20004C = some .ren ∧ stored s0 .ren = some 0 ∧
    regAt s0.cfg 0xFE20001C = some .gpset ∧ stored s0 .gpset = none :=
  ⟨rfl, by decide +kernel, rfl, by decide +kernel, rfl⟩

theorem witness_PortWriteThenReadByRegisterKind : s0.shapeOk = true ∧ regAt s0.cfg 0xFF84111C = some (.isen 7) ∧
    regAt s0.cfg 0xFE200028 = some .gpclr ∧ regAt s0.cfg 0xFF841C3C = some (.sense 15) :=
  ⟨rfl, by decide +kernel, by decide +kernel, by decide +kernel⟩

theorem witness_StepRunsTheDecodedCommand : (sNext 0xC0000000).mode = .idle ∧ (sNext 0xC0000000).moves = [] ∧
    (sNext 0xC0000000).cmds = 0xC0000000 :: [] ∧ decode 0xC0000000 = .ok .fwd ∧
    decodeTableWord 64 0xC0000000 = some .fwd :=
  ⟨rfl, rfl, rfl, by decide, by decide⟩

theorem witness_IdleWaitsForACommand : s0.mode = .idle ∧ s0.moves = [] ∧ s0.cmds = [] := ⟨rfl, rfl, rfl⟩

theorem witness_RunOverOnlyWhenNothingIsLeftToRun :
    (sBusy 0x20000031 3 150).mode = .busy ∧ (sNext 0xC0000000).cmds ≠ [] ∧
    .present 0xC0000000 ∈ ({ s0 with moves := [.clock, .present 0xC0000000] } : State).moves ∧
    runOver { sConf with moves := [.elIn 3, .seq] } = true ∧
    ({ sConf with moves := [.elIn 3, .seq] } : State).noReset ∧
    ∃ t, step { sConf with moves := [.elIn 3, .seq] } = .next t := by
  refine ⟨rfl, by decide, by decide, by decide, ?_, exists_next (by decide +kernel)⟩
  intro u rest h
  have h' : [Move.elIn 3, .seq] = .rst u :: rest := h
  simp at h'

theorem witness_SingleStepsReachWhatExecAnswers : s0.mode = .idle ∧ s0.moves = [] := ⟨rfl, rfl⟩

theorem witness_ResetMeetsTheInvariant : cfgT.wf = true := cfgT_wf

theorem witness_EveryStepKeepsTheInvariant : (sEnl.Inv ∧ ∃ t, step sEnl = .next t) ∧
    (sNext 0x9003FC00).Inv ∧ ∃ t, step (sNext 0x9003FC00) = .next t :=
  ⟨⟨sEnl_inv, exists_next (by decide +kernel)⟩, sNext_inv _, exists_next (by decide +kernel)⟩

theorem witness_NoStepChangesTheConfiguration : ∃ t, step (sNext 0x20000031) = .next t :=
  exists_next (by decide +kernel)

theorem witness_LongestExpansionHas258MicroOperations : cfgT.wf = true ∧ Instr.wf cfgT (.tgt 1 254 1) = true ∧
    ({ cfgT with nline := 1024 } : Config).nline = 1024 :=
  ⟨cfgT_wf, by decide, rfl⟩

end Sys2Proof.Tests
end

section
/-! PROOFS. Decoding an encoded command gives the command back (spec/30_encoding.md R102, R103, R106). -/

namespace Sys2Proof.Proofs

open Sys2Proof Sys2Proof.Machine Sys2Proof.Laws
open BitVec (extractLsb'_append_eq_of_le extractLsb'_append_eq_of_add_le extractLsb'_append_eq_left
  extractLsb'_append_eq_right)

/-! ### The fields of an encoded descriptor (spec/30_encoding.md R102, R103) -/

section Formats

variable (op : BitVec 4)

@[simp] theorem fieldPin_encodeP (arg : BitVec 3) (pin : Pin) : fieldPin (encodeP op arg pin) = pin :=
  extractLsb'_append_eq_right

@[simp] theorem fieldFunction_encodeP (arg : BitVec 3) (pin : Pin) : fieldFunction (encodeP op arg pin) = arg :=
  (extractLsb'_append_eq_of_le (by decide)).trans extractLsb'_append_eq_right

@[simp] theorem fieldPull_encodeP (b : BitVec 1) (c : BitVec 2) (pin : Pin) :
    fieldPull (encodeP op (b ++ c) pin) = c :=
  (extractLsb'_append_eq_of_le (by decide)).trans <| (extractLsb'_append_eq_of_add_le (by decide)).trans
    extractLsb'_append_eq_right

@[simp] theorem op_encodeP (arg : BitVec 3) (pin : Pin) : (encodeP op arg pin).extractLsb' 28 4 = op :=
  (extractLsb'_append_eq_of_le (by decide)).trans <| (extractLsb'_append_eq_of_le (by decide)).trans <|
    (extractLsb'_append_eq_of_le (by decide)).trans extractLsb'_append_eq_right

@[simp] theorem fieldFirst_encodeL (val : BitVec 8) (last first : BitVec 10) :
    fieldFirst (encodeL op val last first) = first :=
  extractLsb'_append_eq_right

@[simp] theorem fieldLast_encodeL (val : BitVec 8) (last first : BitVec 10) :
    fieldLast (encodeL op val last first) = last :=
  (extractLsb'_append_eq_of_le (by decide)).trans extractLsb'_append_eq_right

@[simp] theorem fieldVal_encodeL (val : BitVec 8) (last first : BitVec 10) :
    fieldVal (encodeL op val last first) = val :=
  (extractLsb'_append_eq_of_le (by decide)).trans <| (extractLsb'_append_eq_of_le (by decide)).trans
    extractLsb'_append_eq_right

@[simp] theorem op_encodeL (val : BitVec 8) (last first : BitVec 10) :
    (encodeL op val last first).extractLsb' 28 4 = op :=
  (extractLsb'_append_eq_of_le (by decide)).trans <| (extractLsb'_append_eq_of_le (by decide)).trans <|
    (extractLsb'_append_eq_of_le (by decide)).trans extractLsb'_append_eq_right

@[simp] theorem fieldRFirst_encodeR (pattern : Word) (rlast rfirst : BitVec 6) :
    fieldRFirst (encodeR op pattern rlast rfirst) = rfirst :=
  extractLsb'_append_eq_right

@[simp] theorem fieldRLast_encodeR (pattern : Word) (rlast rfirst : BitVec 6) :
    fieldRLast (encodeR op pattern rlast rfirst) = rlast :=
  (extractLsb'_append_eq_of_le (by decide)).trans extractLsb'_append_eq_right

@[simp] theorem op_encodeR (pattern : Word) (rlast rfirst : BitVec 6) :
    (encodeR op pattern rlast rfirst).extractLsb' 28 4 = op :=
  (extractLsb'_append_eq_of_le (by decide)).trans <| (extractLsb'_append_eq_of_le (by decide)).trans <|
    (extractLsb'_append_eq_of_le (by decide)).trans extractLsb'_append_eq_right

@[simp] theorem fieldPattern_encodeR (pattern : Word) (rlast rfirst : BitVec 6) :
    fieldPattern (encodeR op pattern rlast rfirst) = pattern :=
  (extractLsb'_append_eq_of_le (by decide)).trans <| (extractLsb'_append_eq_of_le (by decide)).trans <|
    (extractLsb'_append_eq_of_le (by decide)).trans extractLsb'_append_eq_left

@[simp] theorem fieldFirst_encodeN (line : BitVec 10) : fieldFirst (encodeN op line) = line :=
  extractLsb'_append_eq_right

@[simp] theorem op_encodeN (line : BitVec 10) : (encodeN op line).extractLsb' 28 4 = op :=
  (extractLsb'_append_eq_of_le (by decide)).trans <| (extractLsb'_append_eq_of_le (by decide)).trans
    extractLsb'_append_eq_right

end Formats

/-! ### Decode of encode -/

/-- A row of another opcode is not matched. -/
theorem rowMatches_eq_false {C pat mask : Descriptor} (hm : mask.extractLsb' 28 4 = 0xF#4)
    (h : C.extractLsb' 28 4 ≠ pat.extractLsb' 28 4) : rowMatches C pat mask = false := by
  refine beq_false_of_ne fun heq => h ?_
  rw [← heq, BitVec.extractLsb'_and, hm]
  exact BitVec.and_allOnes.symm

/-- A mnemonic has one row. -/
theorem opcodeRows_unique : ∀ r ∈ opcodeRows, ∀ q ∈ opcodeRows, r.1 = q.1 → r = q := by decide

/-- An encoded command matches the row of its mnemonic, whatever its operands. -/
theorem rowMatches_encode {i : Instr} (h : EncodesInItsRow.Statement i) {pat mask : Descriptor}
    (hrow : (mnemonicOf i, pat, mask) ∈ opcodeRows) : rowMatches (encode i) pat mask = true := by
  obtain ⟨pat', mask', hrow', h⟩ := h
  cases opcodeRows_unique _ hrow' _ hrow rfl
  exact beq_iff_eq.2 h

/-- By cases on the command: its own row is matched, the rows before it have other opcodes, and each field of the
row is the operand encoded there (R102, R103, R106). -/
theorem decode_encode (i : Instr) : decode (encode i) = .ok i := by
  cases i with
  | cfgf p f =>
    have h := rowMatches_encode (EncodesInItsRow.cfgf p f) (List.mem_of_getElem? (i := 0) rfl)
    simp only [decode, h, if_true]
    simp [encode]
  | cfgp p c =>
    have h := rowMatches_encode (EncodesInItsRow.cfgp p c) (List.mem_of_getElem? (i := 1) rfl)
    simp only [decode, h, if_true]
    simp [encode, rowMatches_eq_false]
  | enr p =>
    have h := rowMatches_encode (EncodesInItsRow.enr p) (List.mem_of_getElem? (i := 2) rfl)
    simp only [decode, h, if_true]
    simp [encode, rowMatches_eq_false]
  | enf p =>
    have h := rowMatches_encode (EncodesInItsRow.enf p) (List.mem_of_getElem? (i := 3) rfl)
    simp only [decode, h, if_true]
    simp [encode, rowMatches_eq_false]
  | set p =>
    have h := rowMatches_encode (EncodesInItsRow.set p) (List.mem_of_getElem? (i := 4) rfl)
    simp only [decode, h, if_true]
    simp [encode, rowMatches_eq_false]
  | clr p =>
    have h := rowMatches_encode (EncodesInItsRow.clr p) (List.mem_of_getElem? (i := 5) rfl)
    simp only [decode, h, if_true]
    simp [encode, rowMatches_eq_false]
  | setg p =>
    have h := rowMatches_encode (EncodesInItsRow.setg p) (List.mem_of_getElem? (i := 6) rfl)
    simp only [decode, h, if_true]
    simp [encode, rowMatches_eq_false]
  | pri0 first last =>
    have h := rowMatches_encode (EncodesInItsRow.pri0 first last) (List.mem_of_getElem? (i := 7) rfl)
    simp only [decode, h, if_true]
    simp [encode, rowMatches_eq_false]
  | tgt first last mask =>
    have h := rowMatches_encode (EncodesInItsRow.tgt first last mask) (List.mem_of_getElem? (i := 8) rfl)
    simp only [decode, h, if_true]
    simp [encode, rowMatches_eq_false]
  | sns rfirst rlast pattern =>
    have h := rowMatches_encode (EncodesInItsRow.sns rfirst rlast pattern) (List.mem_of_getElem? (i := 9) rfl)
    simp only [decode, h, if_true]
    simp [encode, rowMatches_eq_false]
  | enl l =>
    have h := rowMatches_encode (EncodesInItsRow.enl l) (List.mem_of_getElem? (i := 10) rfl)
    simp only [decode, h, if_true]
    simp [encode, rowMatches_eq_false]
  | fwd => decide

end Sys2Proof.Proofs
end

section
/-! PROOFS. A whole command is what single steps of the agents do: presenting its descriptor, then sequencer turns and
clock cycles (spec/00_scope.md R13; spec/10_state.md R21; spec/30_encoding.md R112, R113). -/

namespace Sys2Proof.Proofs

open Sys2Proof Sys2Proof.Machine Sys2Proof.Laws

/-! ### The schedule rides along: no acceptance and no micro-operation reads or changes it -/

/-- `s` with the moves `ms` scheduled. -/
def withMoves (s : State) (ms : List Move) : State := { s with moves := ms }

theorem withMoves_self (s : State) : withMoves s s.moves = s := rfl

theorem withMoves_nil {s : State} (h : s.moves = []) : withMoves s [] = s := h ▸ withMoves_self s

theorem step_withMoves_cons (s : State) (m : Move) (ms : List Move) :
    step (withMoves s (m :: ms)) = agentStep m (withMoves s ms) := step_of_move rfl

theorem tick_withMoves (s : State) (ms : List Move) : tick (withMoves s ms) = withMoves (tick s) ms := rfl

theorem commit_withMoves (s t : State) (ms : List Move) :
    commit (withMoves s ms) (withMoves t ms) = withMoves (commit s t) ms := rfl

theorem advance_withMoves (b : Bool) (s : State) (ms : List Move) :
    advance b (withMoves s ms) = withMoves (advance b s) ms := rfl

theorem applyAfters_withMoves (s : State) (as : List After) (ms : List Move) :
    applyAfters (withMoves s ms) as = withMoves (applyAfters s as) ms := by
  induction as generalizing s with
  | nil => rfl
  | cons a as ih =>
    have ha : applyAfter (withMoves s ms) a = withMoves (applyAfter s a) ms := by cases a <;> rfl
    exact (congrArg (applyAfters · as) ha).trans (ih _)

theorem perform_withMoves {act : Action} {s t : State} (h : perform act s = .next t) (ms : List Move) :
    perform act (withMoves s ms) = .next (withMoves t ms) := by
  cases act with
  | waitSettle => cases h; rfl
  | read a =>
    obtain ⟨r, hr, rfl⟩ := memRead_eq_next.1 h
    exact memRead_eq_next.2 ⟨r, hr, by cases r <;> rfl⟩
  | write a v =>
    obtain ⟨r, hr, rfl⟩ := memWrite_eq_next.1 h
    exact memWrite_eq_next.2 ⟨r, hr, by cases r <;> rfl⟩

theorem uopStep_withMoves {last : Bool} {u : Uop} {s t : State} (h : uopStep last u s = .next t)
    (ms : List Move) : uopStep last u (withMoves s ms) = .next (withMoves t ms) := by
  obtain ⟨s1, hp, hn, rfl⟩ := uopStep_eq_next.1 h
  refine uopStep_eq_next.2 ⟨withMoves s1 ms, perform_withMoves hp ms, hn, ?_⟩
  rw [applyAfters_withMoves, advance_withMoves, commit_withMoves]

theorem uopStep_moves {last : Bool} {u : Uop} {s t : State} (h : uopStep last u s = .next t) :
    t.moves = s.moves := by
  have ht : t = withMoves t s.moves := by simpa [withMoves_self, h] using uopStep_withMoves h s.moves
  rw [ht]; rfl

theorem accept_withMoves {C : Descriptor} {k : Command} {s t : State} (h : accept C k s = .next t)
    (ms : List Move) : accept C k (withMoves s ms) = .next (withMoves t ms) := by
  obtain ⟨hm, ho, hp, hl, rfl⟩ := accept_eq_next.1 h
  exact accept_eq_next.2 ⟨hm, ho, hp, hl, rfl⟩

theorem accept_moves {C : Descriptor} {k : Command} {s t : State} (h : accept C k s = .next t) :
    t.moves = s.moves := by
  obtain ⟨-, -, -, -, rfl⟩ := accept_eq_next.1 h
  rfl

/-! ### Runs of the machine -/

theorem run_succ_of_next {M : Host.Core} {s t : M.State} (h : M.step s = .next t) (n : Nat) :
    M.run (n + 1) s = M.run n t := by
  rw [Host.Core.run, h]

theorem run_one {M : Host.Core} (s : M.State) : M.run 1 s = M.step s := by
  rw [Host.Core.run]
  cases M.step s <;> rfl

/-- From `s`, some schedule of sequencer turns and clock cycles only, run step by step to its end, answers `r`. -/
def reachesBySteps (s : State) (r : Result) : Prop :=
  ∃ ms : List Move, (∀ m ∈ ms, m = .clock ∨ m = .seq) ∧ Host.Core.run core ms.length (withMoves s ms) = r

theorem reachesBySteps_refl {s : State} (h : s.moves = []) : reachesBySteps s (.next s) :=
  ⟨[], by simp, congrArg Host.Outcome.next (withMoves_nil h)⟩

/-- A turn or a cycle that answers a next state comes before the schedule from there. -/
theorem reachesBySteps_of_next {m : Move} {s t : State} {r : Result} (hm : m = .clock ∨ m = .seq)
    (h : ∀ ms, agentStep m (withMoves s ms) = .next (withMoves t ms)) (ht : reachesBySteps t r) :
    reachesBySteps s r := by
  obtain ⟨ms, hms, hr⟩ := ht
  refine ⟨m :: ms, List.forall_mem_cons.2 ⟨hm, hms⟩, ?_⟩
  exact (run_succ_of_next ((step_withMoves_cons s m ms).trans (h ms)) _).trans hr

/-- A schedule of one turn or cycle answers what that answers: a fault stops with nothing left scheduled. -/
theorem reachesBySteps_single {m : Move} {s : State} (hm : m = .clock ∨ m = .seq) (h : s.moves = []) :
    reachesBySteps s (agentStep m s) :=
  have hstep : step (withMoves s [m]) = agentStep m s := by rw [step_withMoves_cons, withMoves_nil h]
  ⟨[m], by simpa using hm, (run_one (M := core) _).trans hstep⟩

theorem reachesBySteps_of_ticks {n : Nat} {s : State} {r : Result} (h : reachesBySteps (ticks n s) r) :
    reachesBySteps s r := by
  induction n generalizing s with
  | zero => exact h
  | succ n ih => exact reachesBySteps_of_next (.inl rfl) (fun ms => congrArg _ (tick_withMoves s ms)) (ih h)

/-- A turn of the sequencer, whatever is scheduled after it, performs the first micro-operation left to do. -/
theorem agentStep_seq_of_leftToDo {s : State} {i : Instr} {u : Uop} {us : List Uop} (hl : leftToDo s i (u :: us))
    (he : uopEnabled u s = true) (ms : List Move) :
    agentStep .seq (withMoves s ms) = uopStep us.isEmpty u (withMoves s ms) :=
  seqStep_of_enabled (s := withMoves s ms) hl.1 (leftToDo_nextUop (s := withMoves s ms) hl) he

/-- By induction over the micro-operations left to do: clock cycles lift the hold of the first one, one sequencer
turn performs it, and the rest follows. -/
theorem reachesBySteps_runUops {i : Instr} {us : List Uop} {s : State} (hm : s.moves = [])
    (hl : us ≠ [] → leftToDo s i us) : reachesBySteps s (runUops us s) := by
  induction us generalizing s with
  | nil => exact reachesBySteps_refl hm
  | cons u us ih =>
    obtain ⟨n, hn⟩ : ∃ n, liftHold u s = ticks n s := ⟨_, liftHold_eq_ticks u s⟩
    have he : uopEnabled u (ticks n s) = true := hn ▸ uopEnabled_liftHold u s
    rw [runUops, hn]
    refine reachesBySteps_of_ticks (n := n) ?_
    have hl0 := leftToDo_ticks n (hl (List.cons_ne_nil _ _))
    have hm0 : (ticks n s).moves = [] := (ticks_moves n s).trans hm
    have hturn := agentStep_seq_of_leftToDo hl0 he
    cases hu : uopStep us.isEmpty u (ticks n s) with
    | next t =>
      refine reachesBySteps_of_next (.inr rfl) (fun ms => (hturn ms).trans (uopStep_withMoves hu ms)) ?_
      exact ih ((uopStep_moves hu).trans hm0) fun hne => leftToDo_uopStep hl0 (by simpa using hne) hu
    | fault f =>
      have hfault : agentStep .seq (ticks n s) = .fault f := by
        simpa only [withMoves_nil hm0, hu] using hturn []
      simpa only [hfault] using reachesBySteps_single (.inr rfl) hm0
    | refused r => exact absurd hu uopStep_ne_refused

/-! ### The obligation -/

/-- Settles O50: the descriptor is presented as `exec` accepts it, and what is left to do is reached by
`reachesBySteps_runUops`; where acceptance faults, the schedule is empty. -/
theorem singleStepsReachWhatExecAnswers : Obligations.SingleStepsReachWhatExecAnswers := by
  unfold Obligations.SingleStepsReachWhatExecAnswers
  intro i s hidle hmoves
  have hpresent : ∀ ms, step (withMoves s (.present (encode i) :: ms)) =
      accept (encode i) (commandOf s.cfg s.elIn i) (withMoves s ms) :=
    fun ms => (step_withMoves_cons ..).trans (presentStep_ok (decode_encode i))
  rw [exec_eq_runCommand, runCommand]
  cases ha : accept (encode i) (commandOf s.cfg s.elIn i) s with
  | next t =>
    obtain ⟨ms, hms, hr⟩ := reachesBySteps_runUops ((accept_moves ha).trans hmoves)
      fun _ => leftToDo_accept (decode_encode i) ha
    exact ⟨ms, hms, (run_succ_of_next ((hpresent ms).trans (accept_withMoves ha ms)) _).trans hr⟩
  | fault f => exact ⟨[], by simp, (run_one _).trans ((hpresent []).trans (by rw [withMoves_nil hmoves, ha]))⟩
  | refused r => exact absurd (accept_eq_refused.1 ha).1 (by simp [hidle])

end Sys2Proof.Proofs
end

section
/-! PROOFS. What no step but reset loses (spec/10_state.md R39, R42, R50, R51, R55): the configuration, a latched edge,
a tracking flag, an enable bit. One relation between two states says all of it, each part of a step is shown to meet
it once, and the statements about single fields are its components. -/

namespace Sys2Proof.Proofs

open Sys2Proof Sys2Proof.Machine Sys2Proof.Laws

/-! ### One access -/

/-- What the action of a micro-operation can do: nothing, a read or a write of a register of the map. -/
theorem perform_cases {act : Action} {s t : State} (h : perform act s = .next t) :
    (act = .waitSettle ∧ t = s) ∨
      (∃ a r, act = .read a ∧ regAt s.cfg a = some r ∧ t = { s with
        tReg := regRead s r
        hist := s.hist ++ [.rd a (regRead s r)]
        readDraws := s.readDraws + drawsOf s r }) ∨
      ∃ a v r, act = .write a v ∧ regAt s.cfg a = some r ∧
        t = { regWrite s (v.eval s.tReg) r with hist := s.hist ++ [.wr a (v.eval s.tReg)] } := by
  cases act with
  | waitSettle => cases h; exact .inl ⟨rfl, rfl⟩
  | read a =>
    obtain ⟨r, hr, ht⟩ := memRead_eq_next.1 h
    exact .inr (.inl ⟨a, r, rfl, hr, ht⟩)
  | write a v =>
    obtain ⟨r, hr, ht⟩ := memWrite_eq_next.1 h
    exact .inr (.inr ⟨a, v, r, rfl, hr, ht⟩)

/-! ### The bits of one word kept in another -/

theorem and_or_self_left {w : Nat} (x y : BitVec w) : x &&& (x ||| y) = x := by
  apply BitVec.eq_of_getLsbD_eq
  intro i _
  cases h : x.getLsbD i <;> simp [h]

theorem and_eq_left_trans {w : Nat} {x y z : BitVec w} (hxy : x &&& y = x) (hyz : y &&& z = y) : x &&& z = x := by
  calc x &&& z = x &&& (y &&& z) := by rw [← BitVec.and_assoc, hxy]
    _ = x := by rw [hyz, hxy]

theorem getLsbD_of_and_eq_left {w : Nat} {x y : BitVec w} (h : x &&& y = x) {i : Nat} (hi : x.getLsbD i = true) :
    y.getLsbD i = true := by
  rw [← h, BitVec.getLsbD_and, Bool.and_eq_true] at hi
  exact hi.2

/-! ### The relation -/

/-- `t` has the configuration of `s`, and every latched edge, tracking flag and enable bit of `s`. -/
structure Grows (s t : State) : Prop where
  cfg : t.cfg = s.cfg
  eds : s.eds &&& t.eds = s.eds
  fdone : s.fdone &&& t.fdone = s.fdone
  pdone : s.pdone &&& t.pdone = s.pdone
  lp : s.lp &&& t.lp = s.lp
  lt : s.lt &&& t.lt = s.lt
  ls : s.ls &&& t.ls = s.ls
  enabled : ∀ l, lineEnabled s l = true → lineEnabled t l = true

theorem Grows.trans {s t v : State} (hst : Grows s t) (htv : Grows t v) : Grows s v where
  cfg := htv.cfg.trans hst.cfg
  eds := and_eq_left_trans hst.eds htv.eds
  fdone := and_eq_left_trans hst.fdone htv.fdone
  pdone := and_eq_left_trans hst.pdone htv.pdone
  lp := and_eq_left_trans hst.lp htv.lp
  lt := and_eq_left_trans hst.lt htv.lt
  ls := and_eq_left_trans hst.ls htv.ls
  enabled l hl := htv.enabled l (hst.enabled l hl)

/-- A change of none of the fields the relation speaks of. -/
theorem Grows.of_eq {s t : State} (cfg : t.cfg = s.cfg := by rfl) (eds : t.eds = s.eds := by rfl)
    (fdone : t.fdone = s.fdone := by rfl) (pdone : t.pdone = s.pdone := by rfl) (lp : t.lp = s.lp := by rfl)
    (lt : t.lt = s.lt := by rfl) (ls : t.ls = s.ls := by rfl) (isen : t.isen = s.isen := by rfl) : Grows s t := by
  constructor <;> simp [*, lineEnabled]

theorem Grows.refl (s : State) : Grows s s := .of_eq

theorem Grows.pinReady {s t : State} (h : Grows s t) {p : Nat} (hp : pinReady s p = true) : pinReady t p = true := by
  simp only [Machine.pinReady, Bool.and_eq_true] at hp ⊢
  exact ⟨getLsbD_of_and_eq_left h.fdone hp.1, getLsbD_of_and_eq_left h.pdone hp.2⟩

theorem Grows.lineReady {s t : State} (h : Grows s t) {l : Nat} (hl : lineReady s l = true) :
    lineReady t l = true := by
  simp only [Machine.lineReady, Bool.and_eq_true] at hl ⊢
  obtain ⟨⟨hlp, hlt⟩, hls⟩ := hl
  exact ⟨⟨getLsbD_of_and_eq_left h.lp hlp, getLsbD_of_and_eq_left h.lt hlt⟩, getLsbD_of_and_eq_left h.ls hls⟩

theorem Grows.pinOk {s t : State} (h : Grows s t) {k : Command} (hk : k.pinOk s = true) : k.pinOk t = true := by
  unfold Command.pinOk at hk ⊢
  cases hp : k.needPin with
  | none => rfl
  | some p => rw [hp] at hk; exact h.pinReady hk

theorem Grows.lineOk {s t : State} (h : Grows s t) {k : Command} (hk : k.lineOk s = true) : k.lineOk t = true := by
  unfold Command.lineOk at hk ⊢
  cases hl : k.needLine with
  | none => rfl
  | some l => rw [hl] at hk; exact h.lineReady hk

/-! ### Each part of a step meets it -/

theorem grows_commit (s s' : State) : Grows s' (commit s s') :=
  { Grows.of_eq (s := s') (t := { commit s s' with eds := s'.eds }) with eds := commit_eds_keeps s s' }

theorem grows_tick (s : State) : Grows s (tick s) := .trans .of_eq (grows_commit s _)

theorem grows_applyAfter (s : State) (a : After) : Grows s (applyAfter s a) := by
  cases a <;> constructor <;> simp [applyAfter, and_or_self_left, lineEnabled]

theorem grows_applyAfters (s : State) (as : List After) : Grows s (applyAfters s as) := by
  induction as generalizing s with
  | nil => exact .refl s
  | cons a as ih => exact (grows_applyAfter s a).trans (ih _)

/-- A write to `ISEN[n]` is ORed in. -/
theorem lineEnabled_set_isen {s : State} {n l : Nat} (v : Word) (h : lineEnabled s l = true) :
    lineEnabled { s with isen := s.isen.set n (regAtIndex s.isen n ||| v) } l = true := by
  unfold lineEnabled at h ⊢
  by_cases hn : l / 32 = n
  · subst hn
    by_cases hlen : l / 32 < s.isen.length
    · simp only [regAtIndex_set_self _ _ _ hlen, BitVec.getLsbD_or, h, Bool.true_or]
    · rw [regAtIndex_of_length_le _ _ (by omega)] at h
      simp at h
  · simpa only [regAtIndex_set_ne _ _ _ _ hn] using h

theorem grows_regWrite (s : State) (v : Word) (r : Reg) : Grows s (regWrite s v r) := by
  cases r with
  | isen n =>
    exact { Grows.of_eq (s := s) (t := { s with out := s.out }) with enabled := fun l => lineEnabled_set_isen v }
  | _ => exact .of_eq

theorem grows_perform {act : Action} {s t : State} (h : perform act s = .next t) : Grows s t := by
  obtain ⟨-, rfl⟩ | ⟨a, r, -, -, rfl⟩ | ⟨a, v, r, -, -, rfl⟩ := perform_cases h
  · exact .refl t
  · exact .of_eq
  · exact (grows_regWrite s _ r).trans .of_eq

theorem grows_uopStep {last : Bool} {u : Uop} {s t : State} (h : uopStep last u s = .next t) : Grows s t := by
  obtain ⟨s1, hp, -, rfl⟩ := uopStep_eq_next.1 h
  exact (grows_perform hp).trans <| (grows_applyAfters s1 u.after).trans <|
    .trans (.of_eq (t := advance last _)) (grows_commit s _)

theorem grows_seqStep {s t : State} (h : seqStep s = .next t) : Grows s t := by
  rcases seqStep_eq_next h with rfl | ⟨-, -, rfl⟩ | ⟨-, u, last, -, -, hu⟩
  · exact .refl t
  · exact .of_eq
  · exact grows_uopStep hu

theorem grows_presentStep {C : Descriptor} {s t : State} (h : presentStep C s = .next t) : Grows s t := by
  obtain ⟨i, -, ha⟩ := presentStep_eq_next.1 h
  obtain ⟨-, -, -, -, rfl⟩ := accept_eq_next.1 ha
  exact .trans .of_eq (grows_commit s _)

/-- Every step of every agent but reset loses nothing of it. -/
theorem step_grows {s t : State} (hn : s.noReset) (h : step s = .next t) : Grows s t := by
  exact step_keeps (P := Grows s) decode_encode
    (hmoves := fun _ _ hs => hs.trans .of_eq)
    (hcmds := fun _ _ hs => hs.trans .of_eq)
    (htick := fun v hs => hs.trans (grows_tick v))
    (hpad := fun v _ hs => hs.trans (.trans .of_eq (grows_commit v _)))
    (hel := fun v _ hs => hs.trans (.trans .of_eq (grows_commit v _)))
    (hlines := fun v _ hs => hs.trans (.trans .of_eq (grows_commit v _)))
    (hpresent := fun _ _ _ hs hp => hs.trans (grows_presentStep hp))
    (hseq := fun _ _ hs hq => hs.trans (grows_seqStep hq))
    (hread := fun _ _ _ hs => hs.trans .of_eq)
    (hrst := fun u rest hm => absurd hm (hn u rest)) (.refl s) h

/-! ### The obligations -/

/-- Settles O36: the flags are components of `Grows`. -/
theorem trackingFlagsAreClearedOnlyByReset : Obligations.TrackingFlagsAreClearedOnlyByReset := by
  unfold Obligations.TrackingFlagsAreClearedOnlyByReset
  intro s t hn h
  have hg := step_grows hn h
  exact ⟨hg.fdone, hg.pdone, hg.lp, hg.lt, hg.ls⟩

/-- Settles O37: a word that keeps the bits of one that is not 0 is not 0. -/
theorem latchedEdgesStayUntilReset : Obligations.LatchedEdgesStayUntilReset := by
  unfold Obligations.LatchedEdgesStayUntilReset
  intro s t hn h
  have hg := (step_grows hn h).eds
  refine ⟨hg, fun hirq => ?_⟩
  simp only [gpioIrq, bne_iff_ne] at hirq ⊢
  intro h0
  rw [h0] at hg
  exact hirq (hg.symm.trans BitVec.and_zero)

/-- Settles O53: a step is a reset, which takes the configuration over, or it is none. -/
theorem noStepChangesTheConfiguration : Obligations.NoStepChangesTheConfiguration := by
  unfold Obligations.NoStepChangesTheConfiguration
  intro s t h
  by_cases hn : s.noReset
  · exact (step_grows hn h).cfg
  · simp only [State.noReset, not_forall, not_not] at hn
    obtain ⟨u, rest, hm⟩ := hn
    rw [step_of_move hm] at h
    cases h
    rfl

end Sys2Proof.Proofs
end

section
/-! PROOFS. How many micro-operations a command has (spec/10_state.md R21; spec/41_gic_distributor.md R162, R166). -/

namespace Sys2Proof.Proofs

open Sys2Proof Sys2Proof.Machine Sys2Proof.Laws

theorem nline_le_of_wf {c : Config} (h : c.wf = true) : c.nline ≤ 1024 := by
  obtain ⟨-, -, -, hle, -⟩ := wf_parts h
  exact hle

/-! ### A range of lines -/

section Range

variable {base first last : Nat} {v : Word} {mark : Nat → Nat → After}

/-- A word wholly inside the range is one write, any other a read and a write. -/
theorem length_rangeWord (w : Nat) :
    (rangeWord base first last v mark w).length = if first ≤ 4 * w ∧ 4 * w + 3 ≤ last then 1 else 2 := by
  unfold rangeWord
  by_cases hfull : laneMask first last w = BitVec.allOnes 32
  · rw [if_pos ((laneMask_eq_allOnes first last w).1 hfull)]
    simp only [if_pos hfull, List.length_singleton]
  · rw [if_neg (mt (laneMask_eq_allOnes first last w).2 hfull)]
    simp only [if_neg hfull, List.length_cons, List.length_nil]

theorem length_rangeWord_le (w : Nat) : (rangeWord base first last v mark w).length ≤ 2 := by
  rw [length_rangeWord]
  split <;> omega

/-- Words wholly inside the range are one micro-operation each. -/
theorem length_innerWords {a n : Nat} (ha : first ≤ 4 * a) (hn : 4 * (a + n) ≤ last + 1) :
    ((List.range' a n).flatMap (rangeWord base first last v mark)).length = n := by
  induction n generalizing a with
  | zero => rfl
  | succ n ih =>
    rw [List.range'_succ, List.flatMap_cons, List.length_append, length_rangeWord,
      if_pos ⟨ha, by omega⟩, ih (by omega) (by omega), Nat.add_comm]

/-- In a range of more than one word only the two outer ones can be partly covered. -/
theorem length_rangeWrite (h : first / 4 < last / 4) :
    (rangeWrite base first last v mark).length = (rangeWord base first last v mark (first / 4)).length +
      (last / 4 - first / 4 - 1) + (rangeWord base first last v mark (last / 4)).length := by
  obtain ⟨n, hn⟩ : ∃ n, last / 4 = first / 4 + 1 + n := ⟨last / 4 - first / 4 - 1, by omega⟩
  have hwords : List.range' (first / 4) (last / 4 + 1 - first / 4) =
      first / 4 :: (List.range' (first / 4 + 1) n ++ [last / 4]) := by
    rw [show last / 4 + 1 - first / 4 = (n + 1) + 1 by omega, List.range'_succ, List.range'_1_concat, hn]
  rw [rangeWrite, hwords]
  simp only [List.flatMap_cons, List.flatMap_append, List.flatMap_nil, List.append_nil, List.length_append]
  rw [length_innerWords (by omega) (by omega)]
  omega

theorem length_rangeWrite_le (h : first ≤ last) : (rangeWrite base first last v mark).length ≤ last / 4 + 3 := by
  have h1 := length_rangeWord_le (base := base) (first := first) (last := last) (v := v) (mark := mark) (first / 4)
  have h2 := length_rangeWord_le (base := base) (first := first) (last := last) (v := v) (mark := mark) (last / 4)
  by_cases hone : first / 4 < last / 4
  · rw [length_rangeWrite hone]
    omega
  · have heq : last / 4 = first / 4 := by omega
    rw [rangeWrite, show last / 4 + 1 - first / 4 = 1 by omega, List.range'_one, List.flatMap_singleton]
    omega

theorem rangeWrite_ne_nil (h : first ≤ last) : rangeWrite base first last v mark ≠ [] := by
  intro hnil
  have hmem : first / 4 ∈ List.range' (first / 4) (last / 4 + 1 - first / 4) := List.mem_range'_1.2 (by omega)
  have hlen := length_rangeWord (base := base) (first := first) (last := last) (v := v) (mark := mark) (first / 4)
  rw [List.flatMap_eq_nil_iff.1 hnil _ hmem] at hlen
  split at hlen <;> cases hlen

end Range

/-! ### Every command -/

theorem length_snsUops (c : Config) (el : BitVec 2) (rfirst rlast : BitVec 6) (pattern : Word) :
    (uopsOf c el (.sns rfirst rlast pattern)).length = rlast.toNat + 1 - rfirst.toNat := by
  simp [uopsOf, commandOf, snsCommand]

/-- A command that passed its checks has a first micro-operation. -/
theorem uopsOf_ne_nil {c : Config} (el : BitVec 2) {i : Instr} (hi : i.wf c = true) : uopsOf c el i ≠ [] := by
  cases i with
  | pri0 first last => exact rangeWrite_ne_nil (lineRangeOk_iff.1 hi).1
  | tgt first last mask => exact rangeWrite_ne_nil (lineRangeOk_iff.1 hi).1
  | sns rfirst rlast pattern =>
    have hle := (senseRangeOk_iff.1 hi).1
    have hlen := length_snsUops c el rfirst rlast pattern
    exact List.ne_nil_of_length_pos (by omega)
  | _ => exact List.cons_ne_nil _ _

/-- Settles O54: of at most 256 words two are read first; `PRI0 1, 1022` covers both its outer words in part. -/
theorem longestExpansionHas258MicroOperations : Obligations.LongestExpansionHas258MicroOperations := by
  unfold Obligations.LongestExpansionHas258MicroOperations
  refine ⟨fun c el i hc hi => ?_, fun c el _ => ?_⟩
  · have hnline := nline_le_of_wf hc
    cases i with
    | pri0 first last =>
      obtain ⟨hle, hlast⟩ := lineRangeOk_iff.1 hi
      exact (length_rangeWrite_le hle).trans (by omega)
    | tgt first last mask =>
      obtain ⟨hle, hlast⟩ := lineRangeOk_iff.1 hi
      exact (length_rangeWrite_le hle).trans (by omega)
    | sns rfirst rlast pattern =>
      have hlast := rlast.isLt
      rw [length_snsUops]
      omega
    | _ => simp [uopsOf, commandOf, cfgfCommand, cfgpCommand, enrCommand, enfCommand, setCommand, clrCommand,
        setgCommand, enlCommand, fwdCommand]
  · have hlen := length_rangeWrite (base := c.map.pri) (first := 1) (last := 1022) (v := 0) (mark := .markLp)
      (by decide)
    rw [length_rangeWord, length_rangeWord] at hlen
    exact hlen

end Sys2Proof.Proofs
end

section
/-! PROOFS. The invariant of the machine: it holds at reset and every step of every agent keeps it (spec/10_state.md
R21, R24, R46, R51; spec/41_gic_distributor.md R168; spec/70_reset_and_hazards.md R220, R228). -/

namespace Sys2Proof.Proofs

open Sys2Proof Sys2Proof.Machine Sys2Proof.Laws

/-! ### Reset -/

theorem regAtIndex_isen_resetWith (c : Config) (u : ResetDraw) (n : Nat) :
    regAtIndex (State.resetWith c u).isen n = 0 := by
  simp only [regAtIndex, State.resetWith, List.getD_eq_getElem?_getD, List.getElem?_replicate]
  split <;> rfl

theorem lineEnabled_resetWith (c : Config) (u : ResetDraw) (l : Nat) :
    lineEnabled (State.resetWith c u) l = false := by
  rw [lineEnabled, regAtIndex_isen_resetWith]
  exact BitVec.getLsbD_zero

theorem resetWith_inv {c : Config} (u : ResetDraw) (hc : c.wf = true) : (State.resetWith c u).Inv where
  cfgOk := hc
  shape := resetWith_shapeOk c u
  settleLe := Nat.zero_le _
  flags := fun _ _ => ⟨BitVec.getLsbD_zero, BitVec.getLsbD_zero, BitVec.getLsbD_zero⟩
  latch := nofun
  ready := fun l _ hl => by simp [lineEnabled_resetWith] at hl

/-- A reset step keeps the inputs and what the host will do, on which the invariant does not depend in `Idle`. -/
theorem inv_resetStep (u : ResetDraw) {s : State} (hc : s.cfg.wf = true) : (resetStep u s).Inv :=
  have h := resetWith_inv u hc
  ⟨h.cfgOk, h.shape, h.settleLe, h.flags, nofun, h.ready⟩

/-! ### Inputs, schedule, clock -/

/-- The invariant does not look at the inputs of pads and lines, the model's own fields and the edge latch. -/
theorem inv_of_unobserved {s : State} (h : s.Inv) (eds pad : Word) (ext : LineSet) (cmds : List Descriptor)
    (moves : List Move) (rd : Word) (levels reads : Nat) : State.Inv { s with
      eds := eds, padIn := pad, extPending := ext, cmds := cmds, moves := moves, hostRd := rd
      levelDraws := levels, readDraws := reads } :=
  ⟨h.cfgOk, h.shape, h.settleLe, h.flags, h.latch, h.ready⟩

theorem inv_commit (s : State) {t : State} (h : t.Inv) : (commit s t).Inv := inv_of_unobserved h _ _ _ _ _ _ _ _

theorem inv_tick {s : State} (h : s.Inv) : (tick s).Inv :=
  inv_commit s ⟨h.cfgOk, h.shape, (Nat.sub_le _ _).trans h.settleLe, h.flags, h.latch, h.ready⟩

/-- Which commands are complete and checked does not depend on the privilege level. -/
theorem latchOk_elIn {s : State} (h : s.latchOk) (v : BitVec 2) : State.latchOk { s with elIn := v } := by
  obtain ⟨i, hd, hwf, hstep, hpin, hline, henl⟩ := h
  obtain ⟨hlen, hpin', hline'⟩ := commandOf_el s.cfg s.elIn v i
  exact ⟨i, hd, hwf, hstep.trans_eq hlen.symm, (hpin' s).trans hpin, (hline' s).trans hline, henl⟩

theorem inv_elIn {s : State} (h : s.Inv) (v : BitVec 2) : State.Inv { s with elIn := v } :=
  ⟨h.cfgOk, h.shape, h.settleLe, h.flags, fun hm => latchOk_elIn (h.latch hm) v, h.ready⟩

/-! ### Acceptance -/

theorem inv_presentStep {C : Descriptor} {s t : State} (h : s.Inv) (ht : presentStep C s = .next t) : t.Inv := by
  obtain ⟨i, hd, ha⟩ := presentStep_eq_next.1 ht
  obtain ⟨-, hops, hpin, hline, rfl⟩ := accept_eq_next.1 ha
  refine inv_commit s ⟨h.cfgOk, h.shape, h.settleLe, h.flags, fun _ => ?_, h.ready⟩
  have hwf : i.wf s.cfg = true := (operandsOk_eq_wf s.cfg s.elIn i).symm.trans hops
  exact ⟨i, hd, hwf, List.length_pos_iff.2 (uopsOf_ne_nil s.elIn hwf), hpin, hline, nofun⟩

/-! ### A micro-operation -/

/-- What the invariant says of the latched command, which the descriptor determines. -/
theorem latched_of_inv {s : State} {i : Instr} (h : s.Inv) (hm : s.mode = .busy) (hd : decode s.cur = .ok i) :
    i.wf s.cfg = true ∧ s.ustep < (uopsOf s.cfg s.elIn i).length ∧
      (commandOf s.cfg s.elIn i).pinOk s = true ∧ (commandOf s.cfg s.elIn i).lineOk s = true ∧
      ∀ l, i = .enl l → s.ustep = 1 → s.tReg = regAtIndex s.isen (l.toNat / 32) := by
  obtain ⟨i', hd', hlatch⟩ := h.latch hm
  cases hd.symm.trans hd'
  exact hlatch

/-- What an access leaves alone, of the fields the invariant speaks of. -/
theorem perform_frame {act : Action} {s t : State} (h : perform act s = .next t) :
    t.settle = s.settle ∧ t.lp = s.lp ∧ t.lt = s.lt ∧ t.ls = s.ls ∧ t.shapeOk = s.shapeOk := by
  obtain ⟨-, rfl⟩ | ⟨a, r, -, -, rfl⟩ | ⟨a, v, r, -, -, rfl⟩ := perform_cases h
  · simp
  · simp [State.shapeOk]
  · simp [State.shapeOk]

theorem applyAfters_settle_le {s : State} {as : List After} (h : s.settle ≤ s.cfg.settle) :
    (applyAfters s as).settle ≤ s.cfg.settle := by
  induction as generalizing s with
  | nil => exact h
  | cons a as ih =>
    have ha : (applyAfter s a).settle ≤ s.cfg.settle := by cases a <;> simp [applyAfter, h]
    simpa using ih (s := applyAfter s a) (by simpa using ha)

/-- A mark of lines up to `hi` sets no flag above `hi`. -/
theorem getLsbD_lineSpan_of_lt {lo hi l : Nat} (h : hi < l) (hhi : hi < 1024) : (lineSpan lo hi).getLsbD l = false := by
  by_cases hl : l < 1024
  · rw [getLsbD_lineSpan lo hi l hhi hl]
    simp [h]
  · exact BitVec.getLsbD_of_ge _ _ (by omega)

theorem applyAfter_flagsInRange {s : State} {a : After} (h : s.flagsInRange) (hn : s.cfg.nline ≤ 1024)
    (ha : ∀ m, lastMarked a = some m → m < s.cfg.nline) : (applyAfter s a).flagsInRange := by
  intro l hl
  rw [applyAfter_cfg] at hl
  have hspan : ∀ lo hi, lastMarked a = some hi → (lineSpan lo hi).getLsbD l = false := fun lo hi hm =>
    getLsbD_lineSpan_of_lt ((ha hi hm).trans_le hl) ((ha hi hm).trans_le hn)
  obtain ⟨hlp, hlt, hls⟩ := h l hl
  cases a with
  | markLp lo hi => exact ⟨by simp [applyAfter, hlp, hspan lo hi rfl], hlt, hls⟩
  | markLt lo hi => exact ⟨hlp, by simp [applyAfter, hlt, hspan lo hi rfl], hls⟩
  | markLs lo hi => exact ⟨hlp, hlt, by simp [applyAfter, hls, hspan lo hi rfl]⟩
  | _ => exact ⟨hlp, hlt, hls⟩

theorem applyAfters_flagsInRange {s : State} {as : List After} (h : s.flagsInRange) (hn : s.cfg.nline ≤ 1024)
    (has : ∀ a ∈ as, ∀ m, lastMarked a = some m → m < s.cfg.nline) : (applyAfters s as).flagsInRange := by
  induction as generalizing s with
  | nil => exact h
  | cons a as ih =>
    obtain ⟨ha, has⟩ := List.forall_mem_cons.1 has
    exact ih (applyAfter_flagsInRange h hn ha) (by simpa using hn) (by simpa using has)

/-- A write of a well-formed command is to a register it touches. -/
theorem touches_of_write {c : Config} {el : BitVec 2} {i : Instr} {u : Uop} {a : Nat} {v : WriteValue} {r : Reg}
    (hc : c.wf = true) (hi : i.wf c = true) (hu : u ∈ uopsOf c el i) (ha : u.action = .write a v)
    (hr : regAt c a = some r) : touches i r := by
  obtain ⟨r', hr', ht⟩ := access_ok hc el hi hu (a := a) (by rw [ha]; rfl)
  cases hr.symm.trans hr'
  exact ht

/-! ### ENL, the one command that writes enable bits -/

theorem eq_enl_of_touches_isen {i : Instr} {n : Nat} (h : touches i (.isen n)) :
    ∃ l, i = .enl l ∧ n = l.toNat / 32 := by
  cases i with
  | enl l => exact ⟨l, rfl, by simpa [touches] using h⟩
  | _ => simp [touches] at h

/-- The write of `ENL` is its second micro-operation and ORs the line's bit into `T`. -/
theorem enl_write_eq {c : Config} {el : BitVec 2} {l : BitVec 10} {k : Nat} {u : Uop} {a : Nat} {v : WriteValue}
    (hu : (uopsOf c el (.enl l))[k]? = some u) (ha : u.action = .write a v) :
    k = 1 ∧ v = .modify 0 (lineBit l.toNat) := by
  match k with
  | 0 => cases hu; cases ha
  | 1 => cases hu; cases ha; exact ⟨rfl, rfl⟩
  | k + 2 => cases hu

/-- The first micro-operation of `ENL` loads the line's enable register into `T`. -/
theorem enl_reads_isen {s t : State} {l : BitVec 10} {u : Uop} (hc : s.cfg.wf = true) (hl : l.toNat < s.cfg.nline)
    (hu : (uopsOf s.cfg s.elIn (.enl l))[0]? = some u) (hp : perform u.action s = .next t) :
    t.tReg = regAtIndex t.isen (l.toNat / 32) := by
  obtain ⟨-, h32, -⟩ := wf_parts hc
  cases hu
  obtain ⟨r, hr, rfl⟩ := memRead_eq_next.1 hp
  cases hr.symm.trans (regAt_isen hc (by omega))
  rfl

/-- ORing in the bit of line `m` enables no line but `m`. -/
theorem getLsbD_set_lineBit {isen : List Word} {m l : Nat}
    (h : (regAtIndex (isen.set (m / 32) (regAtIndex isen (m / 32) ||| lineBit m)) (l / 32)).getLsbD (l % 32) = true) :
    (regAtIndex isen (l / 32)).getLsbD (l % 32) = true ∨ l = m := by
  by_cases hdiv : l / 32 = m / 32
  · by_cases hlen : m / 32 < isen.length
    · have hbit := getLsbD_pinBit (m % 32) (l % 32) (by omega)
      rw [hdiv, regAtIndex_set_self _ _ _ hlen, BitVec.getLsbD_or, lineBit, ← pinBit, hbit, Bool.or_eq_true,
        decide_eq_true_eq] at h
      rw [hdiv]
      exact h.imp_right fun hmod => by omega
    · rw [List.set_eq_of_length_le (by omega)] at h
      exact .inl h
  · rw [regAtIndex_set_ne _ _ _ _ hdiv] at h
    exact .inl h

/-- After the access of a micro-operation every enabled line is ready still: the only line an access enables is the
one `ENL` was checked for at acceptance (R168). -/
theorem enabledLinesReady_perform {s t : State} {i : Instr} {u : Uop} (h : s.Inv) (hm : s.mode = .busy)
    (hd : decode s.cur = .ok i) (hu : (uopsOf s.cfg s.elIn i)[s.ustep]? = some u)
    (hp : perform u.action s = .next t) : t.enabledLinesReady := by
  obtain ⟨hwf, -, -, hline, henl⟩ := latched_of_inv h hm hd
  have hg := grows_perform hp
  intro l hl hen
  rw [hg.cfg] at hl
  apply hg.lineReady
  obtain ⟨-, rfl⟩ | ⟨a, r, -, -, rfl⟩ | ⟨a, v, r, ha, hr, rfl⟩ := perform_cases hp
  · exact h.ready l hl hen
  · exact h.ready l hl hen
  · have htouch := touches_of_write h.cfgOk hwf (List.mem_of_getElem? hu) ha hr
    cases r with
    | isen n =>
      obtain ⟨m, rfl, rfl⟩ := eq_enl_of_touches_isen htouch
      obtain ⟨hstep, rfl⟩ := enl_write_eq hu ha
      have hen' : (regAtIndex (s.isen.set (m.toNat / 32) (regAtIndex s.isen (m.toNat / 32) |||
          lineBit m.toNat)) (l / 32)).getLsbD (l % 32) = true := by
        simpa [lineEnabled, regWrite, henl m rfl hstep, ← BitVec.or_assoc] using hen
      obtain hold | rfl := getLsbD_set_lineBit hen'
      · exact h.ready l hl hold
      · exact hline
    | _ => exact h.ready l hl hen

/-! ### A sequencer turn -/

/-- The latched command, not yet complete, stands at its next micro-operation, its preconditions still met; past its
first one, `ENL` holds in `T` what it read. -/
theorem latchOk_uopStep {s t : State} {u : Uop} {last : Bool} (h : s.Inv) (hm : s.mode = .busy)
    (hn : nextUop s = some (u, last)) (ht : uopStep last u s = .next t) (hbusy : t.mode = .busy) : t.latchOk := by
  obtain ⟨i, hd, hu, hlast⟩ := nextUop_eq_some hn
  obtain ⟨hwf, hlt, hpin, hline, -⟩ := latched_of_inv h hm hd
  have hg := grows_uopStep ht
  obtain ⟨hcur, hstep, hcfg, hel, hmode⟩ := uopStep_cur ht
  refine ⟨i, hcur ▸ hd, hcfg ▸ hwf, ?_, ?_, ?_, ?_⟩
  · have hne : ¬ s.ustep + 1 = (uopsOf s.cfg s.elIn i).length := by
      intro hend
      simp [hmode, hlast, hend] at hbusy
    rw [hstep, hcfg, hel]
    omega
  · rw [hcfg, hel]
    exact hg.pinOk hpin
  · rw [hcfg, hel]
    exact hg.lineOk hline
  · rintro l rfl hone
    obtain ⟨s1, hp, -, rfl⟩ := uopStep_eq_next.1 ht
    rw [show s.ustep = 0 by omega] at hu
    simpa using enl_reads_isen h.cfgOk (of_decide_eq_true hwf) hu hp

theorem inv_uopStep {s t : State} {u : Uop} {last : Bool} (h : s.Inv) (hm : s.mode = .busy)
    (hn : nextUop s = some (u, last)) (ht : uopStep last u s = .next t) : t.Inv := by
  have hlatch := latchOk_uopStep h hm hn ht
  obtain ⟨i, hd, hu, -⟩ := nextUop_eq_some hn
  obtain ⟨hwf, -⟩ := latched_of_inv h hm hd
  obtain ⟨s1, hp, -, rfl⟩ := uopStep_eq_next.1 ht
  obtain ⟨hsettle, hlp, hlt, hls, hshape⟩ := perform_frame hp
  have hcfg := (grows_perform hp).cfg
  have hready := enabledLinesReady_perform h hm hd hu hp
  have hflags : s1.flagsInRange := by simpa only [State.flagsInRange, hlp, hlt, hls, hcfg] using h.flags
  refine inv_commit s ⟨?_, ?_, ?_, ?_, hlatch, fun l hl hen => ?_⟩
  · simpa [hcfg] using h.cfgOk
  · rw [← h.shape, ← hshape]
    apply shapeOk_congr <;> simp
  · simpa [hcfg] using applyAfters_settle_le (as := u.after) (s := s1) (by rw [hsettle, hcfg]; exact h.settleLe)
  · refine applyAfters_flagsInRange hflags (by rw [hcfg]; exact nline_le_of_wf h.cfgOk) fun a ha m hm => ?_
    rw [hcfg]
    exact marks_in_range s.elIn hwf (List.mem_of_getElem? hu) ha hm
  · exact (grows_applyAfters s1 u.after).lineReady
      (hready l (by simpa using hl) (by simpa [lineEnabled] using hen))

theorem inv_seqStep {s t : State} (h : s.Inv) (ht : seqStep s = .next t) : t.Inv := by
  obtain rfl | ⟨-, -, rfl⟩ | ⟨hm, u, last, hn, -, hu⟩ := seqStep_eq_next ht
  · exact h
  · exact ⟨h.cfgOk, h.shape, h.settleLe, h.flags, nofun, h.ready⟩
  · exact inv_uopStep h hm hn hu

/-! ### The obligations -/

/-- Settles O51: nothing is enabled, latched or timed at reset, and `CFG0` is legal. -/
theorem resetMeetsTheInvariant : Obligations.ResetMeetsTheInvariant := by
  unfold Obligations.ResetMeetsTheInvariant
  exact ⟨fun c u hc => resetWith_inv u hc, resetWith_inv _ cfg0_wf⟩

/-- Settles O52, one agent after the other: acceptance sets the latch up, a micro-operation moves it on, and the other
agents change nothing the invariant depends on. -/
theorem everyStepKeepsTheInvariant : Obligations.EveryStepKeepsTheInvariant := by
  unfold Obligations.EveryStepKeepsTheInvariant
  intro s t hs h
  exact step_keeps (P := State.Inv) decode_encode
    (hmoves := fun _ _ hv => inv_of_unobserved hv _ _ _ _ _ _ _ _)
    (hcmds := fun _ _ hv => inv_of_unobserved hv _ _ _ _ _ _ _ _)
    (htick := fun _ hv => inv_tick hv)
    (hpad := fun v _ hv => inv_commit v (inv_of_unobserved hv _ _ _ _ _ _ _ _))
    (hel := fun v el hv => inv_commit v (inv_elIn hv el))
    (hlines := fun v _ hv => inv_commit v (inv_of_unobserved hv _ _ _ _ _ _ _ _))
    (hpresent := fun _ _ _ hv hp => inv_presentStep hv hp)
    (hseq := fun _ _ hv hq => inv_seqStep hv hq)
    (hread := fun _ _ _ hv => inv_of_unobserved hv _ _ _ _ _ _ _ _)
    (hrst := fun u _ _ => inv_resetStep u hs.cfgOk) hs h

end Sys2Proof.Proofs
end

section
/-! PROOFS. Which registers a step can change: only those the command at work touches (spec/10_state.md R30, R31, R34),
and of these `CTRL` never to 0 (R39, R41; spec/70_reset_and_hazards.md R172). -/

namespace Sys2Proof.Proofs

open Sys2Proof Sys2Proof.Machine Sys2Proof.Laws

/-! ### Registers a command does not touch -/

/-- No register changes that `i` does not touch, and `OUT` only if `i` touches `GPSET` or `GPCLR`. -/
def LeavesUntouched (i : Instr) (s t : State) : Prop :=
  (∀ r, ¬ touches i r → stored t r = stored s r) ∧ (¬ touches i .gpset → ¬ touches i .gpclr → t.out = s.out)

/-- No register changes, and `OUT` does not. -/
def SameRegs (s t : State) : Prop := (∀ r, stored t r = stored s r) ∧ t.out = s.out

theorem SameRegs.leavesUntouched {s t : State} (h : SameRegs s t) (i : Instr) : LeavesUntouched i s t :=
  ⟨fun r _ => h.1 r, fun _ _ => h.2⟩

theorem LeavesUntouched.trans {i : Instr} {s t v : State} (hst : LeavesUntouched i s t)
    (htv : LeavesUntouched i t v) : LeavesUntouched i s v :=
  ⟨fun r hr => (htv.1 r hr).trans (hst.1 r hr), fun h1 h2 => (htv.2 h1 h2).trans (hst.2 h1 h2)⟩

theorem sameRegs_tick (s : State) : SameRegs s (tick s) := ⟨fun r => stored_ticks 1 s r, rfl⟩

theorem sameRegs_presentStep {C : Descriptor} {s t : State} (h : presentStep C s = .next t) : SameRegs s t := by
  obtain ⟨i, -, ha⟩ := presentStep_eq_next.1 h
  obtain ⟨-, -, -, -, rfl⟩ := accept_eq_next.1 ha
  exact ⟨fun r => by cases r <;> rfl, rfl⟩

theorem regWrite_out_of_ne {s : State} {v : Word} {r : Reg} (hset : r ≠ .gpset) (hclr : r ≠ .gpclr) :
    (regWrite s v r).out = s.out := by
  cases r with
  | gpset => exact absurd rfl hset
  | gpclr => exact absurd rfl hclr
  | _ => rfl

theorem uopStep_leavesUntouched {el : BitVec 2} {i : Instr} {u : Uop} {last : Bool} {s t : State}
    (hc : s.cfg.wf = true) (hi : i.wf s.cfg = true) (hu : u ∈ uopsOf s.cfg el i)
    (h : uopStep last u s = .next t) : LeavesUntouched i s t := by
  obtain ⟨s1, hp, -, rfl⟩ := uopStep_eq_next.1 h
  suffices LeavesUntouched i s s1 by simpa [LeavesUntouched] using this
  obtain ⟨-, rfl⟩ | ⟨a, r, -, -, rfl⟩ | ⟨a, v, r, ha, hr, rfl⟩ := perform_cases hp
  · exact ⟨fun _ _ => rfl, fun _ _ => rfl⟩
  · exact ⟨fun r _ => by cases r <;> rfl, fun _ _ => rfl⟩
  · have htouch := touches_of_write hc hi hu ha hr
    refine ⟨fun r' hr' => ?_, fun hset hclr => ?_⟩
    · rw [stored_hist (regWrite s (v.eval s.tReg) r)]
      exact stored_regWrite_ne (by rintro rfl; exact hr' htouch)
    · exact regWrite_out_of_ne (by rintro rfl; exact hset htouch) (by rintro rfl; exact hclr htouch)

/-- A whole command leaves alone what it does not touch. -/
theorem exec_leavesUntouched {i : Instr} {s t : State} (hc : s.cfg.wf = true) (h : exec i s = .next t) :
    LeavesUntouched i s t := by
  rw [exec_eq_runCommand] at h
  obtain ⟨s1, ha, hrun⟩ := runCommand_eq_next.1 h
  obtain ⟨-, hops, -⟩ := accept_eq_next.1 ha
  have hi : i.wf s.cfg = true := (operandsOk_eq_wf s.cfg s.elIn i).symm.trans hops
  have hp : presentStep (encode i) s = .next s1 := presentStep_eq_next.2 ⟨i, decode_encode i, ha⟩
  have hs1 : s1.cfg = s.cfg ∧ LeavesUntouched i s s1 :=
    ⟨(grows_presentStep hp).cfg, (sameRegs_presentStep hp).leavesUntouched i⟩
  refine (runUops_keeps (P := fun v => v.cfg = s.cfg ∧ LeavesUntouched i s v) ?_ ?_ hs1 hrun).2
  · exact fun v ⟨hcfg, hv⟩ => ⟨hcfg, hv.trans ((sameRegs_tick v).leavesUntouched i)⟩
  · rintro u hu last v w ⟨hcfg, hv⟩ hw
    rw [← hcfg] at hc hi
    have hstep := uopStep_leavesUntouched (el := s.elIn) hc hi (by rw [hcfg]; exact hu) hw
    exact ⟨(grows_uopStep hw).cfg.trans hcfg, hv.trans hstep⟩

/-! ### A step of the machine -/

/-- The micro-operation that a machine of the invariant performs next is one of a well-formed command. -/
theorem nextUop_of_inv {s : State} {u : Uop} {last : Bool} (h : s.Inv) (hm : s.mode = .busy)
    (hn : nextUop s = some (u, last)) :
    ∃ i, decode s.cur = .ok i ∧ i.wf s.cfg = true ∧ u ∈ uopsOf s.cfg s.elIn i := by
  obtain ⟨i, hd, hu, -⟩ := nextUop_eq_some hn
  obtain ⟨hwf, -⟩ := latched_of_inv h hm hd
  exact ⟨i, hd, hwf, List.mem_of_getElem? hu⟩

theorem seqStep_leavesUntouched {s t : State} (h : s.Inv) (ht : seqStep s = .next t) :
    SameRegs s t ∨ ∃ i, commandAtWork s i ∧ LeavesUntouched i s t := by
  obtain rfl | ⟨-, -, rfl⟩ | ⟨hm, u, last, hn, -, hu⟩ := seqStep_eq_next ht
  · exact .inl ⟨fun _ => rfl, rfl⟩
  · exact .inl ⟨fun r => by cases r <;> rfl, rfl⟩
  · obtain ⟨i, hd, hwf, hmem⟩ := nextUop_of_inv h hm hn
    exact .inr ⟨i, .inl ⟨hm, hd⟩, uopStep_leavesUntouched h.cfgOk hwf hmem hu⟩

/-- A scheduled step but reset changes no register unless it is a turn of the sequencer. -/
theorem agentStep_leavesUntouched {m : Move} {s t : State} (h : s.Inv) (hm : ∀ u, m ≠ .rst u)
    (ht : agentStep m s = .next t) : SameRegs s t ∨ ∃ i, commandAtWork s i ∧ LeavesUntouched i s t := by
  cases m with
  | clock => cases ht; exact .inl (sameRegs_tick s)
  | pad v => cases ht; exact .inl ⟨fun r => by cases r <;> rfl, rfl⟩
  | elIn v => cases ht; exact .inl ⟨fun r => by cases r <;> rfl, rfl⟩
  | lines v => cases ht; exact .inl ⟨fun r => by cases r <;> rfl, rfl⟩
  | present C => exact .inl (sameRegs_presentStep ht)
  | seq => exact seqStep_leavesUntouched h ht
  | hostRead a =>
    simp only [agentStep, hostReadStep] at ht
    split at ht
    · cases ht; exact .inl ⟨fun r => by cases r <;> rfl, rfl⟩
    · cases ht
  | rst u => exact absurd rfl (hm u)

theorem step_leavesUntouched {s t : State} (h : s.Inv) (hn : s.noReset) (ht : step s = .next t) :
    SameRegs s t ∨ ∃ i, commandAtWork s i ∧ LeavesUntouched i s t := by
  cases hmoves : s.moves with
  | cons m rest =>
    rw [step_of_move hmoves] at ht
    have hs : State.Inv { s with moves := rest } := inv_of_unobserved h _ _ _ _ _ _ _ _
    exact agentStep_leavesUntouched (s := { s with moves := rest }) hs (fun u hu => hn u rest (hu ▸ hmoves)) ht
  | nil =>
    cases hmode : s.mode with
    | busy =>
      rw [step_of_busy hmoves hmode] at ht
      split at ht
      · exact seqStep_leavesUntouched h ht
      · cases ht; exact .inl (sameRegs_tick s)
    | idle =>
      cases hcmds : s.cmds with
      | nil => rw [step_of_idle hmoves hmode hcmds] at ht; cases ht; exact .inl (sameRegs_tick s)
      | cons C rest =>
        rw [step_of_command hmoves hmode hcmds] at ht
        unfold commandStep at ht
        split at ht
        · simp [raiseUndefined] at ht
        · rename_i i hd
          exact .inr ⟨i, .inr ⟨hmode, C, rest, hcmds, hd⟩,
            exec_leavesUntouched (s := { s with cmds := rest }) h.cfgOk ht⟩

/-- A register that a step changes is one the command at work touches. -/
theorem touches_of_stored_ne {s t : State} {r : Reg} (h : s.Inv) (hn : s.noReset) (ht : step s = .next t)
    (hne : stored t r ≠ stored s r) : ∃ i, commandAtWork s i ∧ touches i r := by
  obtain hsame | ⟨i, hwork, hleft⟩ := step_leavesUntouched h hn ht
  · exact absurd (hsame.1 r) hne
  · exact ⟨i, hwork, by_contra fun hr => hne (hleft.1 r hr)⟩

theorem touches_of_out_ne {s t : State} (h : s.Inv) (hn : s.noReset) (ht : step s = .next t) (hne : t.out ≠ s.out) :
    ∃ i, commandAtWork s i ∧ (touches i .gpset ∨ touches i .gpclr) := by
  obtain hsame | ⟨i, hwork, hleft⟩ := step_leavesUntouched h hn ht
  · exact absurd hsame.2 hne
  · refine ⟨i, hwork, by_contra fun hr => ?_⟩
    rw [not_or] at hr
    exact hne (hleft.2 hr.1 hr.2)

/-! ### Which commands touch `REN`, `FEN`, `GPSET`, `GPCLR`, `CTRL` -/

theorem of_touches_ren {i : Instr} (h : touches i .ren) : ∃ p, i = .enr p ∨ i = .setg p := by
  cases i with
  | enr p => exact ⟨p, .inl rfl⟩
  | setg p => exact ⟨p, .inr rfl⟩
  | _ => simp [touches] at h

theorem of_touches_fen {i : Instr} (h : touches i .fen) : ∃ p, i = .enf p := by
  cases i with
  | enf p => exact ⟨p, rfl⟩
  | _ => simp [touches] at h

theorem of_touches_gpset_or_gpclr {i : Instr} (h : touches i .gpset ∨ touches i .gpclr) :
    ∃ p, i = .set p ∨ i = .clr p ∨ i = .setg p := by
  cases i with
  | set p => exact ⟨p, .inl rfl⟩
  | clr p => exact ⟨p, .inr (.inl rfl)⟩
  | setg p => exact ⟨p, .inr (.inr rfl)⟩
  | _ => simp [touches] at h

theorem of_touches_ctrl {i : Instr} (h : touches i .ctrl) : i = .fwd := by
  cases i with
  | fwd => rfl
  | _ => simp [touches] at h

/-! ### `CTRL` is not written to 0 -/

/-- The one command that writes `CTRL` is `FWD`, and its word is not 0 (41_gic_distributor.md R170). -/
theorem uopStep_ctrl_ne_zero {s t : State} {u : Uop} {last : Bool} (h : s.Inv) (hm : s.mode = .busy)
    (hn : nextUop s = some (u, last)) (ht : uopStep last u s = .next t) (h0 : s.ctrl ≠ 0) : t.ctrl ≠ 0 := by
  obtain ⟨i, -, hwf, hmem⟩ := nextUop_of_inv h hm hn
  obtain ⟨s1, hp, -, rfl⟩ := uopStep_eq_next.1 ht
  suffices s1.ctrl ≠ 0 by simpa using this
  obtain ⟨-, rfl⟩ | ⟨a, r, -, -, rfl⟩ | ⟨a, v, r, ha, hr, rfl⟩ := perform_cases hp
  · exact h0
  · exact h0
  · have htouch := touches_of_write h.cfgOk hwf hmem ha hr
    cases r with
    | ctrl =>
      cases of_touches_ctrl htouch
      cases List.mem_singleton.1 hmem
      cases ha
      exact forwardValue_ne_zero h.cfgOk s.elIn
    | _ => exact h0

theorem seqStep_ctrl_ne_zero {s t : State} (h : s.Inv) (ht : seqStep s = .next t) (h0 : s.ctrl ≠ 0) :
    t.ctrl ≠ 0 := by
  obtain rfl | ⟨-, -, rfl⟩ | ⟨hm, u, last, hn, -, hu⟩ := seqStep_eq_next ht
  · exact h0
  · exact h0
  · exact uopStep_ctrl_ne_zero h hm hn hu h0

theorem presentStep_ctrl {C : Descriptor} {s t : State} (h : presentStep C s = .next t) : t.ctrl = s.ctrl :=
  Option.some.inj ((sameRegs_presentStep h).1 .ctrl)

/-- No step but reset makes `CTRL` 0 again; the invariant says which command a micro-operation belongs to. -/
theorem step_ctrl_ne_zero {s t : State} (h : s.Inv) (hn : s.noReset) (ht : step s = .next t) (h0 : s.ctrl ≠ 0) :
    t.ctrl ≠ 0 :=
  (step_keeps (P := fun v => v.Inv ∧ v.ctrl ≠ 0) decode_encode
    (hmoves := fun _ _ hv => ⟨inv_of_unobserved hv.1 _ _ _ _ _ _ _ _, hv.2⟩)
    (hcmds := fun _ _ hv => ⟨inv_of_unobserved hv.1 _ _ _ _ _ _ _ _, hv.2⟩)
    (htick := fun _ hv => ⟨inv_tick hv.1, hv.2⟩)
    (hpad := fun v _ hv => ⟨inv_commit v (inv_of_unobserved hv.1 _ _ _ _ _ _ _ _), hv.2⟩)
    (hel := fun v el hv => ⟨inv_commit v (inv_elIn hv.1 el), hv.2⟩)
    (hlines := fun v _ hv => ⟨inv_commit v (inv_of_unobserved hv.1 _ _ _ _ _ _ _ _), hv.2⟩)
    (hpresent := fun _ _ _ hv hp => ⟨inv_presentStep hv.1 hp, presentStep_ctrl hp ▸ hv.2⟩)
    (hseq := fun _ _ hv hq => ⟨inv_seqStep hv.1 hq, seqStep_ctrl_ne_zero hv.1 hq hv.2⟩)
    (hread := fun _ _ _ hv => ⟨inv_of_unobserved hv.1 _ _ _ _ _ _ _ _, hv.2⟩)
    (hrst := fun u rest hm => absurd hm (hn u rest)) ⟨h, h0⟩ ht).2

/-! ### The obligations -/

/-- Settles O35: a register that changed is one the command at work touches, and few commands touch these. -/
theorem onlyTheNamedCommandsWriteRenFenOut : Obligations.OnlyTheNamedCommandsWriteRenFenOut := by
  unfold Obligations.OnlyTheNamedCommandsWriteRenFenOut
  intro s t h hn ht
  refine ⟨fun hne => ?_, fun hne => ?_, fun hne => ?_⟩
  · obtain ⟨i, hwork, htouch⟩ := touches_of_stored_ne (r := .ren) h hn ht (by simpa [stored] using hne)
    obtain ⟨p, hp⟩ := of_touches_ren htouch
    exact ⟨i, p, hwork, hp⟩
  · obtain ⟨i, hwork, htouch⟩ := touches_of_stored_ne (r := .fen) h hn ht (by simpa [stored] using hne)
    obtain ⟨p, hp⟩ := of_touches_fen htouch
    exact ⟨i, p, hwork, hp⟩
  · obtain ⟨i, hwork, htouch⟩ := touches_of_out_ne h hn ht hne
    obtain ⟨p, hp⟩ := of_touches_gpset_or_gpclr htouch
    exact ⟨i, p, hwork, hp⟩

/-- Settles O38: enable bits are a component of `Grows`, and `FWD` writes `CTRL` a word that is not 0. -/
theorem enableBitsAndForwardingAreOneWay : Obligations.EnableBitsAndForwardingAreOneWay := by
  unfold Obligations.EnableBitsAndForwardingAreOneWay
  intro s t hn ht
  exact ⟨(step_grows hn ht).enabled, fun h h0 => step_ctrl_ne_zero h hn ht h0⟩

theorem configured_iff {s : State} : configured s = true ↔ s.ctrl ≠ 0 ∧
    (∃ l < s.cfg.nline, lineEnabled s l = true) ∧
      ∀ l < s.cfg.nline, lineEnabled s l = true → lineReady s l = true := by
  simp [configured, and_assoc, or_iff_not_imp_left]

/-- Settles O39: `CTRL` stays not 0, an enabled line stays enabled, and the invariant has every enabled line ready. -/
theorem configuredStaysConfiguredUntilReset : Obligations.ConfiguredStaysConfiguredUntilReset := by
  unfold Obligations.ConfiguredStaysConfiguredUntilReset
  intro s t h hn hconf ht
  have hg := step_grows hn ht
  obtain ⟨h0, ⟨l, hl, hen⟩, -⟩ := configured_iff.1 hconf
  exact configured_iff.2 ⟨step_ctrl_ne_zero h hn ht h0, ⟨l, hg.cfg ▸ hl, hg.enabled l hen⟩,
    (everyStepKeepsTheInvariant s t h ht).ready⟩

end Sys2Proof.Proofs
end

section
/-! PROOFS. The steps of the sequencer: what one micro-operation does, how a wait holds it, and that a held access
finds the timer at 0 (spec/10_state.md R21, R44, R46; spec/30_encoding.md R112, R113; spec/70_reset_and_hazards.md
R226). -/

namespace Sys2Proof.Proofs

open Sys2Proof Sys2Proof.Machine Sys2Proof.Laws

/-! ### One enabled micro-operation -/

/-- An access leaves the sequencer where it is, and latches no edge itself. -/
theorem perform_sequencer {act : Action} {s t : State} (h : perform act s = .next t) :
    t.mode = s.mode ∧ t.ustep = s.ustep ∧ t.eds = s.eds := by
  obtain ⟨-, rfl⟩ | ⟨a, r, -, -, rfl⟩ | ⟨a, v, r, -, -, rfl⟩ := perform_cases h <;> simp

/-- After the access of a micro-operation has reached `x`: its effects, the count, completion, and the edge latch bit
for bit. -/
theorem uopStep_reaches {u : Uop} {s x : State} (last : Bool) (hm : s.mode = .busy)
    (hp : perform u.action s = .next x) (hn : needOk u.needBit x = true) : ∃ e d,
    let t := { applyAfters x u.after with
      ustep := s.ustep + 1, mode := if last then .idle else .busy, done := last, eds := e, levelDraws := d }
    uopStep last u s = .next t ∧ ∀ q < 32, e.getLsbD q = (s.eds.getLsbD q || latchesEdge s t q) := by
  obtain ⟨hmode, hustep, heds⟩ := perform_sequencer hp
  refine ⟨(commit s (advance last (applyAfters x u.after))).eds, s.levelDraws + 1, ?_, fun q hq => ?_⟩
  · rw [uopStep_of_perform hp hn]
    simp [commit, advance, hmode, hustep, hm]
  · rw [commit_eds_bit _ _ hq, advance_eds, applyAfters_eds, heds]
    rfl

/-- A scheduled turn, and the step with nothing scheduled, perform an enabled micro-operation. -/
theorem step_of_enabled {s : State} {u : Uop} {last : Bool} {rest : List Move} (hm : s.mode = .busy)
    (hmoves : s.moves = .seq :: rest ∨ (s.moves = [] ∧ rest = [])) (hn : nextUop s = some (u, last))
    (he : uopEnabled u s = true) : step s = uopStep last u { s with moves := rest } := by
  obtain hseq | ⟨hnil, rfl⟩ := hmoves
  · exact step_of_seq hseq hm hn he
  · have hs : { s with moves := [] } = s := by rw [← hnil]
    have hen : seqEnabled s = true := by simp [seqEnabled, hm, hn, he]
    rw [hs, step_of_busy hnil hm, if_pos hen, seqStep_of_enabled hm hn he]

/-- Settles O41: the step is the micro-operation, its access is one of the three of R13, and `uopStep_reaches` says
where it gets from there. -/
theorem sequencerStepAdvancesAndCompletes : Obligations.SequencerStepAdvancesAndCompletes := by
  unfold Obligations.SequencerStepAdvancesAndCompletes
  intro s i u rest hm hmoves hd hu he last stepsTo
  have hstep := step_of_enabled hm hmoves (nextUop_of_decode hd hu) he
  have hreach : ∀ x, perform u.action { s with moves := rest } = .next x → needOk u.needBit x = true →
      stepsTo x := by
    intro x hp hn
    obtain ⟨e, d, hnext, hbits⟩ := uopStep_reaches (s := { s with moves := rest }) last hm hp hn
    exact ⟨e, d, hstep.trans hnext, hbits⟩
  have hnone : ∀ x, (∀ a, u.action ≠ .read a) → needOk u.needBit x = true := fun x hread => by
    rw [needBit_of_not_read (List.mem_of_getElem? hu) hread, needOk]
  refine ⟨fun hact => ?_, fun a r hact hr => ?_, fun a v r hact hr => ?_⟩
  · exact hreach _ (by rw [hact]; rfl) (hnone _ (by simp [hact]))
  · have hp : perform u.action { s with moves := rest } = .next { s with
        moves := rest
        tReg := regRead s r
        hist := s.hist ++ [.rd a (regRead s r)]
        readDraws := s.readDraws + drawsOf s r } := by
      rw [hact]
      exact memRead_eq_next.2 ⟨r, hr, by cases r <;> rfl⟩
    refine ⟨hreach _ hp, fun hn => ?_⟩
    rw [hstep]
    exact uopStep_eq_fault.2 (.inr ⟨_, hp, hn, rfl⟩)
  · refine hreach _ ?_ (hnone _ (by simp [hact]))
    rw [hact]
    exact memWrite_eq_next.2 ⟨r, hr, by cases r <;> rfl⟩

/-! ### A wait -/

/-- Settles O42: the next micro-operation is not enabled, so a turn changes nothing and the default step is the
clock's. -/
theorem waitSettleHoldsTheSequencer : Obligations.WaitSettleHoldsTheSequencer := by
  unfold Obligations.WaitSettleHoldsTheSequencer
  intro s i u hm hd hu hact hsettle
  have hn := nextUop_of_decode hd hu
  have hheld : uopEnabled u s = false := by simp [uopEnabled, hact, hsettle]
  refine ⟨fun rest hmoves => ?_, fun hnil => ?_⟩
  · rw [step_of_move hmoves]
    exact seqStep_of_held (s := { s with moves := rest }) hm hn hheld
  · have hen : seqEnabled s = false := by simp [seqEnabled, hm, hn, hheld]
    rw [step_of_busy hnil hm, hen]
    rfl

/-! ### The timer at a held access -/

/-- A micro-operation without effects leaves the timer as it is. -/
theorem uopStep_settle {u : Uop} {last : Bool} {s t : State} (ha : u.after = []) (h : uopStep last u s = .next t) :
    t.settle = s.settle := by
  obtain ⟨s1, hp, -, rfl⟩ := uopStep_eq_next.1 h
  simpa [ha] using (perform_frame hp).1

/-- `CFGP` waits first and then reads, without a timer load. -/
theorem cfgp_first_two {c : Config} {el : BitVec 2} {p : Pin} {code : BitVec 2} {k : Nat} {u : Uop}
    (hu : (uopsOf c el (.cfgp p code))[k]? = some u) (hk : k = 0 ∨ k = 1) :
    u.after = [] ∧ (k = 0 → u.action = .waitSettle) := by
  obtain rfl | rfl := hk <;> cases hu <;> simp

/-- `ENR`, `ENF` and `SETG` wait first, and load the timer nowhere. -/
theorem guarded_uops {c : Config} {el : BitVec 2} {i : Instr} {p : Pin} {k : Nat} {u : Uop}
    (hi : i = .enr p ∨ i = .enf p ∨ i = .setg p) (hu : (uopsOf c el i)[k]? = some u) :
    u.after = [] ∧ (k = 0 → u.action = .waitSettle) := by
  have hafter : ∀ w ∈ uopsOf c el i, w.after = [] := by
    obtain rfl | rfl | rfl := hi <;> simp [uopsOf, commandOf, enrCommand, enfCommand, setgCommand]
  refine ⟨hafter u (List.mem_of_getElem? hu), ?_⟩
  rintro rfl
  obtain rfl | rfl | rfl := hi <;> cases hu <;> rfl

/-- A wait is enabled only at timer 0; where `k` micro-operations without effects follow it, the timer stays there. -/
theorem settle_after_uop {u : Uop} {last : Bool} {s t : State} (ht : uopStep last u s = .next t)
    (he : uopEnabled u s = true) (hu : u.after = [] ∧ (s.ustep = 0 → u.action = .waitSettle))
    (hs : 1 ≤ s.ustep → s.settle = 0) : t.settle = 0 := by
  rw [uopStep_settle hu.1 ht]
  by_cases h0 : s.ustep = 0
  · simpa [uopEnabled, hu.2 h0] using he
  · exact hs (by omega)

theorem heldAccessesSettled_seqStep {s t : State} (h : s.heldAccessesSettled) (ht : seqStep s = .next t) :
    t.heldAccessesSettled := by
  obtain rfl | ⟨-, -, rfl⟩ | ⟨hm, u, last, hn, he, hstep⟩ := seqStep_eq_next ht
  · exact h
  · exact nofun
  · obtain ⟨i, hd, hu, -⟩ := nextUop_eq_some hn
    obtain ⟨hcur, hustep, -⟩ := uopStep_cur hstep
    obtain ⟨hcfgp, hguarded⟩ := h hm i hd
    intro _ i' hd'
    rw [hcur] at hd'
    cases hd.symm.trans hd'
    refine ⟨fun p code hi hk => ?_, fun p hi _ => ?_⟩
    · subst hi
      refine settle_after_uop hstep he (cfgp_first_two hu (by omega)) fun h1 => ?_
      exact hcfgp p code rfl (by omega)
    · exact settle_after_uop hstep he (guarded_uops hi hu) (hguarded p hi)

theorem heldAccessesSettled_presentStep {C : Descriptor} {s t : State} (ht : presentStep C s = .next t) :
    t.heldAccessesSettled := by
  obtain ⟨i, -, ha⟩ := presentStep_eq_next.1 ht
  obtain ⟨-, -, -, -, rfl⟩ := accept_eq_next.1 ha
  exact fun _ _ _ => ⟨nofun, nofun⟩

theorem heldAccessesSettled_tick {s : State} (h : s.heldAccessesSettled) : (tick s).heldAccessesSettled := by
  intro hm i hd
  obtain ⟨hcfgp, hguarded⟩ := h hm i hd
  exact ⟨fun p code hi hk => by rw [tick_settle, hcfgp p code hi hk], fun p hi hk => by
    rw [tick_settle, hguarded p hi hk]⟩

/-- Settles O43: of the agents only the clock changes the timer outside a micro-operation, and it counts down. -/
theorem heldAccessesFindTheTimerAtZero : Obligations.HeldAccessesFindTheTimerAtZero := by
  unfold Obligations.HeldAccessesFindTheTimerAtZero
  intro s t h ht
  exact step_keeps (P := State.heldAccessesSettled) decode_encode
    (hmoves := fun _ _ hv => hv)
    (hcmds := fun _ _ hv => hv)
    (htick := fun _ hv => heldAccessesSettled_tick hv)
    (hpad := fun _ _ hv => hv)
    (hel := fun _ _ hv => hv)
    (hlines := fun _ _ hv => hv)
    (hpresent := fun _ _ _ _ hp => heldAccessesSettled_presentStep hp)
    (hseq := fun _ _ hv hq => heldAccessesSettled_seqStep hv hq)
    (hread := fun _ _ _ hv => hv)
    (hrst := fun _ _ _ => nofun) h ht

end Sys2Proof.Proofs
end

section
/-! PROOFS. The steps of the other agents: the clock, the pads, the host's inputs and reset (spec/10_state.md R22, R44,
R46, R48, R49, R53; spec/70_reset_and_hazards.md R220, R232). -/

namespace Sys2Proof.Proofs

open Sys2Proof Sys2Proof.Machine Sys2Proof.Laws

/-! ### Clock and inputs: no described level changes -/

/-- Settles O44: the cycle is a `commit` that leaves functions, output latch and pads alone. -/
theorem clockCountsTheSettleTimerDown : Obligations.ClockCountsTheSettleTimerDown := by
  unfold Obligations.ClockCountsTheSettleTimerDown
  intro s rest hmoves
  exact stepsQuietlyTo_of_commit (step_of_move hmoves) ⟨rfl, rfl⟩ rfl rfl rfl rfl rfl

/-- Settles O56: each move is a `commit` that leaves functions, output latch and pads alone. -/
theorem inputMovesChangeOnlyTheirInput : Obligations.InputMovesChangeOnlyTheirInput := by
  unfold Obligations.InputMovesChangeOnlyTheirInput
  intro s rest
  exact ⟨fun v hmoves => stepsQuietlyTo_of_commit (step_of_move hmoves) ⟨rfl, rfl⟩ rfl rfl rfl rfl rfl,
    fun v hmoves => stepsQuietlyTo_of_commit (step_of_move hmoves) ⟨rfl, rfl⟩ rfl rfl rfl rfl rfl⟩

/-! ### Pads -/

/-- The pad does not drive an output pin. -/
theorem commit_pad_eds_output {s : State} {v : Word} {q : Nat} (hq : q < 32)
    (hf : fnCode s q = s.cfg.fselCode.output) :
    (commit s { s with padIn := v }).eds.getLsbD q = s.eds.getLsbD q := by
  have hlevel : level { s with padIn := v, levelDraws := s.levelDraws + 1 } q = s.out.getLsbD q := level_output hf
  rw [commit_eds_bit s _ hq, latchesEdge_of_level_eq (hlevel.trans (level_output hf).symm), Bool.or_false]

/-- Of an input pin the armed edge of its pad is latched, whatever `SELF_EDGE` says. -/
theorem commit_pad_eds_input {s : State} {v : Word} {q : Nat} (hq : q < 32) (hc : s.cfg.wf = true)
    (hf : fnCode s q = s.cfg.fselCode.input) :
    (commit s { s with padIn := v }).eds.getLsbD q = (s.eds.getLsbD q ||
      (s.ren.getLsbD q && !s.padIn.getLsbD q && v.getLsbD q) ||
      (s.fen.getLsbD q && s.padIn.getLsbD q && !v.getLsbD q)) := by
  have hlevel : level { s with padIn := v, levelDraws := s.levelDraws + 1 } q = v.getLsbD q := level_input hc hf
  have hown : ownLatchChange s { s with padIn := v, levelDraws := s.levelDraws + 1 } q = false := by
    simp [ownLatchChange]
  rw [commit_eds_bit s _ hq, latchesEdge, hlevel, level_input hc hf, hown]
  simp [Bool.and_assoc, Bool.or_assoc]

/-- Settles O45: the latch of each pin gains what its function lets the pad do. -/
theorem padChangesLatchArmedEdgesOfInputs : Obligations.PadChangesLatchArmedEdgesOfInputs := by
  unfold Obligations.PadChangesLatchArmedEdgesOfInputs
  intro s v rest hc hmoves
  exact ⟨_, _, step_of_move hmoves, fun q hq =>
    ⟨commit_pad_eds_output (s := { s with moves := rest }) hq,
      commit_pad_eds_input (s := { s with moves := rest }) hq hc⟩⟩

/-! ### Reset -/

/-- A draw of full length is taken as it is. -/
theorem fitTo_of_length {n : Nat} {l : List Word} (h : l.length = n) : fitTo n l = l :=
  List.take_left' h

/-- Settles O1: the fields are those of `State.resetWith`, and `fitTo` keeps a draw of full length. -/
theorem resetGivesTheStatedValuesAndLeavesTheRestFree :
    Obligations.ResetGivesTheStatedValuesAndLeavesTheRestFree := by
  unfold Obligations.ResetGivesTheStatedValuesAndLeavesTheRestFree
  intro c u s
  exact ⟨rfl, rfl, rfl, rfl, rfl, rfl, rfl, rfl, rfl, List.length_replicate, regAtIndex_isen_resetWith c u,
    rfl, rfl, rfl, rfl, rfl, rfl, rfl, fitTo_of_length, fitTo_of_length, fitTo_of_length, fitTo_of_length,
    fitTo_of_length⟩

end Sys2Proof.Proofs
end

section
/-! PROOFS. The register port (spec/20_memory.md): no access of PMGC is to an address without a register (R79), a
write changes its own register only (R72, R73), a command changes only the words it writes (R82), and `SET` and `CLR`
are idempotent (R78). -/

namespace Sys2Proof.Proofs

open Sys2Proof Sys2Proof.Machine Sys2Proof.Laws

/-! ### No access is to an address without a register (R79) -/

/-- An access of a well-formed command is to a register of the map. -/
theorem perform_ne_fault {el : BitVec 2} {i : Instr} {u : Uop} {s : State} {f : Fault} (hc : s.cfg.wf = true)
    (hi : i.wf s.cfg = true) (hu : u ∈ uopsOf s.cfg el i) : perform u.action s ≠ .fault f := by
  have hreg : ∀ b, addressOf u.action = some b → regAt s.cfg b ≠ none := fun b hb hnone => by
    obtain ⟨r, hr, -⟩ := access_ok hc el hi hu hb
    cases hnone.symm.trans hr
  intro h
  cases hact : u.action with
  | waitSettle => rw [hact] at h; cases h
  | read b => rw [hact] at h; exact hreg b (congrArg addressOf hact) (memRead_eq_fault.1 h).1
  | write b v => rw [hact] at h; exact hreg b (congrArg addressOf hact) (memWrite_eq_fault.1 h).1

section InvalidAddress

variable {a : Nat} {t : State}

theorem uopStep_ne_invalidAddress {el : BitVec 2} {i : Instr} {u : Uop} {last : Bool} {s : State}
    (hc : s.cfg.wf = true) (hi : i.wf s.cfg = true) (hu : u ∈ uopsOf s.cfg el i) :
    uopStep last u s ≠ .fault (.invalidAddress a t) := by
  intro h
  obtain hp | ⟨s1, -, -, hf⟩ := uopStep_eq_fault.1 h
  · exact perform_ne_fault hc hi hu hp
  · cases hf

/-- The configuration under which the expansion was made is kept from one micro-operation to the next. -/
theorem runUops_ne_invalidAddress {c : Config} {el : BitVec 2} {i : Instr} {us : List Uop} {s : State}
    (hc : c.wf = true) (hi : i.wf c = true) (hus : ∀ u ∈ us, u ∈ uopsOf c el i) (hs : s.cfg = c) :
    runUops us s ≠ .fault (.invalidAddress a t) := by
  induction us generalizing s with
  | nil => exact nofun
  | cons u us ih =>
    obtain ⟨hu, hus⟩ := List.forall_mem_cons.1 hus
    have hlift : (liftHold u s).cfg = c := by rw [liftHold_eq_ticks, ticks_cfg, hs]
    rw [runUops]
    cases h : uopStep us.isEmpty u (liftHold u s) with
    | next s1 => exact ih hus ((grows_uopStep h).cfg.trans hlift)
    | fault f =>
      rintro ⟨⟩
      rw [← hlift] at hc hi hu
      exact uopStep_ne_invalidAddress hc hi hu h
    | refused r => exact nofun

/-- Acceptance accesses nothing. -/
theorem accept_ne_invalidAddress {C : Descriptor} {k : Command} {s : State} :
    accept C k s ≠ .fault (.invalidAddress a t) := by
  intro h
  obtain ⟨-, ⟨-, hf⟩ | ⟨-, -, hf⟩ | ⟨-, -, -, hf⟩⟩ := accept_eq_fault.1 h <;> cases hf

theorem presentStep_ne_invalidAddress {C : Descriptor} {s : State} :
    presentStep C s ≠ .fault (.invalidAddress a t) := by
  cases hd : decode C with
  | ok i => rw [presentStep_ok hd]; exact accept_ne_invalidAddress
  | illegalCommand => cases hm : s.mode <;> simp [presentStep, hm, hd, raiseUndefined]

theorem exec_ne_invalidAddress {i : Instr} {s : State} (hc : s.cfg.wf = true) :
    exec i s ≠ .fault (.invalidAddress a t) := by
  rw [exec_eq_runCommand, runCommand]
  cases h : accept (encode i) (commandOf s.cfg s.elIn i) s with
  | next s1 =>
    obtain ⟨-, hops, -, -, rfl⟩ := accept_eq_next.1 h
    exact runUops_ne_invalidAddress hc ((operandsOk_eq_wf s.cfg s.elIn i).symm.trans hops) (fun _ hu => hu) rfl
  | fault f => rintro ⟨⟩; exact accept_ne_invalidAddress h
  | refused r => exact nofun

theorem seqStep_ne_invalidAddress {s : State} (h : s.Inv) : seqStep s ≠ .fault (.invalidAddress a t) := by
  cases hm : s.mode with
  | idle => simp [seqStep, hm]
  | busy =>
    cases hn : nextUop s with
    | none => simp [seqStep, hm, hn]
    | some ul =>
      obtain ⟨u, last⟩ := ul
      cases he : uopEnabled u s with
      | false => rw [seqStep_of_held hm hn he]; exact nofun
      | true =>
        obtain ⟨i, -, hi, hu⟩ := nextUop_of_inv h hm hn
        rw [seqStep_of_enabled hm hn he]
        exact uopStep_ne_invalidAddress h.cfgOk hi hu

/-- The host's own read is refused, not a fault, where the map has no register (log 18). -/
theorem agentStep_ne_invalidAddress {m : Move} {s : State} (h : s.Inv) :
    agentStep m s ≠ .fault (.invalidAddress a t) := by
  cases m with
  | present C => exact presentStep_ne_invalidAddress
  | seq => exact seqStep_ne_invalidAddress h
  | hostRead b => cases hr : regAt s.cfg b <;> simp [agentStep, hostReadStep, hr]
  | _ => exact nofun

theorem commandStep_ne_invalidAddress {C : Descriptor} {s : State} (hc : s.cfg.wf = true) :
    commandStep C s ≠ .fault (.invalidAddress a t) := by
  cases hd : decode C with
  | ok i => simpa only [commandStep, hd] using exec_ne_invalidAddress hc
  | illegalCommand => simp [commandStep, hd, raiseUndefined]

theorem step_ne_invalidAddress {s : State} (h : s.Inv) : step s ≠ .fault (.invalidAddress a t) := by
  cases hmoves : s.moves with
  | cons m rest =>
    rw [step_of_move hmoves]
    exact agentStep_ne_invalidAddress (inv_of_unobserved h _ _ _ _ _ _ _ _)
  | nil =>
    cases hmode : s.mode with
    | busy =>
      rw [step_of_busy hmoves hmode]
      split
      · exact seqStep_ne_invalidAddress h
      · exact nofun
    | idle =>
      cases hcmds : s.cmds with
      | nil => rw [step_of_idle hmoves hmode hcmds]; exact nofun
      | cons C rest =>
        rw [step_of_command hmoves hmode hcmds]
        exact commandStep_ne_invalidAddress (s := { s with cmds := rest }) h.cfgOk

end InvalidAddress

/-- Settles O14: every micro-operation a step performs is one of a command that passed its operand checks. -/
theorem noStepAccessesAnInvalidAddress : Obligations.NoStepAccessesAnInvalidAddress := by
  unfold Obligations.NoStepAccessesAnInvalidAddress
  exact fun s h a t => step_ne_invalidAddress h

/-! ### Bytes a command does not write (R73, R82) -/

@[simp] theorem byteAt_commit (s s' : State) (a : Nat) : byteAt (commit s s') a = byteAt s' a :=
  byteAt_congr rfl (stored_commit s s')

@[simp] theorem byteAt_advance (b : Bool) (s : State) (a : Nat) : byteAt (advance b s) a = byteAt s a :=
  byteAt_congr rfl (stored_advance b s)

@[simp] theorem byteAt_applyAfters (s : State) (as : List After) (a : Nat) :
    byteAt (applyAfters s as) a = byteAt s a :=
  byteAt_congr (applyAfters_cfg s as) (stored_applyAfters s as)

@[simp] theorem byteAt_tick (s : State) (a : Nat) : byteAt (tick s) a = byteAt s a :=
  byteAt_congr rfl (stored_ticks 1 s)

/-- A micro-operation changes only bytes of the word it writes. -/
theorem byteAt_uopStep {last : Bool} {u : Uop} {s t : State} {a : Nat} (h : uopStep last u s = .next t)
    (ha : ∀ A v, u.action = .write A v → a < A ∨ A + 4 ≤ a) : byteAt t a = byteAt s a := by
  obtain ⟨s1, hp, -, rfl⟩ := uopStep_eq_next.1 h
  rw [byteAt_commit, byteAt_advance, byteAt_applyAfters]
  cases hact : u.action with
  | waitSettle => rw [hact] at hp; cases hp; rfl
  | read A =>
    rw [hact] at hp
    obtain ⟨r, -, rfl⟩ := memRead_eq_next.1 hp
    exact byteAt_congr rfl fun r' => by cases r' <;> rfl
  | write A v => rw [hact] at hp; exact byteAt_memWrite hp (ha A v hact)

theorem write_misses_of_not_writesByte {c : Config} {el : BitVec 2} {i : Instr} {a : Nat} {u : Uop} {A : Nat}
    {v : WriteValue} (h : ¬ writesByte c el i a) (hu : u ∈ uopsOf c el i) (hact : u.action = .write A v) :
    a < A ∨ A + 4 ≤ a := by
  by_contra hin
  exact h ⟨u, hu, A, v, hact, by omega, by omega⟩

/-- Settles O33: acceptance and the clock write nothing, and each micro-operation keeps the byte. -/
theorem commandsChangeOnlyTheBytesTheyWrite : Obligations.CommandsChangeOnlyTheBytesTheyWrite := by
  unfold Obligations.CommandsChangeOnlyTheBytesTheyWrite
  intro i s t a h hno
  rw [exec_eq_runCommand] at h
  obtain ⟨s1, haccept, hrun⟩ := runCommand_eq_next.1 h
  have hs1 : byteAt s1 a = byteAt s a := by
    obtain ⟨-, -, -, -, rfl⟩ := accept_eq_next.1 haccept
    exact byteAt_congr rfl fun r => by cases r <;> rfl
  refine runUops_keeps (P := fun v => byteAt v a = byteAt s a) ?_ ?_ hs1 hrun
  · exact fun v hv => (byteAt_tick v a).trans hv
  · exact fun u hu last v w hv hw =>
      (byteAt_uopStep hw fun A x => write_misses_of_not_writesByte hno hu).trans hv

/-! ### One write, by register kind (R72, R73) -/

/-- Settles O47: the written register holds `storedAfter`, and the write's own register effect is the only one. -/
theorem portWriteThenReadByRegisterKind : Obligations.PortWriteThenReadByRegisterKind := by
  unfold Obligations.PortWriteThenReadByRegisterKind
  intro s a v r hshape ha
  refine ⟨_, memWrite_at v ha, rfl, ?_, fun r' hr' => ?_, ?_⟩
  · rw [stored_hist (regWrite s v r), stored_regWrite_self (inRange_of_regAt hshape ha)]
    cases r <;> rfl
  · rw [stored_hist (regWrite s v r), stored_regWrite_ne hr']
  · cases r <;> rfl

/-! ### SET and CLR are idempotent on `OUT` (R78) -/

/-- The same word written again to the same register leaves `OUT` as the first write left it. -/
theorem regWrite_out_idempotent {s t : State} {v : Word} {r : Reg} (h : t.out = (regWrite s v r).out) :
    (regWrite t v r).out = t.out := by
  cases r with
  | gpset => rw [regWrite, h, regWrite, BitVec.or_assoc, BitVec.or_self]
  | gpclr => rw [regWrite, h, regWrite, BitVec.and_assoc, BitVec.and_self]
  | _ => rfl

/-- A command of one unconditional blind write completes in `Idle`, with that write's effect on `OUT` and one event. -/
theorem exec_of_blindWrite {i : Instr} {s : State} {a : Nat} {v : Word} {r : Reg}
    (hi : commandOf s.cfg s.elIn i = { operandsOk := true, uops := [{ action := .write a (.const v) }] })
    (hm : s.mode = .idle) (ha : regAt s.cfg a = some r) :
    ∃ t, exec i s = .next t ∧ t.cfg = s.cfg ∧ t.mode = .idle ∧ t.out = (regWrite s v r).out ∧
      t.hist = s.hist ++ [.wr a v] := by
  rw [exec_eq_runCommand, hi, runCommand_of_checks hm rfl rfl rfl]
  refine ⟨_, runUops_write ha rfl, ?_, rfl, ?_, rfl⟩
  · simp
  · cases r <;> rfl

theorem exec_blindWrite_twice {i : Instr} {s : State} {a : Nat} {v : Word} {r : Reg}
    (hi : ∀ el, commandOf s.cfg el i = { operandsOk := true, uops := [{ action := .write a (.const v) }] })
    (hm : s.mode = .idle) (ha : regAt s.cfg a = some r) :
    ∃ t1 t2, exec i s = .next t1 ∧ exec i t1 = .next t2 ∧ t2.out = t1.out ∧ t2.hist = t1.hist ++ [.wr a v] := by
  obtain ⟨t1, h1, hcfg, hm1, hout1, -⟩ := exec_of_blindWrite (hi _) hm ha
  rw [← hcfg] at hi ha
  obtain ⟨t2, h2, -, -, hout2, hhist⟩ := exec_of_blindWrite (hi _) hm1 ha
  exact ⟨t1, t2, h1, h2, hout2.trans (regWrite_out_idempotent hout1), hhist⟩

/-- Settles O25: each is one blind write, to `GPSET` or to `GPCLR`. -/
theorem setAndClrAreIdempotentOnOut : Obligations.SetAndClrAreIdempotentOnOut := by
  unfold Obligations.SetAndClrAreIdempotentOnOut
  intro s p hc hm
  exact ⟨exec_blindWrite_twice (i := .set p) (fun _ => rfl) hm (regAt_gpset hc),
    exec_blindWrite_twice (i := .clr p) (fun _ => rfl) hm (regAt_gpclr hc)⟩

end Sys2Proof.Proofs
end

section
/-! PROOFS. Decoding and encoding agree, and decoding follows the opcode map (spec/30_encoding.md R102, R103, R106 to
R108, R119, R120). -/

namespace Sys2Proof.Proofs

open Sys2Proof Sys2Proof.Machine Sys2Proof.Laws
open BitVec (extractLsb'_append_extractLsb'_eq_extractLsb' extractLsb'_eq_self)

/-- Settles O5: `decode_encode`, at every command. -/
theorem decodeOfEncodeIsTheCommand : Obligations.DecodeOfEncodeIsTheCommand := decode_encode

/-! ### Encode of decode -/

/-- The bits that a row's mask fixes are those of the row's match. -/
theorem extractLsb'_of_rowMatches {C pat mask : Descriptor} (h : rowMatches C pat mask = true) (k n : Nat)
    (hmask : mask.extractLsb' k n = BitVec.allOnes n) : C.extractLsb' k n = pat.extractLsb' k n := by
  rw [← beq_iff_eq.1 h, BitVec.extractLsb'_and, hmask, BitVec.and_allOnes]

section Pieces

variable {C : Descriptor} {op : BitVec 4}

/-- A descriptor is put together from its pieces: the bits its format fixes, and its fields (R102). -/
theorem encodeP_of_pieces (hfixed : C.extractLsb' 8 56 = 0#32 ++ op ++ 0#20) :
    encodeP op (fieldFunction C) (fieldPin C) = C := by
  simp (disch := decide) only [encodeP, ← hfixed, fieldFunction, fieldPin,
    extractLsb'_append_extractLsb'_eq_extractLsb', extractLsb'_eq_self]

theorem encodeL_of_pieces (hfixed : C.extractLsb' 28 36 = 0#32 ++ op) :
    encodeL op (fieldVal C) (fieldLast C) (fieldFirst C) = C := by
  simp (disch := decide) only [encodeL, ← hfixed, fieldVal, fieldLast, fieldFirst,
    extractLsb'_append_extractLsb'_eq_extractLsb', extractLsb'_eq_self]

theorem encodeR_of_pieces (hop : C.extractLsb' 28 4 = op) (hfixed : C.extractLsb' 12 16 = 0#16) :
    encodeR op (fieldPattern C) (fieldRLast C) (fieldRFirst C) = C := by
  simp (disch := decide) only [encodeR, ← hop, ← hfixed, fieldPattern, fieldRLast, fieldRFirst,
    extractLsb'_append_extractLsb'_eq_extractLsb', extractLsb'_eq_self]

theorem encodeN_of_pieces (hfixed : C.extractLsb' 10 54 = 0#32 ++ op ++ 0#18) :
    encodeN op (fieldFirst C) = C := by
  simp (disch := decide) only [encodeN, ← hfixed, fieldFirst,
    extractLsb'_append_extractLsb'_eq_extractLsb', extractLsb'_eq_self]

/-- The five rows whose only field is `pin` fix `arg` too. -/
theorem encodeP_pin_of_rowMatches (h : rowMatches C (encodeP op 0 0) 0xFFFFFFFFFFFFFFE0 = true) :
    encodeP op 0 (fieldPin C) = C := by
  have harg : fieldFunction C = 0 :=
    (extractLsb'_of_rowMatches h 5 3 rfl).trans (fieldFunction_encodeP op 0 0)
  have hfixed : (encodeP op 0 0).extractLsb' 8 56 = 0#32 ++ op ++ 0#20 :=
    (BitVec.extractLsb'_append_eq_of_le (by decide)).trans BitVec.extractLsb'_append_eq_left
  rw [← harg]
  exact encodeP_of_pieces ((extractLsb'_of_rowMatches h 8 56 rfl).trans hfixed)

end Pieces

/-- What one row of `decode` answers: its own command when it is matched, else what the later rows answer. -/
theorem ite_ok_eq_ok {p : Prop} [Decidable p] {i j : Instr} {d : Decoded}
    (h : (if p then .ok j else d) = Decoded.ok i) : (p ∧ j = i) ∨ d = .ok i := by
  split at h
  case isTrue hp => exact .inl ⟨hp, Decoded.ok.inj h⟩
  case isFalse => exact .inr h

/-- By cases on the row that is matched: its fixed bits and the fields the decoder reads make up the descriptor. -/
theorem encode_of_decode {C : Descriptor} {i : Instr} (hd : decode C = .ok i) : encode i = C := by
  unfold decode at hd
  obtain ⟨hcfgf, rfl⟩ | hd := ite_ok_eq_ok hd
  · exact encodeP_of_pieces (extractLsb'_of_rowMatches hcfgf 8 56 rfl)
  obtain ⟨hcfgp, rfl⟩ | hd := ite_ok_eq_ok hd
  · have hbit : C.extractLsb' 7 1 = 0#1 := extractLsb'_of_rowMatches hcfgp 7 1 rfl
    have harg : 0#1 ++ fieldPull C = fieldFunction C := by
      rw [← hbit]
      exact extractLsb'_append_extractLsb'_eq_extractLsb' (by decide)
    rw [encode, harg]
    exact encodeP_of_pieces (extractLsb'_of_rowMatches hcfgp 8 56 rfl)
  obtain ⟨henr, rfl⟩ | hd := ite_ok_eq_ok hd
  · exact encodeP_pin_of_rowMatches henr
  obtain ⟨henf, rfl⟩ | hd := ite_ok_eq_ok hd
  · exact encodeP_pin_of_rowMatches henf
  obtain ⟨hset, rfl⟩ | hd := ite_ok_eq_ok hd
  · exact encodeP_pin_of_rowMatches hset
  obtain ⟨hclr, rfl⟩ | hd := ite_ok_eq_ok hd
  · exact encodeP_pin_of_rowMatches hclr
  obtain ⟨hsetg, rfl⟩ | hd := ite_ok_eq_ok hd
  · exact encodeP_pin_of_rowMatches hsetg
  obtain ⟨hpri0, rfl⟩ | hd := ite_ok_eq_ok hd
  · have hval : fieldVal C = 0 := extractLsb'_of_rowMatches hpri0 20 8 rfl
    rw [encode, ← hval]
    exact encodeL_of_pieces (extractLsb'_of_rowMatches hpri0 28 36 rfl)
  obtain ⟨htgt, rfl⟩ | hd := ite_ok_eq_ok hd
  · exact encodeL_of_pieces (extractLsb'_of_rowMatches htgt 28 36 rfl)
  obtain ⟨hsns, rfl⟩ | hd := ite_ok_eq_ok hd
  · exact encodeR_of_pieces (extractLsb'_of_rowMatches hsns 28 4 rfl) (extractLsb'_of_rowMatches hsns 12 16 rfl)
  obtain ⟨henl, rfl⟩ | hd := ite_ok_eq_ok hd
  · exact encodeN_of_pieces (extractLsb'_of_rowMatches henl 10 54 rfl)
  obtain ⟨hfwd, rfl⟩ | hd := ite_ok_eq_ok hd
  · exact (beq_iff_eq.1 hfwd).symm.trans BitVec.and_allOnes
  · cases hd

/-- Settles O6: `encode_of_decode`, at every descriptor. -/
theorem encodeOfDecodeIsTheDescriptor : Obligations.EncodeOfDecodeIsTheDescriptor := by
  unfold Obligations.EncodeOfDecodeIsTheDescriptor
  exact fun _ _ => encode_of_decode

/-! ### The opcode map (R106) -/

theorem encodesInItsRow (i : Instr) : EncodesInItsRow.Statement i := by
  cases i with
  | cfgf p f => exact EncodesInItsRow.cfgf p f
  | cfgp p c => exact EncodesInItsRow.cfgp p c
  | enr p => exact EncodesInItsRow.enr p
  | enf p => exact EncodesInItsRow.enf p
  | set p => exact EncodesInItsRow.set p
  | clr p => exact EncodesInItsRow.clr p
  | setg p => exact EncodesInItsRow.setg p
  | pri0 first last => exact EncodesInItsRow.pri0 first last
  | tgt first last mask => exact EncodesInItsRow.tgt first last mask
  | sns rfirst rlast pattern => exact EncodesInItsRow.sns rfirst rlast pattern
  | enl l => exact EncodesInItsRow.enl l
  | fwd => exact EncodesInItsRow.fwd

theorem ite_ok_eq_illegalCommand {p : Prop} [Decidable p] {j : Instr} {d : Decoded} :
    (if p then .ok j else d) = Decoded.illegalCommand ↔ ¬ p ∧ d = .illegalCommand := by
  by_cases hp : p <;> simp [hp]

/-- Decoding fails exactly where no row is matched. -/
theorem decode_eq_illegalCommand {C : Descriptor} :
    decode C = .illegalCommand ↔ ∀ row ∈ opcodeRows, C &&& row.2.2 ≠ row.2.1 := by
  simp [decode, opcodeRows, rowMatches, ite_ok_eq_illegalCommand]

/-- A descriptor that matches a row has the row's opcode. -/
theorem op_of_row {C : Descriptor} {row : String × Descriptor × Descriptor} (hrow : row ∈ opcodeRows)
    (h : C &&& row.2.2 = row.2.1) : C.extractLsb' 28 4 = row.2.1.extractLsb' 28 4 := by
  have hmask : ∀ row ∈ opcodeRows, row.2.2.extractLsb' 28 4 = BitVec.allOnes 4 := by decide
  exact extractLsb'_of_rowMatches (beq_iff_eq.2 h) 28 4 (hmask row hrow)

/-- An opcode has one row. -/
theorem eq_of_op_eq : ∀ r ∈ opcodeRows, ∀ q ∈ opcodeRows,
    r.2.1.extractLsb' 28 4 = q.2.1.extractLsb' 28 4 → r = q := by decide

/-- No descriptor matches two rows. -/
theorem row_unique {C : Descriptor} {r q : String × Descriptor × Descriptor} (hr : r ∈ opcodeRows)
    (hq : q ∈ opcodeRows) (hCr : C &&& r.2.2 = r.2.1) (hCq : C &&& q.2.2 = q.2.1) : r = q :=
  eq_of_op_eq r hr q hq ((op_of_row hr hCr).symm.trans (op_of_row hq hCq))

/-- A descriptor that decodes matches a row of its command's mnemonic. -/
theorem row_of_decode {C : Descriptor} {i : Instr} (h : decode C = .ok i) :
    ∃ pat mask, (mnemonicOf i, pat, mask) ∈ opcodeRows ∧ C &&& mask = pat := by
  simpa only [EncodesInItsRow.Statement, encode_of_decode h] using encodesInItsRow i

/-- One that matches a row decodes, and to a command of that row: it matches no other. -/
theorem decode_of_row {C : Descriptor} {m : String} {pat mask : Descriptor} (hrow : (m, pat, mask) ∈ opcodeRows)
    (h : C &&& mask = pat) : ∃ i, decode C = .ok i ∧ mnemonicOf i = m := by
  cases hd : decode C with
  | ok i =>
    obtain ⟨pat', mask', hrow', h'⟩ := row_of_decode hd
    exact ⟨i, rfl, congrArg Prod.fst (row_unique hrow' hrow h' h)⟩
  | illegalCommand => exact absurd h (decode_eq_illegalCommand.1 hd _ hrow)

/-- Settles O7: a row is matched by what decodes to its mnemonic and by nothing else, since rows differ in opcode. -/
theorem decodeFollowsTheOpcodeMap : Obligations.DecodeFollowsTheOpcodeMap := by
  unfold Obligations.DecodeFollowsTheOpcodeMap
  refine ⟨fun C m pat mask hrow => ⟨decode_of_row hrow, ?_⟩, fun C => decode_eq_illegalCommand.2, ?_⟩
  · rintro ⟨i, hd, rfl⟩
    obtain ⟨pat', mask', hrow', h⟩ := row_of_decode hd
    cases opcodeRows_unique _ hrow' _ hrow rfl
    exact h
  · have hne : opcodeRows.Pairwise (· ≠ ·) := by decide
    exact hne.imp_of_mem fun hr hq hne C ⟨hCr, hCq⟩ => hne (row_unique hr hq hCr hCq)

/-- Settles O8: a descriptor that matches a row has the row's opcode, and no row has one of the four. -/
theorem reservedOpcodesAreIllegalCommands : Obligations.ReservedOpcodesAreIllegalCommands := by
  unfold Obligations.ReservedOpcodesAreIllegalCommands
  intro C hop
  have hfree : ∀ row ∈ opcodeRows, row.2.1.extractLsb' 28 4 ∉ [0x0#4, 0xD#4, 0xE#4, 0xF#4] := by decide
  refine decode_eq_illegalCommand.2 fun row hrow h => hfree row hrow ?_
  simpa [← op_of_row hrow h] using hop

/-! ### Fixed words and expansions (R119, R120) -/

/-- Settles O4: each word is decoded. -/
theorem workedEncodingsDecode : Obligations.WorkedEncodingsDecode := by
  unfold Obligations.WorkedEncodingsDecode
  exact ⟨by decide, by decide, by decide, by decide, by decide, by decide, by decide, by decide⟩

/-- Settles O9: R119 lists what the definitions write out. -/
theorem pseudoInstructionsExpandAsListed : Obligations.PseudoInstructionsExpandAsListed := by
  unfold Obligations.PseudoInstructionsExpandAsListed
  intro c p a b d fn pull l mask pattern
  exact ⟨rfl, rfl, rfl, rfl, rfl⟩

/-! ### The step that takes up the next descriptor (R101) -/

theorem commandStep_ok {C : Descriptor} {i : Instr} (hd : decode C = .ok i) (s : State) :
    commandStep C s = exec i s := by
  simp only [commandStep, hd]

theorem decode_of_decodeTableWord {nbits w : Nat} {i : Instr} (h : decodeTableWord nbits w = some i) :
    decode (BitVec.ofNat 64 (w % 2 ^ nbits)) = .ok i := by
  unfold decodeTableWord at h
  split at h
  · cases hd : decode (BitVec.ofNat 64 (w % 2 ^ nbits)) with
    | ok j => simpa [hd] using h
    | illegalCommand => simp [hd] at h
  · cases h

/-- Settles O48: the next descriptor is taken up by `commandStep`; one that is placed is next. -/
theorem stepRunsTheDecodedCommand : Obligations.StepRunsTheDecodedCommand := by
  unfold Obligations.StepRunsTheDecodedCommand
  refine ⟨fun s C rest i hmode hmoves hcmds hd => ?_, fun s w i hw => ?_⟩
  · exact ⟨(step_of_command hmoves hmode hcmds).trans (commandStep_ok hd _), encode_of_decode hd⟩
  · exact (step_of_command rfl rfl rfl).trans (commandStep_ok (decode_of_decodeTableWord hw) _)

end Sys2Proof.Proofs
end

section
/-! PROOFS. Presenting a descriptor: the checks in their order, acceptance, and the busy port (spec/30_encoding.md R101,
R104, R108, R109; spec/60_exceptions.md R191, R192; spec/70_reset_and_hazards.md R232). -/

namespace Sys2Proof.Proofs

open Sys2Proof Sys2Proof.Machine Sys2Proof.Laws

/-! ### The preconditions, command by command (40_gpio_pinmux.md R135, R136, R139; 41_gic_distributor.md R168) -/

/-- `ENR`, `ENF` and `SETG` ask for both flags of their pin, no other command asks for any. -/
theorem pinOk_commandOf {c : Config} {el : BitVec 2} {i : Instr} {s : State} :
    (commandOf c el i).pinOk s = true ↔ ∀ p, (i = .enr p ∨ i = .enf p ∨ i = .setg p) →
      s.fdone.getLsbD p.toNat = true ∧ s.pdone.getLsbD p.toNat = true := by
  cases i with
  | enr p => simp [Command.pinOk, commandOf, enrCommand, pinReady]
  | enf p => simp [Command.pinOk, commandOf, enfCommand, pinReady]
  | setg p => simp [Command.pinOk, commandOf, setgCommand, pinReady]
  | _ => exact iff_of_true rfl nofun

/-- `ENL` asks for the three flags of its line, no other command asks for any. -/
theorem lineOk_commandOf {c : Config} {el : BitVec 2} {i : Instr} {s : State} :
    (commandOf c el i).lineOk s = true ↔ ∀ l, i = .enl l →
      s.lp.getLsbD l.toNat = true ∧ s.lt.getLsbD l.toNat = true ∧ s.ls.getLsbD l.toNat = true := by
  cases i with
  | enl l => simp [Command.lineOk, commandOf, enlCommand, lineReady, and_assoc]
  | _ => exact iff_of_true rfl nofun

/-! ### A presented descriptor -/

theorem presentStep_illegalCommand {C : Descriptor} {s : State} (hm : s.mode = .idle)
    (hd : decode C = .illegalCommand) : presentStep C s = .fault (.illegalCommand C s) := by
  simp only [presentStep, hm, hd, raiseUndefined]

theorem accept_illegalOperand {C : Descriptor} {i : Instr} {s : State} (hm : s.mode = .idle)
    (hi : i.wf s.cfg = false) :
    accept C (commandOf s.cfg s.elIn i) s = .fault (.illegalOperand C s) :=
  accept_eq_fault.2 ⟨hm, .inl ⟨(operandsOk_eq_wf ..).trans hi, rfl⟩⟩

/-- Settles O10: the checks are those of `accept`, in its order. -/
theorem acceptanceChecksComeInOrder : Obligations.AcceptanceChecksComeInOrder := by
  unfold Obligations.AcceptanceChecksComeInOrder
  intro s C rest hmode hmoves
  have hstep : step s = presentStep C { s with moves := rest } := step_of_move hmoves
  refine ⟨fun hd => hstep.trans (presentStep_illegalCommand hmode hd), fun i hd => ?_⟩
  have haccept := hstep.trans (presentStep_ok hd)
  have hops : i.wf s.cfg = true → (commandOf s.cfg s.elIn i).operandsOk = true := (operandsOk_eq_wf ..).trans
  refine ⟨fun hi => ?_, fun hi p hp hflags => ?_, fun hi l hl hflags => ?_, fun hi hpin hline => ?_⟩
  · exact haccept.trans (accept_illegalOperand (s := { s with moves := rest }) hmode hi)
  · have hpin : (commandOf s.cfg s.elIn i).pinOk { s with moves := rest } = false :=
      Bool.eq_false_iff.2 fun h => hflags (pinOk_commandOf.1 h p hp)
    exact haccept.trans (accept_eq_fault.2 ⟨hmode, .inr (.inl ⟨hops hi, hpin, rfl⟩)⟩)
  · have hpin : (commandOf s.cfg s.elIn i).pinOk { s with moves := rest } = true := by rw [hl]; rfl
    have hline : (commandOf s.cfg s.elIn i).lineOk { s with moves := rest } = false :=
      Bool.eq_false_iff.2 fun h => hflags (lineOk_commandOf.1 h l hl)
    exact haccept.trans (accept_eq_fault.2 ⟨hmode, .inr (.inr ⟨hops hi, hpin, hline, rfl⟩)⟩)
  · exact stepsQuietlyTo_of_commit (haccept.trans (accept_eq_next.2
      ⟨hmode, hops hi, pinOk_commandOf.2 hpin, lineOk_commandOf.2 hline, rfl⟩)) ⟨rfl, rfl⟩ rfl rfl rfl rfl rfl

/-! ### Operand checks (R104, R109) -/

theorem exec_illegalOperand {i : Instr} {s : State} (hm : s.mode = .idle) (hi : i.wf s.cfg = false) :
    exec i s = .fault (.illegalOperand (encode i) s) :=
  (exec_eq_runCommand i s).trans (runCommand_of_fault (accept_illegalOperand hm hi))

/-- Once accepted, a command does not fault by its operands. -/
theorem runUops_ne_illegalOperand {us : List Uop} {s t : State} {C : Descriptor} :
    runUops us s ≠ .fault (.illegalOperand C t) := by
  induction us generalizing s with
  | nil => exact nofun
  | cons u us ih =>
    rw [runUops]
    cases hu : uopStep us.isEmpty u (liftHold u s) with
    | next s1 => exact ih
    | refused r => exact nofun
    | fault f =>
      rintro ⟨⟩
      obtain hp | ⟨s1, -, -, hf⟩ := uopStep_eq_fault.1 hu
      · obtain ⟨a, hf, -⟩ := perform_eq_fault hp
        cases hf
      · cases hf

theorem wf_of_exec_illegalOperand {i : Instr} {s t : State} {C : Descriptor}
    (h : exec i s = .fault (.illegalOperand C t)) : i.wf s.cfg = false := by
  rw [exec_eq_runCommand, runCommand] at h
  cases ha : accept (encode i) (commandOf s.cfg s.elIn i) s with
  | next s1 =>
    rw [ha] at h
    exact absurd h runUops_ne_illegalOperand
  | refused r =>
    rw [ha] at h
    cases h
  | fault f =>
    rw [ha] at h
    cases h
    obtain ⟨-, ⟨hops, -⟩ | ⟨-, -, hf⟩ | ⟨-, -, -, hf⟩⟩ := accept_eq_fault.1 ha
    · exact (operandsOk_eq_wf ..).symm.trans hops
    · cases hf
    · cases hf

/-- Settles O11: each refused value makes `Instr.wf` false, and `Instr.wf` is what acceptance checks. -/
theorem operandChecksAreThoseOfTheSpec : Obligations.OperandChecksAreThoseOfTheSpec := by
  unfold Obligations.OperandChecksAreThoseOfTheSpec
  intro s hmode
  refine ⟨fun p code hnone hup hdown => ?_, fun first last hrange => ⟨?_, fun mask => ?_⟩,
    fun rfirst rlast pattern hrange => ?_, fun l hl => ?_, fun i C t h => wf_of_exec_illegalOperand h⟩
  · exact exec_illegalOperand hmode (by simp [Instr.wf, pullCodeOk, PullCode.codes, hnone, hup, hdown])
  · exact exec_illegalOperand hmode (by simpa [Instr.wf, lineRangeOk] using hrange)
  · exact exec_illegalOperand hmode (by simpa [Instr.wf, lineRangeOk] using hrange)
  · exact exec_illegalOperand hmode (by simpa [Instr.wf, senseRangeOk] using hrange)
  · exact exec_illegalOperand hmode (by simpa [Instr.wf, lineOk] using hl)

/-! ### The busy port (R232) -/

/-- Settles O12: a whole command and a presented descriptor are refused exactly while `Busy`. -/
theorem busyPortRefusesEveryCommand : Obligations.BusyPortRefusesEveryCommand := by
  unfold Obligations.BusyPortRefusesEveryCommand
  intro s hbusy
  exact ⟨fun i => exec_eq_refused.2 ⟨hbusy, rfl⟩,
    fun C rest hmoves => (step_of_move hmoves).trans (presentStep_eq_refused.2 ⟨hbusy, rfl⟩)⟩

end Sys2Proof.Proofs
end

section
/-! PROOFS. A command run one micro-operation after another: where its expansion leads, up to what the spec leaves
free, the levels drawn for the pins of undescribed level and their edges (spec/10_state.md R43, R44; spec/30_encoding.md
R112, R113; log 7). -/

namespace Sys2Proof.Proofs

open Sys2Proof Sys2Proof.Machine Sys2Proof.Laws

/-! ### Edge latch and draw counter: no access and no effect looks at them -/

/-- `s` with another edge latch and draw counter. -/
def withLatch (e : Word) (d : Nat) (s : State) : State := { s with eds := e, levelDraws := d }

theorem perform_withLatch {act : Action} {s x : State} (e : Word) (d : Nat) (h : perform act s = .next x) :
    perform act (withLatch e d s) = .next (withLatch e d x) := by
  obtain ⟨rfl, rfl⟩ | ⟨a, r, rfl, hr, rfl⟩ | ⟨a, v, r, rfl, hr, rfl⟩ := perform_cases h
  · rfl
  · exact memRead_eq_next.2 ⟨r, hr, by cases r <;> rfl⟩
  · exact memWrite_eq_next.2 ⟨r, hr, by cases r <;> rfl⟩

theorem needOk_withLatch (e : Word) (d : Nat) (need : Option Nat) (s : State) :
    needOk need (withLatch e d s) = needOk need s := by
  cases need <;> rfl

theorem applyAfters_withLatch (e : Word) (d : Nat) (s : State) (as : List After) :
    applyAfters (withLatch e d s) as = withLatch e d (applyAfters s as) := by
  induction as generalizing s with
  | nil => rfl
  | cons a as ih =>
    have ha : applyAfter (withLatch e d s) a = withLatch e d (applyAfter s a) := by cases a <;> rfl
    rw [applyAfters_cons, ha, ih, applyAfters_cons]

theorem advance_withLatch (e : Word) (d : Nat) (last : Bool) (s : State) :
    advance last (withLatch e d s) = withLatch e d (advance last s) := rfl

theorem latchesEdge_withLatch {e : Word} {d : Nat} {u v : State} {q : Nat} (hk : levelKnown u q = true) :
    latchesEdge (withLatch e d u) v q = latchesEdge u v q := by
  have hlevel : level (withLatch e d u) q = level u q := level_congr hk rfl rfl rfl rfl
  simp only [latchesEdge, hlevel]
  rfl

/-- The end of a step, seen from the states without latch and counter. -/
theorem commit_withLatch (e : Word) (d : Nat) (u v : State) :
    ∃ e', commit (withLatch e d u) (withLatch e d v) = withLatch e' (d + 1) v ∧
      ∀ q < 32, levelKnown u q = true →
        e'.getLsbD q = (e.getLsbD q || latchesEdge u (withLatch e' (d + 1) v) q) := by
  refine ⟨_, rfl, fun q hq hk => ?_⟩
  rw [← latchesEdge_withLatch (e := e) (d := d) hk]
  exact commit_eds_bit _ _ hq

/-! ### Which edges a change of `OUT` latches -/

/-- When functions and pads stay, a described pin latches only as an output, by its output latch and its own
coupling. -/
theorem latchesEdge_of_fsel_pad_eq {u v : State} {q : Nat} (hk : levelKnown u q = true) (hfsel : v.fsel = u.fsel)
    (hcfg : v.cfg = u.cfg) (hpad : v.padIn = u.padIn) :
    latchesEdge u v q = (decide (fnCode u q = u.cfg.fselCode.output) && u.cfg.selfEdge.getLsbD q &&
      (u.ren.getLsbD q && (!u.out.getLsbD q && v.out.getLsbD q) ||
        u.fen.getLsbD q && (u.out.getLsbD q && !v.out.getLsbD q))) := by
  by_cases hout : fnCode u q = u.cfg.fselCode.output
  · have hv : level v q = v.out.getLsbD q := level_output (by rw [fnCode_congr hfsel, hcfg, hout])
    rw [latchesEdge, level_output hout, hv, ownLatchChange, hout]
    cases u.out.getLsbD q <;> cases v.out.getLsbD q <;> simp [Bool.and_comm]
  · have hin := (levelKnown_iff.1 hk).resolve_left hout
    have hlevel : level v q = level u q := by
      simp only [level, fnCode_congr hfsel, hcfg, hpad, if_neg hout, if_pos hin]
    simp [latchesEdge_of_level_eq hlevel, hout]

/-- Were `OUT` to become `o`, no pin would have an edge that its detector is armed for. -/
def NoArmedChange (u : State) (o : Word) : Prop :=
  ∀ q < 32, (u.ren.getLsbD q && (!u.out.getLsbD q && o.getLsbD q) ||
    u.fen.getLsbD q && (u.out.getLsbD q && !o.getLsbD q)) = false

theorem NoArmedChange.of_eq {u : State} {o : Word} (h : o = u.out) : NoArmedChange u o := by
  intro q _
  rw [h]
  cases u.out.getLsbD q <;> simp

/-! ### Accesses -/

theorem perform_inputs {act : Action} {s x : State} (h : perform act s = .next x) :
    x.cfg = s.cfg ∧ x.padIn = s.padIn ∧ x.eds = s.eds := by
  obtain ⟨-, rfl⟩ | ⟨a, r, -, -, rfl⟩ | ⟨a, v, r, -, -, rfl⟩ := perform_cases h <;> simp

theorem regWrite_fsel_of_ne {s : State} {v : Word} {r : Reg} (hr : ∀ n, r ≠ .fsel n) :
    (regWrite s v r).fsel = s.fsel := by
  cases r with
  | fsel n => exact absurd rfl (hr n)
  | _ => rfl

/-- Where nothing is held, the clock does not run. -/
theorem liftHold_of_enabled {w : Uop} {s : State} (h : uopEnabled w s = true) : liftHold w s = s := by
  rw [liftHold_eq_ticks]
  by_cases hwait : w.action = .waitSettle
  · have hsettle : s.settle = 0 := by simpa [uopEnabled, hwait] using h
    simp [hwait, hsettle, ticks]
  · simp [hwait, ticks]

theorem runUops_liftHold (w : Uop) (us : List Uop) (s : State) :
    runUops (w :: us) s = runUops (w :: us) (liftHold w s) := by
  rw [runUops, runUops, liftHold_of_enabled (uopEnabled_liftHold w s)]

/-! ### One reasoning rule per micro-operation -/

/-- `R` is what the rest `us` of an expansion answers from `u`, up to the draw counter and the edge latch of the pins
whose level `u` does not describe. -/
def Leads (R : Result) (us : List Uop) (u : State) : Prop :=
  ∃ e d, R = runUops us (withLatch e d u) ∧
    ∀ q < 32, levelKnown u q = true → e.getLsbD q = u.eds.getLsbD q

/-- `s` with the command of descriptor `C` under way: the micro-operations before number `k` are done. -/
def underWay (C : Descriptor) (k : Nat) (s : State) : State :=
  { s with cur := C, ustep := k, mode := .busy, done := false }

section Rules

variable {R : Result} {us : List Uop} {u : State} {after : List After} {a : Nat} {r : Reg} {c : Config}

/-- A command that passes its checks begins with its expansion, in the accepted state. -/
theorem leads_exec {i : Instr} {s : State} (hm : s.mode = .idle) (hwf : i.wf s.cfg = true)
    (hpin : (commandOf s.cfg s.elIn i).pinOk s = true) (hline : (commandOf s.cfg s.elIn i).lineOk s = true) :
    Leads (exec i s) (uopsOf s.cfg s.elIn i) (underWay (encode i) 0 s) := by
  refine ⟨(commit s (underWay (encode i) 0 s)).eds, s.levelDraws + 1, ?_,
    fun q hq hk => commit_eds_quiet hq hk rfl rfl rfl rfl⟩
  rw [exec_eq_runCommand, runCommand_of_checks hm ((operandsOk_eq_wf ..).trans hwf) hpin hline]
  rfl

/-- An enabled micro-operation is performed, and its step latches what R44 says. -/
theorem Leads.uop {w : Uop} {x : State} (h : Leads R (w :: us) u) (hen : uopEnabled w u = true)
    (hp : perform w.action u = .next x) (hneed : needOk w.needBit x = true) :
    ∃ e d, R = runUops us (withLatch e d (advance us.isEmpty (applyAfters x w.after))) ∧
      ∀ q < 32, levelKnown u q = true → e.getLsbD q = (u.eds.getLsbD q ||
        latchesEdge u (withLatch e d (advance us.isEmpty (applyAfters x w.after))) q) := by
  obtain ⟨e, d, hR, he⟩ := h
  obtain ⟨e', hcommit, he'⟩ := commit_withLatch e d u (advance us.isEmpty (applyAfters x w.after))
  have hstep : uopStep us.isEmpty w (liftHold w (withLatch e d u)) =
      .next (withLatch e' (d + 1) (advance us.isEmpty (applyAfters x w.after))) := by
    rw [liftHold_of_enabled (s := withLatch e d u) hen,
      uopStep_of_perform (perform_withLatch e d hp) ((needOk_withLatch ..).trans hneed), applyAfters_withLatch,
      advance_withLatch, hcommit]
  refine ⟨e', d + 1, hR.trans (runUops_cons_of_next hstep), fun q hq hk => ?_⟩
  rw [he' q hq hk, he q hq hk]

/-- An enabled micro-operation that leaves functions alone and gives no armed detector an edge: it latches nothing on
the described pins. -/
theorem Leads.quiet {w : Uop} {x : State} (h : Leads R (w :: us) u) (hen : uopEnabled w u = true)
    (hp : perform w.action u = .next x) (hneed : needOk w.needBit x = true) (hfsel : x.fsel = u.fsel)
    (hout : NoArmedChange u x.out) : Leads R us (advance us.isEmpty (applyAfters x w.after)) := by
  obtain ⟨hcfg, hpad, heds⟩ := perform_inputs hp
  obtain ⟨e, d, hR, he⟩ := h.uop hen hp hneed
  refine ⟨e, d, hR, fun q hq hk => ?_⟩
  have hku : levelKnown u q = true := by
    rw [← hk]
    exact (levelKnown_congr (by simp [hfsel]) (by simp [hcfg]) q).symm
  have hnone : latchesEdge u (withLatch e d (advance us.isEmpty (applyAfters x w.after))) q = false := by
    rw [latchesEdge_of_fsel_pad_eq hku (by simp [withLatch, hfsel]) (by simp [withLatch, hcfg])
      (by simp [withLatch, hpad])]
    simp [withLatch, hout q hq]
  rw [he q hq hku, hnone, Bool.or_false]
  simp [heds]

/-- The clock runs until the timer is 0, and the wait is over. -/
theorem Leads.wait (h : Leads R ({ action := .waitSettle, after := after } :: us) u) (hdone : u.done = false) :
    Leads R us (advance us.isEmpty (applyAfters { u with settle := 0 } after)) := by
  obtain ⟨e, d, hR, he⟩ := h
  have hticks : ticks u.settle (withLatch e d u) =
      withLatch (ticks u.settle (withLatch e d u)).eds (d + u.settle) { u with settle := 0 } := by
    rw [ticks_eq]
    simp [withLatch, hdone]
  have hlifted : Leads R ({ action := .waitSettle, after := after } :: us) { u with settle := 0 } :=
    ⟨_, _, (hR.trans (runUops_liftHold _ _ _)).trans (congrArg _ hticks),
      fun q hq hk => (ticks_eds_quiet (s := withLatch e d u) hq hk).trans (he q hq hk)⟩
  exact hlifted.quiet rfl rfl rfl rfl (.of_eq rfl)

/-- A register that stores `x` is read; a check attached to the read passes. -/
theorem Leads.read {need : Option Nat} {x : Word}
    (h : Leads R ({ action := .read a, needBit := need } :: us) u) (ha : regAt c a = some r) (hc : u.cfg = c)
    (hx : stored u r = some x) (hneed : needOk need { u with tReg := x } = true) :
    Leads R us (advance us.isEmpty { u with tReg := x, hist := u.hist ++ [.rd a x] }) :=
  h.quiet rfl (memRead_stored (hc ▸ ha) hx) (by cases need <;> exact hneed) rfl (.of_eq rfl)

/-- `y` is written to a register other than a function-select register, and no armed detector sees `OUT` change. -/
theorem Leads.write {v : WriteValue} {y : Word} (h : Leads R ({ action := .write a v, after := after } :: us) u)
    (ha : regAt c a = some r) (hc : u.cfg = c) (hr : ∀ n, r ≠ .fsel n) (hy : v.eval u.tReg = y)
    (hout : NoArmedChange u (regWrite u y r).out) :
    Leads R us (advance us.isEmpty (applyAfters { regWrite u y r with hist := u.hist ++ [.wr a y] } after)) := by
  subst hy
  exact h.quiet rfl (memWrite_at _ (hc ▸ ha)) rfl (regWrite_fsel_of_ne hr) hout

/-- At the end of an expansion the command is complete. -/
theorem Leads.next {s : State} (h : Leads R [] u) (hfsel : u.fsel = s.fsel) (hcfg : u.cfg = s.cfg)
    (heds : u.eds = s.eds) : ∃ e d, R = .next { u with eds := e, levelDraws := d } ∧
      ∀ q < 32, levelKnown s q = true → e.getLsbD q = s.eds.getLsbD q := by
  obtain ⟨e, d, hR, he⟩ := h
  exact ⟨e, d, hR, fun q hq hk => heds ▸ he q hq ((levelKnown_congr hfsel hcfg q).trans hk)⟩

end Rules

end Sys2Proof.Proofs
end

section
/-! PROOFS. The commands that configure a pin, `CFGF` and `CFGP`: whole, and `CFGP` step by step
(spec/40_gpio_pinmux.md R131 to R134; spec/70_reset_and_hazards.md R226). -/

namespace Sys2Proof.Proofs

open Sys2Proof Sys2Proof.Machine Sys2Proof.Laws

/-! ### CFGF (R131, R132) -/

/-- The word of a function-select register with the field of pin `p` replaced by `f`. -/
def withFunction (x : Word) (p : Nat) (f : BitVec 3) : Word :=
  (x &&& ~~~(0b111#32 <<< (3 * (p % 10)))) ||| (f.zeroExtend 32 <<< (3 * (p % 10)))

theorem extract_withFunction (x : Word) (p : Nat) (f : BitVec 3) :
    (withFunction x p f).extractLsb' (3 * (p % 10)) 3 = f :=
  extract_replaceField x f _ (by omega)

theorem getLsbD_withFunction_outside {x : Word} {p b : Nat} {f : BitVec 3} (hb : b < 32)
    (hout : b < 3 * (p % 10) ∨ 3 * (p % 10) + 2 < b) : (withFunction x p f).getLsbD b = x.getLsbD b :=
  getLsbD_replaceField_outside (w := 3) x f _ b (by omega) hb (by omega)

/-- The replaced field is the function of pin `p`. -/
theorem fnCode_self {s : State} {l : List Word} {x : Word} {p : Nat} {f : BitVec 3} (hp : p / 10 < l.length)
    (hs : s.fsel = l.set (p / 10) (withFunction x p f)) : fnCode s p = f := by
  rw [fnCode, hs, fselIndex, regAtIndex_set_self _ _ _ hp]
  exact extract_withFunction x p f

/-- Every other pin has its function as before. -/
theorem fnCode_other {s t : State} {p q : Nat} {f : BitVec 3} (hp : p / 10 < s.fsel.length) (hqp : q ≠ p)
    (ht : t.fsel = s.fsel.set (p / 10) (withFunction (regAtIndex s.fsel (p / 10)) p f)) :
    fnCode t q = fnCode s q := by
  rw [fnCode, fnCode, ht, fselIndex]
  by_cases hreg : q / 10 = p / 10
  · rw [hreg, regAtIndex_set_self _ _ _ hp]
    apply BitVec.eq_of_getLsbD_eq
    intro b hb
    rw [BitVec.getLsbD_extractLsb', BitVec.getLsbD_extractLsb', fselShift,
      getLsbD_withFunction_outside (by omega) (by omega)]
  · rw [regAtIndex_set_ne _ _ _ _ hreg]

/-- Of a step that leaves `OUT` alone each change of level is an edge, whatever `SELF_EDGE` says. -/
theorem latchesEdge_of_out_eq {u v : State} (h : v.out = u.out) (q : Nat) :
    latchesEdge u v q = (u.ren.getLsbD q && (!level u q && level v q) ||
      u.fen.getLsbD q && (level u q && !level v q)) := by
  simp [latchesEdge, ownLatchChange, h]

/-- The level of a pin whose function is output or input. -/
theorem level_of_fnCode {s : State} {q : Nat} {f : BitVec 3} (hf : fnCode s q = f)
    (hknown : f = s.cfg.fselCode.output ∨ f = s.cfg.fselCode.input) :
    level s q = if f = s.cfg.fselCode.output then s.out.getLsbD q else s.padIn.getLsbD q := by
  rw [level, hf]
  split
  · rfl
  · rw [if_pos (hknown.resolve_left ‹_›)]

/-! What the write of pin `p`'s field latches, from `u` to `t`. -/

section FunctionWrite

variable {u t : State} {p : Nat} {f : BitVec 3}

theorem latchesEdge_of_other_pin {q : Nat} (hlen : p / 10 < u.fsel.length)
    (hfsel : t.fsel = u.fsel.set (p / 10) (withFunction (regAtIndex u.fsel (p / 10)) p f))
    (hcfg : t.cfg = u.cfg) (hout : t.out = u.out) (hpad : t.padIn = u.padIn) (hqp : q ≠ p)
    (hk : levelKnown u q = true) : latchesEdge u t q = false := by
  refine latchesEdge_of_level_eq ?_
  have hfn : fnCode t q = fnCode u q := fnCode_other hlen hqp hfsel
  rcases levelKnown_iff.1 hk with h | h <;> simp [level, hfn, hcfg, hout, hpad, h]

theorem latchesEdge_of_written_pin (hlen : p / 10 < u.fsel.length)
    (hfsel : t.fsel = u.fsel.set (p / 10) (withFunction (regAtIndex u.fsel (p / 10)) p f))
    (hcfg : t.cfg = u.cfg) (hout : t.out = u.out) (hpad : t.padIn = u.padIn)
    (hf : f = u.cfg.fselCode.output ∨ f = u.cfg.fselCode.input) :
    let after := if f = u.cfg.fselCode.output then u.out.getLsbD p else u.padIn.getLsbD p
    latchesEdge u t p = (u.ren.getLsbD p && (!level u p && after) || u.fen.getLsbD p && (level u p && !after)) := by
  have hlevel := level_of_fnCode (s := t) (fnCode_self hlen hfsel) (hcfg.symm ▸ hf)
  simp only [latchesEdge_of_out_eq hout, hlevel, hcfg, hout, hpad]

end FunctionWrite

/-- Settles O15: the read is quiet, and the write latches what the new function does to the pin's own level. -/
theorem cfgfReplacesTheFunctionField : Obligations.CfgfReplacesTheFunctionField := by
  unfold Obligations.CfgfReplacesTheFunctionField
  intro s p f hc hshape hm x k y a
  have hlen : p.toNat / 10 < s.fsel.length := by rw [(shapeOk_iff.1 hshape).1]; omega
  have hreg : regAt s.cfg a = some (.fsel (p.toNat / 10)) := regAt_fsel hc (by omega)
  let u := underWay (encode (.cfgf p f)) 1 { s with tReg := x, hist := s.hist ++ [.rd a x] }
  have h0 := leads_exec (i := .cfgf p f) hm rfl rfl rfl
  have h1 : Leads _ _ u := h0.read hreg rfl rfl rfl
  obtain ⟨e, d, hR, he⟩ := h1.uop rfl (memWrite_at y hreg) rfl
  refine ⟨rfl, e, d, hR.trans ?_, fun q hq hqp hk => (he q hq hk).trans ?_,
    fun hk hf => (he p.toNat p.isLt hk).trans ?_⟩
  · simp [runUops, withLatch, advance, applyAfter, u, underWay, regWrite, pinBit, hm, encode, encodeP, a, aFsel,
      fselIndex]
  · rw [latchesEdge_of_other_pin (u := u) (f := f) hlen ?_ ?_ ?_ ?_ hqp hk, Bool.or_false]
    all_goals rfl
  · have hbefore : level u p.toNat = level s p.toNat := level_congr hk rfl rfl rfl rfl
    rw [latchesEdge_of_written_pin (u := u) hlen ?_ ?_ ?_ ?_ hf, hbefore, ← Bool.or_assoc, ← Bool.and_assoc,
      ← Bool.and_assoc]
    all_goals rfl

/-- Settles O16: the state of O15 has the replaced field, and a command leaves alone what it does not touch. -/
theorem cfgfChangesOnlyThePinsField : Obligations.CfgfChangesOnlyThePinsField := by
  unfold Obligations.CfgfChangesOnlyThePinsField
  intro s p f hc hshape hm
  have hlen : p.toNat / 10 < s.fsel.length := by rw [(shapeOk_iff.1 hshape).1]; omega
  obtain ⟨-, e, d, hexec, -⟩ := cfgfReplacesTheFunctionField s p f hc hshape hm
  refine ⟨_, _, _, hexec, rfl, fun r hr => (exec_leavesUntouched hc hexec).1 r hr, fun b hb hout => ?_, ?_⟩
  · rw [regAtIndex_set_self _ _ _ hlen]
    exact getLsbD_withFunction_outside hb hout
  · rw [regAtIndex_set_self _ _ _ hlen]
    exact extract_withFunction _ _ f

/-! ### CFGP (R133, R134) -/

theorem pullCodeOk_iff {c : Config} {code : BitVec 2} : pullCodeOk c code = true ↔
    code = c.pullCode.none ∨ code = c.pullCode.up ∨ code = c.pullCode.down := by
  simp [pullCodeOk, PullCode.codes]

/-- Format P with the pull code in the low bits of its argument. -/
theorem encode_cfgp (p : Pin) (code : BitVec 2) :
    encode (.cfgp p code) = (0#32 ++ 0x2#4 ++ 0#21 ++ code ++ p : BitVec 64) := by
  have hpieces : (0#32 ++ 0x2#4 ++ 0#20 ++ (0#1 ++ code) : BitVec 59) = 0#32 ++ 0x2#4 ++ 0#21 ++ code := by
    revert code; decide
  exact congrArg (fun high : BitVec 59 => (high ++ p : BitVec 64)) hpieces

/-- Settles O17: wait, read, write and wait are all quiet; any code but the three is refused at acceptance. -/
theorem cfgpReplacesThePullFieldAndSettles : Obligations.CfgpReplacesThePullFieldAndSettles := by
  unfold Obligations.CfgpReplacesThePullFieldAndSettles
  intro s p code hc _ hm x j y a C
  have hcur : encode (.cfgp p code) = C := encode_cfgp p code
  refine ⟨rfl, fun hcode => ?_, fun hcode => ?_⟩
  · have hreg : regAt s.cfg a = some (.pull (p.toNat / 16)) := regAt_pull hc (by omega)
    have h0 : Leads _ _ (underWay C 0 s) := hcur ▸ leads_exec (i := .cfgp p code) hm (pullCodeOk_iff.2 hcode) rfl rfl
    have h1 : Leads _ _ (underWay C 1 { s with settle := 0 }) := h0.wait rfl
    have h2 : Leads _ _ (underWay C 2 { s with settle := 0, tReg := x, hist := s.hist ++ [.rd a x] }) :=
      h1.read hreg rfl rfl rfl
    have h3 : Leads _ _ (underWay C 3 { s with
        settle := s.cfg.settle, tReg := x, pull := s.pull.set (p.toNat / 16) y
        hist := s.hist ++ [.rd a x] ++ [.wr a y] }) :=
      h2.write hreg rfl (fun _ => nofun) rfl (.of_eq rfl)
    obtain ⟨e, d, hnext, he⟩ := (h3.wait rfl).next (s := s) rfl rfl rfl
    refine ⟨e, d, hnext.trans ?_, he⟩
    simp [applyAfter, advance, underWay, hm, pinBit]
  · rw [← hcur]
    exact exec_illegalOperand hm (Bool.eq_false_iff.2 fun h => hcode (pullCodeOk_iff.1 h))

/-- Settles O18: a replaced field reads back, and the bits outside it are kept. -/
theorem cfgpPullCodeRoundTrip : Obligations.CfgpPullCodeRoundTrip := by
  unfold Obligations.CfgpPullCodeRoundTrip
  intro s p code hc hshape hm hcode
  have hlen : p.toNat / 16 < s.pull.length := by rw [(shapeOk_iff.1 hshape).2.1]; omega
  obtain ⟨-, hnext, -⟩ := cfgpReplacesThePullFieldAndSettles s p code hc hshape hm
  obtain ⟨e, d, hexec, -⟩ := hnext (by simpa [PullCode.codes] using hcode)
  refine ⟨_, hexec, ?_, fun r hr => (exec_leavesUntouched hc hexec).1 r hr, fun b hb hout => ?_⟩
  · rw [regAtIndex_set_self _ _ _ hlen]
    exact extract_replaceField _ code _ (by omega)
  · rw [regAtIndex_set_self _ _ _ hlen]
    exact getLsbD_replaceField_outside (w := 2) _ code _ _ (by omega) hb (by omega)

/-! ### CFGP, step by step (R133, R226) -/

/-- A scheduled turn performs micro-operation number `k`, which leaves the described levels alone. -/
theorem stepsQuietlyTo_of_uop {s x : State} {u : Uop} {last : Bool} {k : Nat} {rest : List Move}
    (hm : s.mode = .busy) (hmoves : s.moves = .seq :: rest) (hk : s.ustep = k) (hn : nextUop s = some (u, last))
    (he : uopEnabled u s = true) (hp : perform u.action { s with moves := rest } = .next x)
    (hneed : needOk u.needBit x = true) (hfsel : x.fsel = s.fsel) (hout : x.out = s.out) :
    stepsQuietlyTo s { advance last (applyAfters x u.after) with ustep := k + 1 } := by
  have hstep := (step_of_seq hmoves hm hn he).trans (uopStep_of_perform hp hneed)
  obtain ⟨hcfg, hpad, -⟩ := perform_inputs hp
  obtain ⟨-, hustep, heds⟩ := perform_sequencer hp
  have hcount : (advance last (applyAfters x u.after)).ustep = k + 1 := by simp [hustep, hk]
  rw [← hcount]
  exact stepsQuietlyTo_of_commit hstep ⟨rfl, rfl⟩ (by simp [hfsel]) (by simp [hcfg]) (by simp [hout]) (by simp [hpad])
    (by simp [heds])

/-- Settles O55: a held turn is O42's, every other is `stepsQuietlyTo_of_uop` at its number. -/
theorem cfgpStepsLoadTheTimerAndMarkAfterTheWait : Obligations.CfgpStepsLoadTheTimerAndMarkAfterTheWait := by
  unfold Obligations.CfgpStepsLoadTheTimerAndMarkAfterTheWait
  intro s p code rest hc hm hcur hmoves a x j y
  have hd : decode s.cur = .ok (.cfgp p code) := by rw [hcur, ← encode_cfgp, decode_encode]
  have hreg : regAt s.cfg a = some (.pull (p.toNat / 16)) := regAt_pull hc (by omega)
  have hnext : ∀ k u, (uopsOf s.cfg s.elIn (.cfgp p code))[k]? = some u → s.ustep = k →
      nextUop s = some (u, decide (k + 1 = 4)) := by
    rintro k u hu rfl
    exact nextUop_of_decode hd hu
  refine ⟨fun hk hsettle => ?_, fun hk hsettle => ?_, fun hk => ?_, fun hk => ?_, fun hk hsettle => ?_⟩
  · obtain ⟨u, hu, hact⟩ : ∃ u, (uopsOf s.cfg s.elIn (.cfgp p code))[s.ustep]? = some u ∧
        u.action = .waitSettle := by
      rcases hk with hk | hk <;> rw [hk] <;> exact ⟨_, rfl, rfl⟩
    exact (waitSettleHoldsTheSequencer s _ u hm hd hu hact hsettle).1 rest hmoves
  · have he : uopEnabled { action := .waitSettle } s = true := by simp [uopEnabled, hsettle]
    exact stepsQuietlyTo_of_uop hm hmoves hk (hnext 0 _ rfl hk) he rfl rfl rfl rfl
  · exact stepsQuietlyTo_of_uop hm hmoves hk (hnext 1 _ rfl hk) rfl
      (memRead_stored (s := { s with moves := rest }) hreg rfl) rfl rfl rfl
  · exact stepsQuietlyTo_of_uop hm hmoves hk (hnext 2 _ rfl hk) rfl
      (memWrite_at (s := { s with moves := rest }) y hreg) rfl rfl rfl
  · have he : uopEnabled { action := .waitSettle, after := [.markPdone p.toNat] } s = true := by
      simp [uopEnabled, hsettle]
    exact stepsQuietlyTo_of_uop hm hmoves hk (hnext 3 _ rfl hk) he rfl rfl rfl rfl

end Sys2Proof.Proofs
end

section
/-! PROOFS. The commands on a configured pin: `ENR` and `ENF` arm its detectors, `SET`, `CLR` and `SETG` drive it
(spec/40_gpio_pinmux.md R135 to R140; spec/70_reset_and_hazards.md R229). -/

namespace Sys2Proof.Proofs

open Sys2Proof Sys2Proof.Machine Sys2Proof.Laws

/-! ### ENR, ENF (R135, R136) -/

theorem pinOk_iff {k : Command} {s : State} {p : Nat} (hk : k.needPin = some p) :
    k.pinOk s = true ↔ s.fdone.getLsbD p = true ∧ s.pdone.getLsbD p = true := by
  simp [Command.pinOk, hk, pinReady]

/-- Without both flags of its pin a command that asks for them is refused at acceptance. -/
theorem exec_pinNotConfigured {i : Instr} {s : State} {p : Nat} (hm : s.mode = .idle) (hwf : i.wf s.cfg = true)
    (hk : (commandOf s.cfg s.elIn i).needPin = some p)
    (hflags : s.fdone.getLsbD p = false ∨ s.pdone.getLsbD p = false) :
    exec i s = .fault (.pinNotConfigured (encode i) s) := by
  have hpin : (commandOf s.cfg s.elIn i).pinOk s = false := by
    refine Bool.eq_false_iff.2 fun h => ?_
    obtain ⟨hf, hp⟩ := (pinOk_iff hk).1 h
    rcases hflags with h | h
    · exact absurd (hf.symm.trans h) (by decide)
    · exact absurd (hp.symm.trans h) (by decide)
  rw [exec_eq_runCommand]
  exact runCommand_of_fault (accept_eq_fault.2 ⟨hm, .inr (.inl ⟨(operandsOk_eq_wf ..).trans hwf, hpin, rfl⟩)⟩)

/-- Bits set in a register by wait, read and write, no armed detector seeing `OUT` change. -/
theorem exec_setBits {i : Instr} {s : State} {a : Nat} {r : Reg} {x b : Word} (hm : s.mode = .idle)
    (hwf : i.wf s.cfg = true) (hpin : (commandOf s.cfg s.elIn i).pinOk s = true)
    (hline : (commandOf s.cfg s.elIn i).lineOk s = true)
    (hus : uopsOf s.cfg s.elIn i =
      [{ action := .waitSettle }, { action := .read a }, { action := .write a (.modify 0 b) }])
    (ha : regAt s.cfg a = some r) (hr : ∀ n, r ≠ .fsel n) (hx : stored s r = some x)
    (hout : (regWrite s (x ||| b) r).out = s.out) :
    ∃ e d, exec i s = .next { regWrite s (x ||| b) r with
        tReg := x
        settle := 0
        hist := s.hist ++ [.rd a x, .wr a (x ||| b)]
        cur := encode i
        ustep := 3
        done := true
        eds := e
        levelDraws := d } ∧
      ∀ q < 32, levelKnown s q = true → e.getLsbD q = s.eds.getLsbD q := by
  have h0 := leads_exec hm hwf hpin hline
  rw [hus] at h0
  have h1 : Leads _ _ (underWay (encode i) 1 { s with settle := 0 }) := h0.wait rfl
  have h2 : Leads _ _ (underWay (encode i) 2 { s with settle := 0, tReg := x, hist := s.hist ++ [.rd a x] }) :=
    h1.read ha rfl (by cases r <;> exact hx) rfl
  have h3 := h2.write ha rfl hr (eval_put x b) (.of_eq (by cases r <;> exact hout))
  obtain ⟨e, d, hnext, he⟩ := h3.next (s := s) (by simp [regWrite_fsel_of_ne hr, underWay]) (by simp [underWay])
    (by simp [underWay])
  refine ⟨e, d, hnext.trans ?_, he⟩
  cases r <;> simp [regWrite, advance, underWay, hm]

/-- Settles O19: a bit set in `REN`. -/
theorem enrArmsTheRisingDetector : Obligations.EnrArmsTheRisingDetector := by
  unfold Obligations.EnrArmsTheRisingDetector
  intro s p hc hm C
  exact ⟨rfl, fun hf hp => exec_setBits (i := .enr p) hm rfl ((pinOk_iff rfl).2 ⟨hf, hp⟩) rfl rfl
    (regAt_ren hc) (fun _ => nofun) rfl rfl, exec_pinNotConfigured (i := .enr p) hm rfl rfl⟩

/-- Settles O20: a bit set in `FEN`. -/
theorem enfArmsTheFallingDetector : Obligations.EnfArmsTheFallingDetector := by
  unfold Obligations.EnfArmsTheFallingDetector
  intro s p hc hm C
  exact ⟨rfl, fun hf hp => exec_setBits (i := .enf p) hm rfl ((pinOk_iff rfl).2 ⟨hf, hp⟩) rfl rfl
    (regAt_fen hc) (fun _ => nofun) rfl rfl, exec_pinNotConfigured (i := .enf p) hm rfl rfl⟩

/-! ### SET, CLR (R137, R138, R140) -/

/-- A command of one blind write to `GPSET` or `GPCLR`, whole. -/
theorem exec_outWrite {i : Instr} {s : State} {a : Nat} {r : Reg} {b : Word} (hm : s.mode = .idle)
    (hi : commandOf s.cfg s.elIn i = { operandsOk := true, uops := [{ action := .write a (.const b) }] })
    (ha : regAt s.cfg a = some r) (hr : r = .gpset ∨ r = .gpclr) :
    ∃ e d, exec i s = .next { s with
        out := (regWrite s b r).out
        hist := s.hist ++ [.wr a b]
        cur := encode i
        ustep := 1
        done := true
        eds := e
        levelDraws := d } ∧
      ∀ q < 32, levelKnown s q = true → e.getLsbD q = (s.eds.getLsbD q ||
        (decide (fnCode s q = s.cfg.fselCode.output) && s.cfg.selfEdge.getLsbD q &&
          (s.ren.getLsbD q && (!s.out.getLsbD q && (regWrite s b r).out.getLsbD q) ||
            s.fen.getLsbD q && (s.out.getLsbD q && !(regWrite s b r).out.getLsbD q)))) := by
  have hwf : i.wf s.cfg = true := by rw [← operandsOk_eq_wf s.cfg s.elIn, hi]
  have h0 := leads_exec hm hwf (by rw [hi]; rfl) (by rw [hi]; rfl)
  rw [uopsOf, hi] at h0
  obtain ⟨e, d, hR, he⟩ := h0.uop rfl (memWrite_at b ha) rfl
  refine ⟨e, d, hR.trans ?_, fun q hq hk => (he q hq hk).trans ?_⟩
  · obtain rfl | rfl := hr <;> simp [runUops, withLatch, advance, underWay, regWrite, hm]
  · rw [latchesEdge_of_fsel_pad_eq (u := underWay (encode i) 0 s) hk]
    · obtain rfl | rfl := hr <;> rfl
    all_goals obtain rfl | rfl := hr <;> rfl

/-- Of the described pins only an output at 0 whose rising detector is armed and that feeds it latches. -/
theorem exec_set {s : State} (p : Pin) (hc : s.cfg.wf = true) (hm : s.mode = .idle) :
    ∃ e d, exec (.set p) s = .next { s with
        out := s.out ||| pinBit p.toNat
        hist := s.hist ++ [.wr s.cfg.map.gpset (pinBit p.toNat)]
        cur := encode (.set p)
        ustep := 1
        done := true
        eds := e
        levelDraws := d } ∧
      ∀ q < 32, levelKnown s q = true → e.getLsbD q = (s.eds.getLsbD q ||
        (decide (q = p.toNat) && decide (fnCode s q = s.cfg.fselCode.output) && !s.out.getLsbD q &&
          s.ren.getLsbD q && s.cfg.selfEdge.getLsbD q)) := by
  obtain ⟨e, d, hnext, he⟩ := exec_outWrite (i := .set p) hm rfl (regAt_gpset hc) (.inl rfl)
  refine ⟨e, d, hnext, fun q hq hk => ?_⟩
  rw [he q hq hk, regWrite, BitVec.getLsbD_or, getLsbD_pinBit _ q p.isLt]
  by_cases hqp : q = p.toNat <;> cases s.out.getLsbD q <;> simp [hqp, Bool.and_comm, Bool.and_left_comm]

/-- Settles O21: `exec_set` twice, the second time from a state in which the pin is 1 already. -/
theorem setRaisesTheOutputBit : Obligations.SetRaisesTheOutputBit := by
  unfold Obligations.SetRaisesTheOutputBit
  intro s p hc hm
  obtain ⟨e, d, hfirst, he⟩ := exec_set p hc hm
  obtain ⟨e', d', hsecond, he'⟩ := exec_set (s := { s with
    out := s.out ||| pinBit p.toNat
    hist := s.hist ++ [.wr s.cfg.map.gpset (pinBit p.toNat)]
    cur := encode (.set p)
    ustep := 1
    done := true
    eds := e
    levelDraws := d }) p hc hm
  rw [BitVec.or_assoc, BitVec.or_self] at hsecond
  refine ⟨rfl, e, d, e', d', hfirst, hsecond, fun q hq hk => ⟨he q hq hk, (he' q hq hk).trans ?_⟩⟩
  rw [BitVec.getLsbD_or, getLsbD_pinBit _ q p.isLt]
  by_cases hqp : q = p.toNat <;> simp [hqp]

/-- Settles O22: the blind write to `GPCLR` changes `OUT` at the pin only. -/
theorem clrLowersTheOutputBit : Obligations.ClrLowersTheOutputBit := by
  unfold Obligations.ClrLowersTheOutputBit
  intro s p hc hm
  obtain ⟨e, d, hnext, he⟩ := exec_outWrite (i := .clr p) hm rfl (regAt_gpclr hc) (.inr rfl)
  refine ⟨rfl, e, d, hnext, fun q hq hk => ?_⟩
  rw [he q hq hk, regWrite, BitVec.getLsbD_and, BitVec.getLsbD_not, getLsbD_pinBit _ q p.isLt]
  by_cases hqp : q = p.toNat <;> cases s.out.getLsbD q <;> simp [hqp, hq, Bool.and_comm, Bool.and_left_comm]

/-- Settles O24: `CFGF` leaves the configuration and completes in `Idle`; then each command is one blind write. -/
theorem setThenClearRecordsTwoWrites : Obligations.SetThenClearRecordsTwoWrites := by
  unfold Obligations.SetThenClearRecordsTwoWrites
  intro s t hc hshape hm ht
  have hpres : t.cfg = s.cfg ∧ t.mode = .idle := by
    obtain ⟨-, e, d, hexec, -⟩ := cfgfReplacesTheFunctionField s 4 s.cfg.fselCode.output hc hshape hm
    cases hexec.symm.trans ht
    exact ⟨rfl, hm⟩
  obtain ⟨hcfg, hmt⟩ := hpres
  rw [← hcfg] at hc
  obtain ⟨t1, h1, hcfg1, hm1, -, hhist1⟩ := exec_of_blindWrite (i := .set 4) rfl hmt (regAt_gpset hc)
  rw [← hcfg1] at hc
  obtain ⟨t2, h2, -, -, -, hhist2⟩ := exec_of_blindWrite (i := .clr 4) rfl hm1 (regAt_gpclr hc)
  refine ⟨t1, t2, h1, h2, ?_⟩
  rw [hhist2, hhist1, hcfg1, List.append_assoc]
  rfl

/-! ### SETG (R139) -/

/-- A set bit that is cleared and set again is as before. -/
theorem clear_or_pinBit {w : Word} {p : Nat} (hp : p < 32) (h : w.getLsbD p = true) :
    (w &&& ~~~pinBit p) ||| pinBit p = w := by
  apply BitVec.eq_of_getLsbD_eq
  intro q hq
  rw [getLsbD_replaceField, getLsbD_pinBit p q hp]
  by_cases hqp : q = p
  · simp [hqp, h]
  · simp [hqp, hq]

/-- With its rising detector off, a pin may rise. -/
theorem noArmedChange_pinBit {u : State} {p : Nat} (hp : p < 32) (h : u.ren.getLsbD p = false) :
    NoArmedChange u (u.out ||| pinBit p) := by
  intro q _
  rw [BitVec.getLsbD_or, getLsbD_pinBit p q hp]
  by_cases hqp : q = p
  · simp [hqp, h]
  · cases u.out.getLsbD q <;> simp [hqp]

/-- Settles O23: the write to `GPSET` falls between the two writes of `REN`, where the pin's rising detector is off. -/
theorem setgSetsTheOutputWithoutAnEdge : Obligations.SetgSetsTheOutputWithoutAnEdge := by
  unfold Obligations.SetgSetsTheOutputWithoutAnEdge
  intro s p hc hm C b a
  refine ⟨rfl, exec_pinNotConfigured (i := .setg p) hm rfl rfl, fun hf hp => ?_⟩
  have hren : regAt s.cfg a = some .ren := regAt_ren hc
  have h0 := leads_exec (i := .setg p) hm rfl ((pinOk_iff rfl).2 ⟨hf, hp⟩) rfl
  have h1 : Leads _ _ (underWay C 1 { s with settle := 0 }) := h0.wait rfl
  refine ⟨fun harmed => ?_, fun hunarmed => ?_⟩
  · have hoff : (s.ren &&& ~~~b).getLsbD p.toNat = false := by
      rw [BitVec.getLsbD_and, BitVec.getLsbD_not, show b.getLsbD p.toNat = _ from getLsbD_pinBit _ _ p.isLt]
      simp
    have h2 : Leads _ _ (underWay C 2 { s with settle := 0, tReg := s.ren, hist := s.hist ++ [.rd a s.ren] }) :=
      h1.read hren rfl rfl harmed
    have h3 : Leads _ _ (underWay C 3 { s with
        settle := 0, tReg := s.ren, ren := s.ren &&& ~~~b
        hist := s.hist ++ [.rd a s.ren] ++ [.wr a (s.ren &&& ~~~b)] }) :=
      h2.write hren rfl (fun _ => nofun) (eval_clear ..) (.of_eq rfl)
    have h4 : Leads _ _ (underWay C 4 { s with
        settle := 0, tReg := s.ren, ren := s.ren &&& ~~~b, out := s.out ||| b
        hist := s.hist ++ [.rd a s.ren] ++ [.wr a (s.ren &&& ~~~b)] ++ [.wr s.cfg.map.gpset b] }) :=
      h3.write (regAt_gpset hc) rfl (fun _ => nofun) rfl (noArmedChange_pinBit p.isLt hoff)
    have h5 : Leads _ _ (underWay C 5 { s with
        settle := 0, tReg := s.ren &&& ~~~b, ren := s.ren &&& ~~~b, out := s.out ||| b
        hist := s.hist ++ [.rd a s.ren] ++ [.wr a (s.ren &&& ~~~b)] ++ [.wr s.cfg.map.gpset b] ++
          [.rd a (s.ren &&& ~~~b)] }) :=
      h4.read hren rfl rfl rfl
    have h6 := h5.write hren rfl (fun _ => nofun) ((eval_put ..).trans (clear_or_pinBit p.isLt harmed)) (.of_eq rfl)
    obtain ⟨e, d, hnext, he⟩ := h6.next (s := s) rfl rfl rfl
    refine ⟨e, d, hnext.trans ?_, he⟩
    simp [regWrite, advance, underWay, hm, a]
  · obtain ⟨e, d, hR, he⟩ := h1
    exact ⟨e, d, hR.trans (runUops_unarmed hren rfl rfl hunarmed), he⟩

end Sys2Proof.Proofs
end

section
/-! PROOFS. Commands that go through consecutive registers of an array, each written whole or in part: `PRI0` and `TGT`
(spec/41_gic_distributor.md R161 to R164) and `SNS` (R166). What such a pass has done so far is plain data; that the
machine does it is one lemma per register, and what it amounts to is a separate induction over the registers. -/

namespace Sys2Proof.Proofs

open Sys2Proof Sys2Proof.Machine Sys2Proof.Laws

/-! ### The arrays -/

/-- The arrays that are written over a range, each with one tracking flag per line. -/
inductive LineArray where
  | pri
  | tgt
  | sense

namespace LineArray

/-- The address of register `w` of the array. -/
def addr (c : Config) (w : Nat) : LineArray → Nat
  | pri => aPriw c w
  | tgt => aTgtw c w
  | sense => aSense c w

/-- The number of registers of the array. -/
def count (c : Config) : LineArray → Nat
  | pri => c.nline / 4
  | tgt => c.nline / 4
  | sense => c.nline / 16

/-- Register `w` of the array. -/
def reg (w : Nat) : LineArray → Reg
  | pri => .priw w
  | tgt => .tgtw w
  | sense => .sense w

/-- The registers' contents. -/
def words (s : State) : LineArray → List Word
  | pri => s.priw
  | tgt => s.tgtw
  | sense => s.sense

/-- The tracking flags of the array. -/
def flags (s : State) : LineArray → LineSet
  | pri => s.lp
  | tgt => s.lt
  | sense => s.ls

/-- The effect that sets tracking flags of the array. -/
def mark : LineArray → Nat → Nat → After
  | pri => .markLp
  | tgt => .markLt
  | sense => .markLs

/-- `s` with the contents `ws` and the flags `fl`. -/
def put (ws : List Word) (fl : LineSet) (s : State) : LineArray → State
  | pri => { s with priw := ws, lp := fl }
  | tgt => { s with tgtw := ws, lt := fl }
  | sense => { s with sense := ws, ls := fl }

theorem regAt_addr {c : Config} (hc : c.wf = true) {k : LineArray} {w : Nat} (hw : w < k.count c) :
    regAt c (k.addr c w) = some (k.reg w) := by
  cases k with
  | pri => exact regAt_priw hc hw
  | tgt => exact regAt_tgtw hc hw
  | sense => exact regAt_sense hc hw

theorem reg_ne_fsel (k : LineArray) (w n : Nat) : k.reg w ≠ .fsel n := by
  cases k <;> exact nofun

end LineArray

/-! ### One pass: its micro-operations and what they do -/

/-- A pass over registers of an array: under `mask w` register `w` takes the bits of `val`, and the lines `lo w` to
`hi w` are marked. -/
structure Pass where
  addr : Nat → Nat
  mask : Nat → Word
  val : Word
  lo : Nat → Nat
  hi : Nat → Nat

/-- What a pass has done so far: the array, `T`, the events and the flags. -/
structure Progress where
  words : List Word
  temp : Word
  events : List Event
  flags : LineSet

namespace Pass

/-- The micro-operations for register `w`: a blind write of the whole register, or a read and a write. -/
def uops (p : Pass) (mark : Nat → Nat → After) (w : Nat) : List Uop :=
  let marks := [mark (p.lo w) (p.hi w)]
  if p.mask w = BitVec.allOnes 32 then
    [{ action := .write (p.addr w) (.const p.val), after := marks }]
  else
    [{ action := .read (p.addr w) },
     { action := .write (p.addr w) (.modify (p.mask w) (p.val &&& p.mask w)), after := marks }]

/-- What register `w` holds afterwards when it held `x`. -/
def value (p : Pass) (w : Nat) (x : Word) : Word := (x &&& ~~~p.mask w) ||| (p.val &&& p.mask w)

/-- The accesses to register `w` when it holds `x`. -/
def events (p : Pass) (w : Nat) (x : Word) : List Event :=
  if p.mask w = BitVec.allOnes 32 then [.wr (p.addr w) (p.value w x)]
  else [.rd (p.addr w) x, .wr (p.addr w) (p.value w x)]

/-- Register `w` has its turn. -/
def turn (p : Pass) (g : Progress) (w : Nat) : Progress :=
  let x := regAtIndex g.words w
  { words := g.words.set w (p.value w x)
    temp := if p.mask w = BitVec.allOnes 32 then g.temp else x
    events := g.events ++ p.events w x
    flags := g.flags ||| lineSpan (p.lo w) (p.hi w) }

/-- The registers `a` to `a + n - 1` have their turns, in ascending order. -/
def turns (p : Pass) (a n : Nat) (g : Progress) : Progress := (List.range' a n).foldl p.turn g

theorem value_of_full {p : Pass} {w : Nat} (h : p.mask w = BitVec.allOnes 32) (x : Word) : p.value w x = p.val := by
  rw [value, h, BitVec.and_allOnes, BitVec.not_allOnes]
  simp

theorem turn_of_full {p : Pass} {w : Nat} (h : p.mask w = BitVec.allOnes 32) (g : Progress) :
    p.turn g w = { g with
      words := g.words.set w p.val
      events := g.events ++ [.wr (p.addr w) p.val]
      flags := g.flags ||| lineSpan (p.lo w) (p.hi w) } := by
  rw [turn, events, if_pos h, if_pos h, value_of_full h]

theorem turn_of_not_full {p : Pass} {w : Nat} (h : p.mask w ≠ BitVec.allOnes 32) (g : Progress) :
    p.turn g w = { g with
      words := g.words.set w (p.value w (regAtIndex g.words w))
      temp := regAtIndex g.words w
      events := g.events ++ [.rd (p.addr w) (regAtIndex g.words w)] ++
        [.wr (p.addr w) (p.value w (regAtIndex g.words w))]
      flags := g.flags ||| lineSpan (p.lo w) (p.hi w) } := by
  rw [turn, events, if_neg h, if_neg h, List.append_assoc]
  rfl

end Pass

/-! ### The machine makes the pass -/

/-- What the pass over array `k` finds in `s`. -/
def LineArray.start (k : LineArray) (s : State) : Progress where
  words := k.words s
  temp := s.tReg
  events := []
  flags := k.flags s

/-- `s` with the command of descriptor `C` under way, its pass at `g` and `us` left to do. Each micro-operation is one
access, so their number is that of the events. -/
def LineArray.standing (k : LineArray) (C : Descriptor) (s : State) (us : List Uop) (g : Progress) : State :=
  { k.put g.words g.flags s with
    tReg := g.temp
    hist := s.hist ++ g.events
    cur := C
    ustep := g.events.length
    mode := if us.isEmpty then .idle else .busy
    done := us.isEmpty }

section Machine

variable {R : Result} {C : Descriptor} {s : State} {us : List Uop} {g : Progress} {k : LineArray} {w : Nat}

theorem Leads.readArray (hc : s.cfg.wf = true) (hw : w < k.count s.cfg)
    (h : Leads R ({ action := .read (k.addr s.cfg w) } :: us)
      (k.standing C s ({ action := .read (k.addr s.cfg w) } :: us) g)) :
    Leads R us (k.standing C s us { g with
      temp := regAtIndex g.words w
      events := g.events ++ [.rd (k.addr s.cfg w) (regAtIndex g.words w)] }) := by
  have hnext := h.read (LineArray.regAt_addr hc hw) (by cases k <;> rfl) (x := regAtIndex g.words w)
    (by cases k <;> rfl) rfl
  cases k <;> simpa [LineArray.standing, LineArray.put, advance] using hnext

theorem Leads.writeArray {v : WriteValue} {y : Word} {lo hi : Nat} (hc : s.cfg.wf = true) (hw : w < k.count s.cfg)
    (hy : v.eval g.temp = y)
    (h : Leads R ({ action := .write (k.addr s.cfg w) v, after := [k.mark lo hi] } :: us)
      (k.standing C s ({ action := .write (k.addr s.cfg w) v, after := [k.mark lo hi] } :: us) g)) :
    Leads R us (k.standing C s us { g with
      words := g.words.set w y
      events := g.events ++ [.wr (k.addr s.cfg w) y]
      flags := g.flags ||| lineSpan lo hi }) := by
  have hnext := h.write (LineArray.regAt_addr hc hw) (by cases k <;> rfl) (k.reg_ne_fsel w) hy
    (.of_eq (by cases k <;> rfl))
  cases k <;> simpa [LineArray.standing, LineArray.put, LineArray.reg, LineArray.mark, regWrite, applyAfter, advance]
    using hnext

/-- The micro-operations for one register give it its turn. -/
theorem Leads.turn {p : Pass} (hc : s.cfg.wf = true) (hp : p.addr w = k.addr s.cfg w) (hw : w < k.count s.cfg)
    (h : Leads R (p.uops k.mark w ++ us) (k.standing C s (p.uops k.mark w ++ us) g)) :
    Leads R us (k.standing C s us (p.turn g w)) := by
  by_cases hfull : p.mask w = BitVec.allOnes 32
  · rw [Pass.uops, if_pos hfull, hp] at h
    rw [Pass.turn_of_full hfull, hp]
    exact h.writeArray hc hw rfl
  · rw [Pass.uops, if_neg hfull, hp] at h
    rw [Pass.turn_of_not_full hfull, hp]
    exact (Leads.readArray hc hw h).writeArray hc hw rfl

/-- So do those for consecutive registers, one after another. -/
theorem Leads.turns {p : Pass} {a n : Nat} (hc : s.cfg.wf = true) (hp : ∀ w, p.addr w = k.addr s.cfg w)
    (hn : a + n ≤ k.count s.cfg)
    (h : Leads R ((List.range' a n).flatMap (p.uops k.mark))
      (k.standing C s ((List.range' a n).flatMap (p.uops k.mark)) g)) :
    Leads R [] (k.standing C s [] (p.turns a n g)) := by
  induction n generalizing a g with
  | zero => exact h
  | succ n ih =>
    simp only [List.range'_succ, List.flatMap_cons] at h
    rw [Pass.turns, List.range'_succ, List.foldl_cons]
    exact ih (by omega) (Leads.turn hc (hp a) (by omega) h)

end Machine

/-- The command `i` completes in `t`, up to the draw counter and the edge latch, and the latch of every pin of described
level is as it was. -/
def completesQuietlyTo (i : Instr) (s t : State) : Prop :=
  ∃ e d, exec i s = .next { t with eds := e, levelDraws := d } ∧
    ∀ q < 32, levelKnown s q = true → e.getLsbD q = s.eds.getLsbD q

/-- A command whose expansion is a pass, whole. -/
theorem exec_pass {i : Instr} {s : State} {k : LineArray} {p : Pass} {a n : Nat} (hc : s.cfg.wf = true)
    (hm : s.mode = .idle) (hwf : i.wf s.cfg = true) (hpin : (commandOf s.cfg s.elIn i).pinOk s = true)
    (hline : (commandOf s.cfg s.elIn i).lineOk s = true)
    (hus : uopsOf s.cfg s.elIn i = (List.range' a n).flatMap (p.uops k.mark))
    (hp : ∀ w, p.addr w = k.addr s.cfg w) (hn : a + n ≤ k.count s.cfg) :
    completesQuietlyTo i s (k.standing (encode i) s [] (p.turns a n (k.start s))) := by
  have h0 := leads_exec hm hwf hpin hline
  rw [hus] at h0
  have hne : ((List.range' a n).flatMap (p.uops k.mark)).isEmpty = false := by
    simpa [← hus] using uopsOf_ne_nil s.elIn hwf
  have hstart : underWay (encode i) 0 s =
      k.standing (encode i) s ((List.range' a n).flatMap (p.uops k.mark)) (k.start s) := by
    cases k <;> simp [underWay, LineArray.standing, LineArray.start, LineArray.put, LineArray.words, LineArray.flags,
      hne]
  rw [hstart] at h0
  exact (h0.turns hc hp hn).next (by cases k <;> rfl) (by cases k <;> rfl) (by cases k <;> rfl)

/-! ### What a pass amounts to -/

namespace Pass

variable (p : Pass) (a : Nat) (g : Progress)

theorem turns_succ (n : Nat) : p.turns a (n + 1) g = p.turn (p.turns a n g) (a + n) := by
  rw [turns, List.range'_1_concat, List.foldl_append]
  rfl

@[simp] theorem turns_length (n : Nat) : (p.turns a n g).words.length = g.words.length := by
  induction n with
  | zero => rfl
  | succ n ih => rw [turns_succ, turn, List.length_set, ih]

/-- Each register in turn holds its value, every other what it held. -/
theorem turns_word {n : Nat} (hn : a + n ≤ g.words.length) (w : Nat) :
    regAtIndex (p.turns a n g).words w =
      if a ≤ w ∧ w < a + n then p.value w (regAtIndex g.words w) else regAtIndex g.words w := by
  induction n with
  | zero => rw [if_neg (by omega)]; rfl
  | succ n ih =>
    have ih := ih (by omega)
    rw [turns_succ, turn]
    by_cases hw : w = a + n
    · subst hw
      rw [regAtIndex_set_self _ _ _ (by rw [turns_length]; omega), ih, if_neg (by omega), if_pos (by omega)]
    · rw [regAtIndex_set_ne _ _ _ _ hw, ih]
      exact if_congr (by omega) rfl rfl

/-- The accesses to each register see what it held before the pass. -/
theorem turns_events {n : Nat} (hn : a + n ≤ g.words.length) :
    (p.turns a n g).events =
      g.events ++ (List.range' a n).flatMap fun w => p.events w (regAtIndex g.words w) := by
  induction n with
  | zero => exact (List.append_nil _).symm
  | succ n ih =>
    rw [turns_succ, turn, ih (by omega), p.turns_word a g (by omega), if_neg (by omega), List.range'_1_concat]
    simp

/-- The lines of every register in turn are marked. -/
theorem turns_flags {n m : Nat} (hm : m < 1024) (hhi : ∀ w < a + n, p.hi w < 1024) :
    (p.turns a n g).flags.getLsbD m = (g.flags.getLsbD m ||
      (List.range' a n).any fun w => decide (p.lo w ≤ m) && decide (m ≤ p.hi w)) := by
  induction n with
  | zero => simp [turns]
  | succ n ih =>
    rw [turns_succ, turn, BitVec.getLsbD_or, ih fun w hw => hhi w (by omega),
      getLsbD_lineSpan _ _ _ (hhi _ (by omega)) hm,
      List.range'_1_concat, List.any_append, Bool.or_assoc]
    simp

end Pass

end Sys2Proof.Proofs
end

section
/-! PROOFS. `PRI0` and `TGT`: a pass over the words of a byte array (spec/41_gic_distributor.md R161 to R164). -/

namespace Sys2Proof.Proofs

open Sys2Proof Sys2Proof.Machine Sys2Proof.Laws

/-! ### `RangeWrite` (R162) as a pass -/

/-- The pass of `RangeWrite` for the lines `f` to `l`. -/
def rangePass (k : LineArray) (c : Config) (f l : Nat) (v : Word) : Pass where
  addr w := k.addr c w
  mask := laneMask f l
  val := v
  lo w := max f (4 * w)
  hi w := min l (4 * w + 3)

/-- What the pass of `RangeWrite` has done when it is through its words. -/
def rangeDone (k : LineArray) (s : State) (f l : Nat) (v : Word) : Progress :=
  (rangePass k s.cfg f l v).turns (f / 4) (l / 4 + 1 - f / 4) (k.start s)

section Range

variable {k : LineArray} {s : State} {f l : Nat} {v : Word}

@[simp] theorem rangeDone_length : (rangeDone k s f l v).words.length = (k.words s).length := Pass.turns_length ..

theorem rangeDone_byte {b : BitVec 8} (hle : f ≤ l) (hlen : l / 4 < (k.words s).length)
    (hv : ∀ i < 4, byteLane v i = b) (m : Nat) :
    byteLane (regAtIndex (rangeDone k s f l v).words (m / 4)) (m % 4) =
      if f ≤ m ∧ m ≤ l then b else byteLane (regAtIndex (k.words s) (m / 4)) (m % 4) := by
  have hlane := byteLane_merge (regAtIndex (k.words s) (m / 4)) v f l (m / 4) (m % 4) (by omega)
  rw [Nat.div_add_mod, hv _ (by omega)] at hlane
  rw [rangeDone, Pass.turns_word _ _ _ (show _ ≤ (k.words s).length by omega)]
  by_cases hw : f / 4 ≤ m / 4 ∧ m / 4 < f / 4 + (l / 4 + 1 - f / 4)
  · rw [if_pos hw]
    exact hlane
  · rw [if_neg hw, if_neg (by omega)]
    rfl

theorem rangeDone_flags {m : Nat} (hm : m < 1024) (hl : l < 1024) :
    (rangeDone k s f l v).flags.getLsbD m = ((k.flags s).getLsbD m || (decide (f ≤ m) && decide (m ≤ l))) := by
  rw [rangeDone, Pass.turns_flags _ _ _ hm fun w _ => show min l (4 * w + 3) < 1024 by omega]
  congr 1
  rw [Bool.eq_iff_iff, List.any_eq_true]
  simp only [Bool.and_eq_true, decide_eq_true_eq, List.mem_range'_1]
  constructor
  · rintro ⟨w, -, hlo, hhi⟩
    exact ⟨(le_max_left ..).trans hlo, hhi.trans (min_le_left ..)⟩
  · rintro ⟨hf, hl⟩
    exact ⟨m / 4, by omega, show max f _ ≤ m by omega, show m ≤ min l _ by omega⟩

theorem rangeDone_events (hle : f ≤ l) (hlen : l / 4 < (k.words s).length) :
    (rangeDone k s f l v).events = (List.range' (f / 4) (l / 4 + 1 - f / 4)).flatMap fun w =>
      if f ≤ 4 * w ∧ 4 * w + 3 ≤ l then [.wr (k.addr s.cfg w) (regAtIndex (rangeDone k s f l v).words w)]
      else [.rd (k.addr s.cfg w) (regAtIndex (k.words s) w),
        .wr (k.addr s.cfg w) (regAtIndex (rangeDone k s f l v).words w)] := by
  have hwords : f / 4 + (l / 4 + 1 - f / 4) ≤ (k.words s).length := by omega
  rw [rangeDone, Pass.turns_events _ _ _ hwords]
  refine List.flatMap_congr fun w hw => ?_
  rw [Pass.turns_word _ _ _ hwords, if_pos (List.mem_range'_1.1 hw)]
  exact if_congr (laneMask_eq_allOnes f l w) rfl rfl

/-- The word whose turn comes next is read unless it is wholly inside the range. -/
theorem rangeTurns_temp_succ (hlen : l / 4 < (k.words s).length) {n : Nat} (hn : f / 4 + n ≤ l / 4) :
    ((rangePass k s.cfg f l v).turns (f / 4) (n + 1) (k.start s)).temp =
      if f ≤ 4 * (f / 4 + n) ∧ 4 * (f / 4 + n) + 3 ≤ l then
        ((rangePass k s.cfg f l v).turns (f / 4) n (k.start s)).temp
      else regAtIndex (k.words s) (f / 4 + n) := by
  have hword := (rangePass k s.cfg f l v).turns_word (f / 4) (k.start s) (n := n)
    (show _ ≤ (k.words s).length by omega) (f / 4 + n)
  rw [if_neg (by omega)] at hword
  rw [Pass.turns_succ, Pass.turn, hword]
  exact if_congr (laneMask_eq_allOnes f l _) rfl rfl

/-- Of the words in turn so far the first is partly covered when `f` is not its lowest line, the last word of the range
when `l` is not its highest, and no other. -/
theorem rangeTurns_temp (hle : f ≤ l) (hlen : l / 4 < (k.words s).length) {n : Nat} (hn : f / 4 + n ≤ l / 4) :
    ((rangePass k s.cfg f l v).turns (f / 4) (n + 1) (k.start s)).temp =
      if f / 4 + n = l / 4 ∧ l % 4 ≠ 3 then regAtIndex (k.words s) (l / 4)
      else if f % 4 ≠ 0 then regAtIndex (k.words s) (f / 4) else s.tReg := by
  rw [rangeTurns_temp_succ hlen hn]
  by_cases hlast : f / 4 + n = l / 4 ∧ l % 4 ≠ 3
  · rw [if_neg (by omega), if_pos hlast, hlast.1]
  rw [if_neg hlast]
  induction n with
  | zero =>
    by_cases hf : f % 4 ≠ 0
    · rw [if_neg (by omega), if_pos hf, Nat.add_zero]
    · rw [if_pos (by omega), if_neg hf]
      rfl
  | succ n ih =>
    rw [if_pos (by omega), rangeTurns_temp_succ hlen (by omega)]
    exact ih (by omega) (by omega)

theorem rangeDone_temp (hle : f ≤ l) (hlen : l / 4 < (k.words s).length) :
    (rangeDone k s f l v).temp = if l % 4 ≠ 3 then regAtIndex (k.words s) (l / 4)
      else if f % 4 ≠ 0 then regAtIndex (k.words s) (f / 4) else s.tReg := by
  obtain ⟨n, hn⟩ : ∃ n, l / 4 = f / 4 + n := Nat.exists_eq_add_of_le (by omega)
  rw [rangeDone, show l / 4 + 1 - f / 4 = n + 1 by omega, rangeTurns_temp hle hlen (by omega)]
  exact if_congr (and_iff_right hn.symm) rfl rfl

end Range

/-! ### The commands -/

/-- Under a legal configuration a line's number has 10 bits, and its word is one of the array. -/
theorem line_bounds {c : Config} {l : Nat} (hc : c.wf = true) (hl : l < c.nline) : l < 1024 ∧ l / 4 < c.nline / 4 := by
  obtain ⟨-, h32, -, hle, -⟩ := wf_parts hc
  omega

section Exec

variable {s : State} {first last : BitVec 10} (hc : s.cfg.wf = true) (hm : s.mode = .idle)
  (hle : first.toNat ≤ last.toNat) (hl : last.toNat < s.cfg.nline)
include hc hm hle hl

theorem exec_pri0 : completesQuietlyTo (.pri0 first last) s
    (LineArray.pri.standing (encode (.pri0 first last)) s [] (rangeDone .pri s first.toNat last.toNat 0)) := by
  have hl4 := (line_bounds hc hl).2
  exact exec_pass (k := .pri) (p := rangePass .pri s.cfg _ _ 0) hc hm (lineRangeOk_iff.2 ⟨hle, hl⟩) rfl rfl rfl
    (fun _ => rfl) (show _ ≤ s.cfg.nline / 4 by omega)

theorem exec_tgt (mask : BitVec 8) : completesQuietlyTo (.tgt first last mask) s
    (LineArray.tgt.standing (encode (.tgt first last mask)) s []
      (rangeDone .tgt s first.toNat last.toNat (rep4 mask))) := by
  have hl4 := (line_bounds hc hl).2
  exact exec_pass (k := .tgt) (p := rangePass .tgt s.cfg _ _ (rep4 mask)) hc hm (lineRangeOk_iff.2 ⟨hle, hl⟩) rfl rfl
    rfl (fun _ => rfl) (show _ ≤ s.cfg.nline / 4 by omega)

end Exec

/-- Settles O26: `PRI0` is the pass with the word 0. -/
theorem pri0ClearsTheRangesPriorities : Obligations.Pri0ClearsTheRangesPriorities := by
  unfold Obligations.Pri0ClearsTheRangesPriorities
  intro s first last hc hshape hm f l C
  refine ⟨fun hrange => exec_illegalOperand (i := .pri0 first last) hm
    (Bool.eq_false_iff.2 fun h => hrange (lineRangeOk_iff.1 h)), fun hle hl => ?_⟩
  obtain ⟨e, d, hexec, he⟩ := exec_pri0 hc hm hle hl
  obtain ⟨hl1024, hl4⟩ := line_bounds hc hl
  obtain ⟨-, -, hlen, -⟩ := shapeOk_iff.1 hshape
  rw [← hlen] at hl4
  let g := rangeDone .pri s f l 0
  refine ⟨g.words, g.temp, g.events, g.flags, g.events.length, e, d, hexec.trans ?_, rangeDone_length,
    fun m _ => rangeDone_byte (k := .pri) hle hl4 (fun i _ => byteLane_zero i) m,
    fun m hm => rangeDone_flags hm hl1024, rangeDone_events hle hl4, rangeDone_temp hle hl4, rfl, he⟩
  simp [LineArray.standing, LineArray.put, hm, g, f, l, encode, encodeL, C]

/-- Settles O27: `TGT` is the pass with the mask in each lane. -/
theorem tgtWritesTheRangesTargets : Obligations.TgtWritesTheRangesTargets := by
  unfold Obligations.TgtWritesTheRangesTargets
  intro s first last mask hc hshape hm f l C
  refine ⟨fun hrange => exec_illegalOperand (i := .tgt first last mask) hm
    (Bool.eq_false_iff.2 fun h => hrange (lineRangeOk_iff.1 h)), fun hle hl => ?_⟩
  obtain ⟨e, d, hexec, he⟩ := exec_tgt hc hm hle hl mask
  obtain ⟨hl1024, hl4⟩ := line_bounds hc hl
  obtain ⟨-, -, -, hlen, -⟩ := shapeOk_iff.1 hshape
  rw [← hlen] at hl4
  let g := rangeDone .tgt s f l (rep4 mask)
  refine ⟨g.words, g.temp, g.events, g.flags, g.events.length, e, d, hexec.trans ?_, rangeDone_length,
    fun m _ => rangeDone_byte (k := .tgt) hle hl4 (byteLane_rep4 mask) m,
    fun m hm => rangeDone_flags hm hl1024, rangeDone_events hle hl4, rangeDone_temp hle hl4, rfl, he⟩
  simp [LineArray.standing, LineArray.put, hm, g, f, l, encode, encodeL, C]

/-- Settles O28: the bytes are those of O26 and O27, and a command leaves alone what it does not touch. -/
theorem rangeCommandsLeaveOtherLinesAlone : Obligations.RangeCommandsLeaveOtherLinesAlone := by
  unfold Obligations.RangeCommandsLeaveOtherLinesAlone
  intro s first last mask hc hshape hm hle hl
  constructor
  · obtain ⟨pw, tr, h, fl, n, e, d, hexec, -, hbyte, -⟩ :=
      (pri0ClearsTheRangesPriorities s first last hc hshape hm).2 hle hl
    exact ⟨_, hexec, hbyte, fun r hr => (exec_leavesUntouched hc hexec).1 r (not_exists.2 hr)⟩
  · obtain ⟨tw, tr, h, fl, n, e, d, hexec, -, hbyte, -⟩ :=
      (tgtWritesTheRangesTargets s first last mask hc hshape hm).2 hle hl
    exact ⟨_, hexec, hbyte, fun r hr => (exec_leavesUntouched hc hexec).1 r (not_exists.2 hr)⟩

end Sys2Proof.Proofs
end

section
/-! PROOFS. `SNS`, `ENL` and `FWD`, and what every distributor command leaves alone (spec/41_gic_distributor.md R160, R166
to R172). -/

namespace Sys2Proof.Proofs

open Sys2Proof Sys2Proof.Machine Sys2Proof.Laws

/-! ### SNS (R166) -/

/-- The pass of `SNS`: whole registers, 16 lines each. -/
def sensePass (c : Config) (pattern : Word) : Pass where
  addr w := LineArray.sense.addr c w
  mask _ := BitVec.allOnes 32
  val := pattern
  lo r := 16 * r
  hi r := 16 * r + 15

/-- What the pass of `SNS` has done when it is through the registers `f` to `l`. -/
def senseDone (s : State) (f l : Nat) (pattern : Word) : Progress :=
  (sensePass s.cfg pattern).turns f (l + 1 - f) (LineArray.sense.start s)

section Sense

variable {s : State} {f l : Nat} {pattern : Word}

@[simp] theorem sensePass_value (c : Config) (w : Nat) (x : Word) : (sensePass c pattern).value w x = pattern :=
  Pass.value_of_full rfl x

@[simp] theorem sensePass_events (c : Config) (w : Nat) (x : Word) :
    (sensePass c pattern).events w x = [.wr (aSense c w) pattern] := by
  have hfull : (sensePass c pattern).mask w = BitVec.allOnes 32 := rfl
  rw [Pass.events, if_pos hfull, sensePass_value]
  rfl

theorem uopsOf_sns (c : Config) (el : BitVec 2) (rfirst rlast : BitVec 6) :
    uopsOf c el (.sns rfirst rlast pattern) = (List.range' rfirst.toNat (rlast.toNat + 1 - rfirst.toNat)).flatMap
      ((sensePass c pattern).uops LineArray.sense.mark) :=
  List.map_eq_flatMap

theorem senseDone_word (hle : f ≤ l) (hl : l < s.sense.length) (r : Nat) :
    regAtIndex (senseDone s f l pattern).words r = if f ≤ r ∧ r ≤ l then pattern else regAtIndex s.sense r := by
  rw [senseDone, Pass.turns_word _ _ _ (show _ ≤ s.sense.length by omega), sensePass_value]
  exact if_congr (by omega) rfl rfl

theorem senseDone_events (hle : f ≤ l) (hl : l < s.sense.length) :
    (senseDone s f l pattern).events =
      (List.range' f (l - f + 1)).map fun r => .wr (s.cfg.map.sense0 + 4 * r) pattern := by
  rw [senseDone, Pass.turns_events _ _ _ (show _ ≤ s.sense.length by omega), Nat.sub_add_comm hle]
  simp only [sensePass_events]
  exact List.map_eq_flatMap.symm

theorem senseDone_temp : (senseDone s f l pattern).temp = s.tReg := by
  rw [senseDone]
  induction l + 1 - f with
  | zero => rfl
  | succ n ih => rw [Pass.turns_succ, Pass.turn_of_full rfl, ih]

theorem senseDone_flags {m : Nat} (hle : f ≤ l) (hl : l < 64) (hm : m < 1024) :
    (senseDone s f l pattern).flags.getLsbD m =
      (s.ls.getLsbD m || (decide (16 * f ≤ m) && decide (m ≤ 16 * l + 15))) := by
  rw [senseDone, Pass.turns_flags _ _ _ hm fun w hw => show 16 * w + 15 < 1024 by omega]
  congr 1
  rw [Bool.eq_iff_iff, List.any_eq_true]
  simp only [Bool.and_eq_true, decide_eq_true_eq, List.mem_range'_1]
  constructor
  · rintro ⟨w, hw, (hlo : 16 * w ≤ m), (hhi : m ≤ 16 * w + 15)⟩
    omega
  · rintro ⟨hf, hl⟩
    exact ⟨m / 16, by omega, show 16 * (m / 16) ≤ m by omega, show m ≤ 16 * (m / 16) + 15 by omega⟩

end Sense

theorem exec_sns {s : State} {rfirst rlast : BitVec 6} (pattern : Word) (hc : s.cfg.wf = true) (hm : s.mode = .idle)
    (hle : rfirst.toNat ≤ rlast.toNat) (hl : rlast.toNat < s.cfg.nline / 16) :
    completesQuietlyTo (.sns rfirst rlast pattern) s
      (LineArray.sense.standing (encode (.sns rfirst rlast pattern)) s []
        (senseDone s rfirst.toNat rlast.toNat pattern)) :=
  exec_pass (k := .sense) hc hm (senseRangeOk_iff.2 ⟨hle, hl⟩) rfl rfl (uopsOf_sns ..) (fun _ => rfl)
    (show _ ≤ s.cfg.nline / 16 by omega)

/-- Settles O29: `SNS` is the pass of whole registers. -/
theorem snsWritesThePatternToTheRange : Obligations.SnsWritesThePatternToTheRange := by
  unfold Obligations.SnsWritesThePatternToTheRange
  intro s rfirst rlast pattern hc hshape hm f l C
  refine ⟨fun hrange => exec_illegalOperand (i := .sns rfirst rlast pattern) hm
    (Bool.eq_false_iff.2 fun h => hrange (senseRangeOk_iff.1 h)), fun hle hl => ⟨?_, ?_⟩⟩
  · rw [uopsOf_sns, List.map_flatMap, ← Nat.sub_add_comm hle]
    exact List.map_eq_flatMap.symm.trans ((List.map_const' ..).trans (by rw [List.length_range']))
  let g := senseDone s f l pattern
  obtain ⟨e, d, hexec, he⟩ : completesQuietlyTo _ s (LineArray.sense.standing _ s [] g) :=
    exec_sns pattern hc hm hle hl
  obtain ⟨-, -, -, -, hlen, -⟩ := shapeOk_iff.1 hshape
  have hl' : l < s.sense.length := hlen ▸ hl
  have hevents : g.events = _ := senseDone_events hle hl'
  have htemp : g.temp = s.tReg := senseDone_temp
  refine ⟨g.words, g.flags, e, d, hexec.trans ?_, Pass.turns_length .., fun r _ => senseDone_word hle hl' r,
    fun m hm => senseDone_flags hle rlast.isLt hm, he⟩
  simp [LineArray.standing, LineArray.put, hm, hevents, htemp, encode, encodeR, C]

/-! ### ENL (R168, R169) -/

theorem lineReady_iff {s : State} {l : Nat} : lineReady s l = true ↔
    s.lp.getLsbD l = true ∧ s.lt.getLsbD l = true ∧ s.ls.getLsbD l = true := by
  simp [lineReady, and_assoc]

/-- `s` after `ENL l`: a read of the line's enable register and a write of it with the line's bit set. -/
def enlDone (s : State) (l : BitVec 10) : State :=
  let n := l.toNat / 32
  let x := regAtIndex s.isen n
  let y := x ||| lineBit l.toNat
  { s with
    isen := s.isen.set n y
    tReg := x
    hist := s.hist ++ [.rd (aIsen s.cfg n) x, .wr (aIsen s.cfg n) y]
    cur := encode (.enl l)
    ustep := 2
    done := true }

theorem exec_enl {s : State} {l : BitVec 10} (hc : s.cfg.wf = true) (hm : s.mode = .idle)
    (hl : l.toNat < s.cfg.nline) (hready : lineReady s l.toNat = true) :
    completesQuietlyTo (.enl l) s (enlDone s l) := by
  let n := l.toNat / 32
  let x := regAtIndex s.isen n
  have h32 : s.cfg.nline % 32 = 0 := (wf_parts hc).2.1
  have hreg : regAt s.cfg (aIsen s.cfg n) = some (.isen n) := regAt_isen hc (by omega)
  have h0 := leads_exec (i := .enl l) hm (decide_eq_true hl) rfl hready
  have h1 : Leads _ _ (underWay (encode (.enl l)) 1 { s with tReg := x, hist := s.hist ++ [.rd (aIsen s.cfg n) x] }) :=
    h0.read hreg rfl rfl rfl
  obtain ⟨e, d, hnext, he⟩ := (h1.write hreg rfl (fun _ => nofun) (eval_put ..) (.of_eq rfl)).next (s := s) rfl rfl rfl
  refine ⟨e, d, hnext.trans ?_, he⟩
  simp [regWrite, advance, underWay, hm, enlDone, ← BitVec.or_assoc, n, x]

/-- Of all enable bits the write changes the line's only. -/
theorem enlDone_bit {s : State} {l : BitVec 10} (hlen : l.toNat / 32 < s.isen.length) (n b : Nat) :
    (regAtIndex (enlDone s l).isen n).getLsbD b = ((regAtIndex s.isen n).getLsbD b ||
      (decide (n = l.toNat / 32) && decide (b = l.toNat % 32))) := by
  rw [enlDone]
  by_cases hn : n = l.toNat / 32
  · rw [hn, regAtIndex_set_self _ _ _ hlen, BitVec.getLsbD_or,
      show (lineBit l.toNat).getLsbD b = _ from getLsbD_pinBit _ b (Nat.mod_lt _ (by decide))]
    simp
  · rw [regAtIndex_set_ne _ _ _ _ hn]
    simp [hn]

/-- Where the line's bit is set already, no register changes. -/
theorem stored_enlDone_of_isen {s t : State} {l : BitVec 10} (hlen : l.toNat / 32 < s.isen.length)
    (h : t.isen = (enlDone s l).isen) (r : Reg) : stored (enlDone t l) r = stored t r := by
  have hisen : (enlDone t l).isen = t.isen := by
    rw [enlDone, h]
    simp [enlDone, regAtIndex_set_self _ _ _ hlen, BitVec.or_assoc]
  exact stored_congr (s := t) (t := enlDone t l) rfl rfl rfl rfl rfl rfl rfl hisen rfl r

/-- A line that is not ready is refused at acceptance. -/
theorem exec_enl_lineNotConfigured {s : State} {l : BitVec 10} (hm : s.mode = .idle) (hl : l.toNat < s.cfg.nline)
    (hready : ¬ lineReady s l.toNat = true) : exec (.enl l) s = .fault (.lineNotConfigured (encode (.enl l)) s) := by
  rw [exec_eq_runCommand]
  exact runCommand_of_fault (accept_eq_fault.2
    ⟨hm, .inr (.inr ⟨decide_eq_true hl, rfl, Bool.eq_false_iff.2 hready, rfl⟩)⟩)

/-- Settles O30: the checks in the order of R192, then `exec_enl`. -/
theorem enlEnablesAConfiguredLine : Obligations.EnlEnablesAConfiguredLine := by
  unfold Obligations.EnlEnablesAConfiguredLine
  intro s l hc _ hm n x a y C ready
  refine ⟨rfl, fun hl => exec_illegalOperand (i := .enl l) hm (decide_eq_false hl),
    fun hl hready => exec_enl_lineNotConfigured hm hl (mt lineReady_iff.1 hready),
    fun hl hready => exec_enl hc hm hl (lineReady_iff.2 hready)⟩

/-- Settles O31: the second `ENL` begins in the state `enlDone` of the first. -/
theorem enlSetsExactlyOneBitIdempotently : Obligations.EnlSetsExactlyOneBitIdempotently := by
  unfold Obligations.EnlSetsExactlyOneBitIdempotently
  intro s l hc hshape hm hl hready
  have hlen : l.toNat / 32 < s.isen.length := by
    obtain ⟨-, h32, -⟩ := wf_parts hc
    obtain ⟨-, -, -, -, -, hlen⟩ := shapeOk_iff.1 hshape
    omega
  obtain ⟨e, d, hfirst, -⟩ := exec_enl hc hm hl hready
  let t : State := { enlDone s l with eds := e, levelDraws := d }
  obtain ⟨e', d', hsecond, -⟩ : completesQuietlyTo _ t _ := exec_enl hc hm hl hready
  exact ⟨_, _, hfirst, hsecond, fun n b _ => enlDone_bit hlen n b,
    fun r => stored_enlDone_of_isen (t := t) hlen rfl r⟩

/-! ### FWD (R170, R171) -/

/-- One blind write of `CTRL`. -/
theorem exec_fwd {s : State} (hc : s.cfg.wf = true) (hm : s.mode = .idle) :
    completesQuietlyTo .fwd s { s with
      ctrl := forwardValue s.cfg s.elIn
      hist := s.hist ++ [.wr s.cfg.map.ctrl (forwardValue s.cfg s.elIn)]
      cur := encode .fwd
      ustep := 1
      done := true } := by
  have h0 := leads_exec (i := .fwd) hm rfl rfl rfl
  obtain ⟨e, d, hnext, he⟩ := (h0.write (regAt_ctrl hc) rfl (fun _ => nofun) rfl (.of_eq rfl)).next (s := s) rfl rfl rfl
  refine ⟨e, d, hnext.trans ?_, he⟩
  simp [regWrite, advance, underWay, hm]

/-- Settles O32: whole by `exec_fwd`; a scheduled turn performs the one micro-operation of the latched `FWD`. -/
theorem fwdWritesTheGroupEnablesOfTheLevel : Obligations.FwdWritesTheGroupEnablesOfTheLevel := by
  unfold Obligations.FwdWritesTheGroupEnablesOfTheLevel
  intro s hc v
  refine ⟨rfl, exec_fwd hc, fun rest hm hcur hk hmoves => ?_⟩
  have hd : decode s.cur = .ok .fwd := hcur ▸ decode_encode .fwd
  have hnext : nextUop s = some ({ action := .write s.cfg.map.ctrl (.const v) }, true) := by
    have hu : (uopsOf s.cfg s.elIn .fwd)[s.ustep]? = _ := congrArg _ hk
    rw [nextUop_of_decode hd hu, hk]
    rfl
  exact stepsQuietlyTo_of_uop hm hmoves hk hnext rfl (memWrite_at (s := { s with moves := rest }) v (regAt_ctrl hc)) rfl
    rfl rfl

/-! ### The GPIO bank (R160) -/

/-- No GPIO register, and neither `OUT`, the settle timer nor a pin's tracking flag differs. -/
def SameGpioBank (s t : State) : Prop :=
  t.fsel = s.fsel ∧ t.pull = s.pull ∧ t.ren = s.ren ∧ t.fen = s.fen ∧ t.out = s.out ∧
    t.settle = s.settle ∧ t.fdone = s.fdone ∧ t.pdone = s.pdone

theorem sameGpioBank_standing (k : LineArray) (C : Descriptor) (s : State) (us : List Uop) (g : Progress) :
    SameGpioBank s (k.standing C s us g) := by
  cases k <;> exact ⟨rfl, rfl, rfl, rfl, rfl, rfl, rfl, rfl⟩

/-- A command that completes passed its checks. -/
theorem checks_of_exec {i : Instr} {s t : State} (h : exec i s = .next t) :
    s.mode = .idle ∧ i.wf s.cfg = true ∧ (commandOf s.cfg s.elIn i).lineOk s = true := by
  rw [exec_eq_runCommand] at h
  obtain ⟨_, haccept, -⟩ := runCommand_eq_next.1 h
  obtain ⟨hm, hops, -, hline, -⟩ := accept_eq_next.1 haccept
  exact ⟨hm, (operandsOk_eq_wf ..).symm.trans hops, hline⟩

/-- A distributor command that completes does so in the bank of GPIO registers it began with. -/
theorem distributor_completes {i : Instr} {s t : State} (hc : s.cfg.wf = true) (hi : distributorFamily i = true)
    (h : exec i s = .next t) : ∃ u, completesQuietlyTo i s u ∧ SameGpioBank s u := by
  obtain ⟨hm, hwf, hline⟩ := checks_of_exec h
  cases i with
  | pri0 first last =>
    obtain ⟨hle, hl⟩ := lineRangeOk_iff.1 hwf
    exact ⟨_, exec_pri0 hc hm hle hl, sameGpioBank_standing ..⟩
  | tgt first last mask =>
    obtain ⟨hle, hl⟩ := lineRangeOk_iff.1 hwf
    exact ⟨_, exec_tgt hc hm hle hl mask, sameGpioBank_standing ..⟩
  | sns rfirst rlast pattern =>
    obtain ⟨hle, hl⟩ := senseRangeOk_iff.1 hwf
    exact ⟨_, exec_sns pattern hc hm hle hl, sameGpioBank_standing ..⟩
  | enl l => exact ⟨_, exec_enl hc hm (of_decide_eq_true hwf) hline, rfl, rfl, rfl, rfl, rfl, rfl, rfl, rfl⟩
  | fwd => exact ⟨_, exec_fwd hc hm, rfl, rfl, rfl, rfl, rfl, rfl, rfl, rfl⟩
  | _ => cases hi

/-- Settles O34: the state each distributor command completes in has the GPIO bank of the first. -/
theorem distributorCommandsLeaveTheGpioBankAlone : Obligations.DistributorCommandsLeaveTheGpioBankAlone := by
  unfold Obligations.DistributorCommandsLeaveTheGpioBankAlone
  intro i s t hc hi h
  obtain ⟨u, ⟨e, d, hexec, he⟩, hfsel, hpull, hren, hfen, hout, hsettle, hfdone, hpdone⟩ :=
    distributor_completes hc hi h
  cases h.symm.trans hexec
  exact ⟨hfsel, hpull, hren, hfen, hout, hsettle, hfdone, hpdone, he⟩

end Sys2Proof.Proofs
end

section
/-! PROOFS. What PMGC shows the world outside: the line it signals to the core and the words it answers to the host
(spec/60_exceptions.md R195, R206, R225; spec/70_reset_and_hazards.md R232). -/

namespace Sys2Proof.Proofs

open Sys2Proof Sys2Proof.Machine Sys2Proof.Laws

/-! ### The interrupt signal (R195, R225) -/

theorem lineSignals_iff {s : State} {l : Nat} : lineSignals s l = true ↔ pending s l = true ∧
    lineEnabled s l = true ∧ s.ctrl &&& groupEnable s.cfg l ≠ 0 ∧ (tgtOf s l).getLsbD 0 = true := by
  simp [lineSignals, and_assoc]

theorem irqOut_iff {s : State} : irqOut s = true ↔ ∃ l < s.cfg.nline, lineSignals s l = true := by
  simp [irqOut]

/-- With `CTRL` zero no group is forwarded, whatever the group enables are. -/
theorem lineSignals_of_ctrl_zero {s : State} (h : s.ctrl = 0) (l : Nat) : lineSignals s l = false :=
  Bool.eq_false_iff.2 fun hl => by
    obtain ⟨-, -, hgroup, -⟩ := lineSignals_iff.1 hl
    exact hgroup (by rw [h]; exact BitVec.zero_and)

theorem ctrl_zero_of_disabled {s : State} (h : disabled s = true) : s.ctrl = 0 := by
  rw [disabled, Bool.and_eq_true] at h
  exact eq_of_beq h.1

/-- Settles O40: line by line; of a Disabled distributor the zero `CTRL` is enough. -/
theorem onlyEnabledForwardedTargetedLinesSignal : Obligations.OnlyEnabledForwardedTargetedLinesSignal := by
  unfold Obligations.OnlyEnabledForwardedTargetedLinesSignal
  refine fun s => ⟨?_, fun hdis => Bool.eq_false_iff.2 fun hirq => ?_⟩
  · simp only [irqOut_iff, lineSignals_iff, groupEnable]
  · obtain ⟨l, -, hl⟩ := irqOut_iff.1 hirq
    rw [lineSignals_of_ctrl_zero (ctrl_zero_of_disabled hdis)] at hl
    cases hl

/-! ### The host's reads (R206, R232) -/

theorem regRead_of_stored {s : State} {r : Reg} {w : Word} (h : stored s r = some w) : regRead s r = w := by
  rw [regRead, h, Option.getD_some]

/-- Where a register holds a word, a read takes no free value. -/
theorem drawsOf_of_stored {s : State} {r : Reg} {w : Word} (h : stored s r = some w) : drawsOf s r = 0 := by
  simp [drawsOf, h]

theorem step_of_hostRead {s : State} {a : Nat} {r : Reg} {rest : List Move} (hm : s.moves = .hostRead a :: rest)
    (ha : regAt s.cfg a = some r) : step s = .next { s with
      moves := rest
      hostRd := regRead { s with moves := rest } r
      readDraws := s.readDraws + drawsOf { s with moves := rest } r } := by
  simp only [step_of_move hm, agentStep, hostReadStep, ha]

/-- Settles O46: the step is `step_of_hostRead`; the word is the register's where it holds one. -/
theorem hostReadsChangeNothing : Obligations.HostReadsChangeNothing := by
  unfold Obligations.HostReadsChangeNothing
  intro s a r rest hm ha
  refine ⟨_, _, step_of_hostRead hm ha, fun w hw => ?_⟩
  have hw' : stored { s with moves := rest } r = some w := (stored_moves s rest r).trans hw
  exact ⟨regRead_of_stored hw', by rw [drawsOf_of_stored hw', Nat.add_zero]⟩

end Sys2Proof.Proofs
end

section
/-! PROOFS. Reset, waiting and the end of a run, and what the model refuses (spec/70_reset_and_hazards.md R220 to R222,
R232, R233, R235). -/

namespace Sys2Proof.Proofs

open Sys2Proof Sys2Proof.Machine Sys2Proof.Laws

/-! ### Refusals (R232) -/

theorem hostReadStep_eq_refused {a : Nat} {s : State} {r : Refusal} :
    hostReadStep a s = .refused r ↔ regAt s.cfg a = none ∧ r = .foreignAccess a := by
  cases ha : regAt s.cfg a <;> simp [hostReadStep, ha, eq_comm]

theorem hostReadStep_of_regAt {a : Nat} {s : State} {r : Reg} (ha : regAt s.cfg a = some r) :
    hostReadStep a s = .next { s with hostRd := regRead s r, readDraws := s.readDraws + drawsOf s r } := by
  simp only [hostReadStep, ha]

/-- Of the agents only the host is ever refused. -/
theorem agentStep_eq_refused {m : Move} {s : State} {r : Refusal} (h : agentStep m s = .refused r) :
    (r = .commandPortBusy ∧ s.mode = .busy ∧ ∃ C, m = .present C) ∨
      ∃ a, r = .foreignAccess a ∧ m = .hostRead a ∧ regAt s.cfg a = none := by
  cases m with
  | present C =>
    obtain ⟨hbusy, hr⟩ := presentStep_eq_refused.1 h
    exact .inl ⟨hr, hbusy, C, rfl⟩
  | hostRead a =>
    obtain ⟨hreg, hr⟩ := hostReadStep_eq_refused.1 h
    exact .inr ⟨a, hr, rfl, hreg⟩
  | seq => exact absurd h seqStep_ne_refused
  | _ => cases h

/-- In `Idle` a command may fault, but it is never refused. -/
theorem commandStep_ne_refused {C : Descriptor} {s : State} {r : Refusal} (hm : s.mode = .idle) :
    commandStep C s ≠ .refused r := by
  cases hd : decode C with
  | ok i => simp [commandStep_ok hd, exec_eq_refused, hm]
  | illegalCommand => simp [commandStep, hd, raiseUndefined]

/-- The default order asks nothing of the host that it must not do. -/
theorem step_ne_refused_of_no_moves {s : State} {r : Refusal} (hmoves : s.moves = []) : step s ≠ .refused r := by
  cases hmode : s.mode with
  | busy =>
    rw [step_of_busy hmoves hmode]
    split
    · exact seqStep_ne_refused
    · exact nofun
  | idle =>
    cases hcmds : s.cmds with
    | nil => rw [step_of_idle hmoves hmode hcmds]; exact nofun
    | cons C rest =>
      rw [step_of_command hmoves hmode hcmds]
      exact commandStep_ne_refused (s := { s with cmds := rest }) hmode

/-- Settles O13: a refused step is a scheduled move, and the move is one of the host's. -/
theorem onlyHostDutiesAreRefused : Obligations.OnlyHostDutiesAreRefused := by
  unfold Obligations.OnlyHostDutiesAreRefused
  intro s r h
  cases hmoves : s.moves with
  | nil => exact absurd h (step_ne_refused_of_no_moves hmoves)
  | cons m rest =>
    rw [step_of_move hmoves] at h
    obtain ⟨hr, hbusy, C, rfl⟩ | ⟨a, hr, rfl, hreg⟩ := agentStep_eq_refused h
    · exact .inl ⟨hr, hbusy, C, rest, rfl⟩
    · exact .inr ⟨a, rest, hr, rfl, hreg⟩

/-! ### The end of a run (R233) -/

theorem runOver_iff {s : State} :
    runOver s = true ↔ s.mode = .idle ∧ s.cmds = [] ∧ ∀ m ∈ s.moves, m.presents = false := by
  simp [runOver, and_assoc]

/-- Nothing is taken up between `s` and `t`: mode and schedule stay, and no register, `OUT`, `T` or history changes. -/
structure Rests (s t : State) : Prop where
  mode : t.mode = s.mode
  cmds : t.cmds = s.cmds
  moves : t.moves = s.moves
  hist : t.hist = s.hist
  tReg : t.tReg = s.tReg
  regs : SameRegs s t

/-- The timer, the edge latch, `done`, the inputs and what the host read may change while PMGC rests. -/
theorem rests_of_unobserved (s : State) (eds : Word) (settle : Nat) (done : Bool) (el : BitVec 2) (pad : Word)
    (ext : LineSet) (rd : Word) (levels reads : Nat) : Rests s { s with
      eds := eds, settle := settle, done := done, elIn := el, padIn := pad, extPending := ext, hostRd := rd
      levelDraws := levels, readDraws := reads } :=
  ⟨rfl, rfl, rfl, rfl, rfl, fun r => by cases r <;> rfl, rfl⟩

theorem rests_tick (s : State) : Rests s (tick s) := rests_of_unobserved ..

theorem Rests.runOver_eq {s t : State} (h : Rests s t) : runOver t = runOver s := by
  simp only [runOver, h.mode, h.cmds, h.moves]

/-- In `Idle` every move but a presentation or a reset leaves PMGC at rest; only a host read may be refused. -/
theorem agentStep_of_idle {m : Move} {s : State} (hm : s.mode = .idle) (hp : m.presents = false) :
    (∃ r, agentStep m s = .refused r) ∨
      ∃ t, agentStep m s = .next t ∧ ((∀ u, m ≠ .rst u) → Rests s t) := by
  cases m with
  | present C => cases hp
  | rst u => exact .inr ⟨_, rfl, fun h => absurd rfl (h u)⟩
  | seq => exact .inr ⟨s, by simp only [agentStep, seqStep, hm], fun _ => rests_of_unobserved ..⟩
  | hostRead a =>
    cases ha : regAt s.cfg a with
    | none => exact .inl ⟨_, hostReadStep_eq_refused.2 ⟨ha, rfl⟩⟩
    | some r => exact .inr ⟨_, hostReadStep_of_regAt ha, fun _ => rests_of_unobserved ..⟩
  | _ => exact .inr ⟨_, rfl, fun _ => rests_of_unobserved ..⟩

/-- What the step of a run that is over answers: it rests, but for a reset, while the schedule is worked off. -/
theorem step_of_runOver {s : State} (h : runOver s = true) :
    (∃ r, step s = .refused r) ∨
      ∃ t, step s = .next t ∧ (s.noReset → runOver t = true ∧ Rests (withMoves s s.moves.tail) t) := by
  obtain ⟨hmode, hcmds, hpresents⟩ := runOver_iff.1 h
  cases hmoves : s.moves with
  | nil =>
    refine .inr ⟨_, step_of_idle hmoves hmode hcmds, fun _ => ⟨(rests_tick s).runOver_eq.trans h, ?_⟩⟩
    rw [List.tail_nil, withMoves_nil hmoves]
    exact rests_tick s
  | cons m rest =>
    rw [hmoves] at hpresents
    have hover : runOver (withMoves s rest) = true :=
      runOver_iff.2 ⟨hmode, hcmds, fun m' hm' => hpresents m' (List.mem_cons_of_mem m hm')⟩
    rw [step_of_move hmoves]
    refine (agentStep_of_idle (s := withMoves s rest) hmode (hpresents m List.mem_cons_self)).imp_right ?_
    rintro ⟨t, ht, hrests⟩
    refine ⟨t, ht, fun hn => ?_⟩
    have hr : Rests (withMoves s rest) t := hrests fun u hu => hn u rest (hu ▸ hmoves)
    exact ⟨hr.runOver_eq.trans hover, hr⟩

/-- Settles O57: the three conditions are those of `runOver_iff`, and a run that is over rests. -/
theorem runOverOnlyWhenNothingIsLeftToRun : Obligations.RunOverOnlyWhenNothingIsLeftToRun := by
  unfold Obligations.RunOverOnlyWhenNothingIsLeftToRun
  refine ⟨fun s hs => Bool.eq_false_iff.2 fun h => ?_, fun s h => ?_⟩
  · obtain ⟨hmode, hcmds, hpresents⟩ := runOver_iff.1 h
    obtain hbusy | hne | ⟨C, hC⟩ := hs
    · exact absurd (hmode.symm.trans hbusy) nofun
    · exact hne hcmds
    · exact absurd (hpresents _ hC) nofun
  · obtain ⟨r, hstep⟩ | ⟨t, hstep, hrests⟩ := step_of_runOver h
    · simp [hstep]
    · rw [hstep]
      refine ⟨by simp, fun hn t' ht' => ?_⟩
      cases ht'
      obtain ⟨hover, hr⟩ := hrests hn
      exact ⟨hover, hr.hist, hr.regs.2, hr.tReg, fun r => (hr.regs.1 r).trans (stored_moves s _ r)⟩

/-! ### Reset (R221, R222) -/

theorem disabled_resetWith (c : Config) (u : ResetDraw) : disabled (State.resetWith c u) = true := by
  simp [disabled, State.resetWith]

/-- Settles O2: a Disabled distributor signals nothing (`onlyEnabledForwardedTargetedLinesSignal`), and whether it is
Disabled does not depend on the pending inputs. -/
theorem resetDistributorSignalsNothing : Obligations.ResetDistributorSignalsNothing := by
  unfold Obligations.ResetDistributorSignalsNothing
  intro c u v
  have hdis := disabled_resetWith c u
  exact ⟨hdis, (onlyEnabledForwardedTargetedLinesSignal { State.resetWith c u with extPending := v }).2 hdis⟩

/-- What `resetStep` keeps is outside the machine part. -/
theorem machinePart_resetStep (u : ResetDraw) (s : State) :
    (resetStep u s).machinePart = State.resetWith s.cfg u := rfl

/-- Settles O3: the step is `resetStep`, whatever the mode. -/
theorem resetAbandonsACommandUnderWay : Obligations.ResetAbandonsACommandUnderWay := by
  unfold Obligations.ResetAbandonsACommandUnderWay
  intro s u rest hmoves
  exact ⟨_, step_of_move hmoves, machinePart_resetStep u _⟩

/-! ### Waiting (R220, R235) -/

/-- Settles O49: the step is a clock cycle, a `commit` that leaves functions, output latch and pads alone. -/
theorem idleWaitsForACommand : Obligations.IdleWaitsForACommand := by
  unfold Obligations.IdleWaitsForACommand
  intro s hmode hmoves hcmds
  exact stepsQuietlyTo_of_commit (step_of_idle hmoves hmode hcmds) ⟨rfl, rfl⟩ rfl rfl rfl rfl rfl

end Sys2Proof.Proofs
end
